-- ==== Sys2Proof/Word.lean ====
section
/-! DEFINITION. The word types of FWAU/BPD: the command word (spec/30_encoding.md R80), the words of the pattern engine
(R5) and strings of 8-bit characters (R84). A raw value, what a port carries, is an integer of the range RAW
(spec/00_scope.md R8), whose size is the parameter RAWBITS: it is an `Int`, brought into RAW by `Machine.raw`. -/

namespace Sys2Proof

/-- A command word: always exactly 32 bits (R80, R91). -/
abbrev CommandWord := BitVec 32

/-- A candidate, a match mask or a compare value: `PATW = 32` bits (R5, R43, R231). -/
abbrev PatWord := BitVec 32

/-- One 8-bit character of a string port (R84). -/
abbrev Char8 := BitVec 8

/-- The characters of a string port, first character first (R84). -/
abbrev Str := List Char8

end Sys2Proof
end

