-- ==== Sys2Proof/Config.lean ====
section
/-! DEFINITION. The values "this hardware takes" for the sizes of spec/00_scope.md R5, which are the defaults of the
parameters in Machine/State.lean; the one size that is fixed (PATW); and the free value that stands for whatever the spec
leaves unconstrained (R14). -/

namespace Sys2Proof.Config

/-- `PATW`, `fixed`: the largest total width of a pattern (R5). -/
abbrev patW : Nat := 32

/-- The default of `RAWBITS`, the width of every operand and result port (R5). -/
abbrev rawBits : Nat := 64

/-- The default of `WMAX`, the largest descriptor width (R5). -/
abbrev wMax : Nat := 63

/-- The default of `NPAT`, the number of pattern slots (R5). -/
abbrev nPat : Nat := 64

/-- The default of `NGRP`, the number of group slots (R5). -/
abbrev nGrp : Nat := 16

/-- The default of `PBMAX`, the largest number of parts the builder holds (R5). -/
abbrev pbMax : Nat := 64

/-- The default of `GMAX`, the largest number of members of a group (R5). -/
abbrev gMax : Nat := 64

/-- The default of `SMAX`, the largest length of a string on a port (R5). -/
abbrev sMax : Nat := 256

/-- A value the spec leaves unconstrained (UNSPECIFIED, R14; log entry 3). It has no body a proof can see. It is
applied to a counter that grows with every use and to the whole machine state at that moment (`seen`), so that
nothing can be proved of it, not even that two uses agree. -/
opaque freeValue {σ α : Type} [Inhabited α] (count : Nat) (seen : σ) : α

end Sys2Proof.Config
end

