-- ==== Sys2Proof/Syntax.lean ====
section
/-! DEFINITION. The command set of FWAU/BPD, version 1: one constructor per row of the opcode map (spec/30_encoding.md
R88), carrying the fields its format uses (R81, R83). Operands are not part of an instruction: they are on the ports
(R84). -/

namespace Sys2Proof

/-- The overflow policies and their `POL` codes (R82). -/
inductive Policy where
  /-- `POL = 0`, suffix `.chk`. -/
  | checked
  /-- `POL = 1`, suffix `.unc`. -/
  | unchecked
  /-- `POL = 2`, suffix `.try`. -/
  | attempt
  /-- `POL = 3`, suffix `.wrap`. -/
  | wrapped
  /-- `POL = 4`, suffix `.clamp`. -/
  | clamped
deriving DecidableEq, Repr, Inhabited

/-- A descriptor `(W, S)` (R9): the width and the signed flag. -/
structure Desc where
  /-- `W`, legal `1 .. WMAX`. -/
  width : Nat
  /-- `S`: two's complement if true, unsigned if false. -/
  signed : Bool
deriving DecidableEq, Repr, Inhabited

/-- One constructor per row of the opcode map (R88). -/
inductive Instr where
  -- System commands, format C (spec/47_system.md)
  /-- `CSRR` (R260); reads IMM; writes R0. -/
  | csrr (imm : BitVec 12)
  /-- `CSRW` (R261); reads IMM, A; writes none. -/
  | csrw (imm : BitVec 12)
  -- Raw bit primitives, format Z (spec/40_raw_bitops.md)
  /-- `GETBIT` (R110); reads A value, B n; writes R0. -/
  | getbit
  /-- `SETBIT` (R111); reads A value, B n; writes R0. -/
  | setbit
  /-- `CLRBIT` (R112); reads A value, B n; writes R0. -/
  | clrbit
  /-- `TOGBIT` (R113); reads A value, B n; writes R0. -/
  | togbit
  /-- `TOGBITX` (R114); reads A value, B n, C state; writes R0. -/
  | togbitx
  /-- `ISSET` (R115); reads A value, B n; writes R0. -/
  | isset
  /-- `ISCLR` (R116); reads A value, B n; writes R0. -/
  | isclr
  /-- `MSB` (R117); reads A value, B width; writes R0. -/
  | msb
  /-- `CNTSET` (R118); reads A value, B width; writes R0. -/
  | cntset
  /-- `BITCHUNK` (R119); reads A value, B left, C size; writes R0. -/
  | bitchunk
  /-- `BITRANGE` (R120); reads A value, B left, C right; writes R0. -/
  | bitrange
  /-- `REPLRANGE` (R121); reads A value, B left, C right, D replacement; writes R0. -/
  | replrange
  /-- `ROTL` (R122); reads A value, B n, C width; writes R0. -/
  | rotl
  /-- `ROTR` (R123); reads A value, B n, C width; writes R0. -/
  | rotr
  /-- `SEXT` (R124); reads A value, B startWidth, C endWidth; writes R0. -/
  | sext
  /-- `SHRL` (R125); reads A value, B amount, C width; writes R0. -/
  | shrl
  /-- `SHRA` (R126); reads A value, B amount, C width; writes R0. -/
  | shra
  /-- `ROTRSH` (R127); reads A value, B amount, C width; writes R0. -/
  | rotrsh
  /-- `PARSEB` (R128); reads S_in; writes R0. -/
  | parseb
  /-- `RENDERB` (R129); reads A value, B pad width; writes R0 length, RS. -/
  | renderb
  -- Long helper, format Z (spec/41_long_helper.md)
  /-- `LHILO` (R141); reads A value; writes R0 hi, R1 lo. -/
  | lhilo
  /-- `LGETBIT` (R142); reads A hi, B lo, C n; writes R0. -/
  | lgetbit
  /-- `LSETBIT` (R143); reads A hi, B lo, C n; writes R0 hi, R1 lo. -/
  | lsetbit
  /-- `LCLRBIT` (R144); reads A hi, B lo, C n; writes R0 hi, R1 lo. -/
  | lclrbit
  /-- `LCHUNK` (R145); reads A hi, B lo, C left, D size; writes R0. -/
  | lchunk
  -- Policy arithmetic, format P (spec/42_policy_arith.md)
  /-- `FIT` (R152); reads A raw; writes R0. -/
  | fit (pol : Policy) (d : Desc)
  /-- `ADD` (R153); reads A a, B b; writes R0. -/
  | add (pol : Policy) (d : Desc)
  /-- `SUB` (R154); reads A a, B b; writes R0. -/
  | sub (pol : Policy) (d : Desc)
  /-- `MUL` (R155); reads A a, B b; writes R0. -/
  | mul (pol : Policy) (d : Desc)
  /-- `POW` (R156); reads A a, B exponent; writes R0. -/
  | pow (pol : Policy) (d : Desc)
  /-- `NEG` (R157); reads A a; writes R0. -/
  | neg (pol : Policy) (width : Nat)
  /-- `NPOW2` (R158); reads A a; writes R0. -/
  | npow2 (pol : Policy) (d : Desc)
  /-- `NMULT` (R159); reads A a, B m; writes R0. -/
  | nmult (pol : Policy) (d : Desc)
  /-- `SHL` (R160); reads A a, B n; writes R0. -/
  | shl (pol : Policy) (d : Desc)
  -- Descriptor bit operations, formats D and E (spec/43_descriptor_bitops.md)
  /-- `BITS` (R170); reads A a; writes R0. -/
  | bits (d : Desc)
  /-- `NTHBIT` (R171); reads A a, B n; writes R0. -/
  | nthbit (d : Desc) (unchecked : Bool)
  /-- `SETNTH` (R172); reads A a, B n; writes R0. -/
  | setnth (d : Desc) (unchecked : Bool)
  /-- `TOGNTH` (R173); reads A a, B n; writes R0. -/
  | tognth (d : Desc) (unchecked : Bool)
  /-- `CNT1` (R174); reads A a; writes R0. -/
  | cnt1 (d : Desc)
  /-- `CNT0` (R175); reads A a; writes R0. -/
  | cnt0 (d : Desc)
  /-- `CLO` (R176); reads A a; writes R0. -/
  | clo (d : Desc)
  /-- `CLZ` (R177); reads A a; writes R0. -/
  | clz (d : Desc)
  /-- `CTO` (R178); reads A a; writes R0. -/
  | cto (d : Desc)
  /-- `CTZ` (R179); reads A a; writes R0. -/
  | ctz (d : Desc)
  /-- `DCHUNK` (R180); reads A a, B left, C size; writes R0. -/
  | dchunk (d : Desc) (unchecked : Bool)
  /-- `DSLICE` (R181); reads A a, B left, C right; writes R0. -/
  | dslice (d : Desc) (unchecked : Bool)
  /-- `DREPL` (R182); reads A a, B left, C right, D replacement; writes R0. -/
  | drepl (d : Desc) (unchecked : Bool)
  /-- `DROTL` (R183); reads A a, B n; writes R0. -/
  | drotl (d : Desc)
  /-- `DROTR` (R184); reads A a, B n; writes R0. -/
  | drotr (d : Desc)
  /-- `DSEXT` (R185); reads A a, B startWidth; writes R0. -/
  | dsext (d : Desc)
  /-- `HILO` (R186); reads A a; writes R0 hi, R1 lo. -/
  | hilo (d : Desc)
  /-- `FROMHILO` (R187); reads A hi, B lo; writes R0. -/
  | fromhilo (d : Desc)
  -- Descriptor math and comparisons, format D (spec/44_descriptor_math.md)
  /-- `SQRT` (R200); reads A a; writes R0. -/
  | sqrt (d : Desc)
  /-- `LOG` (R201); reads A a, B base; writes R0. -/
  | log (d : Desc)
  /-- `LOG2` (R202); reads A a; writes R0. -/
  | log2 (d : Desc)
  /-- `LOG10` (R203); reads A a; writes R0. -/
  | log10 (d : Desc)
  /-- `MIDPT` (R204); reads A a, B b; writes R0. -/
  | midpt (d : Desc)
  /-- `CLAMP` (R205); reads A a, B lo, C hi; writes R0. -/
  | clamp (d : Desc)
  /-- `REM` (R206); reads A a, B b; writes R0. -/
  | rem (d : Desc)
  /-- `MOD` (R207); reads A a, B b; writes R0. -/
  | mod (d : Desc)
  /-- `CMPLT` (R208); reads A a, B b; writes R0. -/
  | cmplt (d : Desc)
  /-- `CMPLE` (R209); reads A a, B b; writes R0. -/
  | cmple (d : Desc)
  /-- `CMPGT` (R210); reads A a, B b; writes R0. -/
  | cmpgt (d : Desc)
  /-- `CMPGE` (R211); reads A a, B b; writes R0. -/
  | cmpge (d : Desc)
  -- Bitwise operators, format D (spec/45_bitwise_ops.md)
  /-- `AND` (R221); reads A a, B b; writes R0. -/
  | and (d : Desc)
  /-- `OR` (R222); reads A a, B b; writes R0. -/
  | or (d : Desc)
  /-- `XOR` (R223); reads A a, B b; writes R0. -/
  | xor (d : Desc)
  /-- `NOT` (R224); reads A a; writes R0. -/
  | not (d : Desc)
  /-- `OSHL` (R225); reads A a, B n; writes R0. -/
  | oshl (d : Desc)
  /-- `OSHR` (R226); reads A a, B n; writes R0. -/
  | oshr (d : Desc)
  /-- `OSHRU` (R227); reads A a, B n; writes R0. -/
  | oshru (d : Desc)
  -- Pattern engine, format Z (spec/46_pattern_engine.md)
  /-- `PBNEW` (R233); reads none; writes none. -/
  | pbnew
  /-- `PBFIX` (R234); reads A bit; writes R0 part count. -/
  | pbfix
  /-- `PBVAR` (R235); reads A size, S_in name; writes R0 part count. -/
  | pbvar
  /-- `PBBUILD` (R236); reads A slot, S_in name; writes R0 mask, R1 cmp, R2 spec. -/
  | pbbuild
  /-- `PTMATCH` (R237); reads A slot, B candidate; writes R0. -/
  | ptmatch
  /-- `PTCAPT` (R238); reads A slot, B candidate; writes R0 count, RV. -/
  | ptcapt
  /-- `PTINFO` (R239); reads A slot; writes R0 mask, R1 cmp, R2 spec, R3 tw, RS, RV. -/
  | ptinfo
  /-- `PTCSPEC` (R240); reads A slot, B index; writes R0 left, R1 size, R2 capture mask, RS. -/
  | ptcspec
  /-- `PTCMP` (R241); reads A slot, B slot; writes R0. -/
  | ptcmp
  /-- `PGMAKE` (R242); reads A group slot, V list; writes R0 count, RV. -/
  | pgmake
  /-- `PGMATCH` (R243); reads A group slot, B candidate; writes R0 pattern slot, R1 position. -/
  | pgmatch
  /-- `PGINFO` (R244); reads A group slot; writes R0 count, RV. -/
  | pginfo
deriving DecidableEq, Repr, Inhabited

end Sys2Proof
end

