-- ==== Sys2Proof/WellFormed.lean ====
section
/-! DEFINITION. Which instructions a command word can hold: the legality conditions of spec/30_encoding.md R89 on the
fields that R81 lets a format use. `wMax` is the parameter WMAX (spec/00_scope.md R5). -/

namespace Sys2Proof

/-- A legal descriptor: `1 <= W <= WMAX` (R9, R89 d), and `W` fits the 7 bits of its field (R81). -/
def Desc.wf (wMax : Nat) (d : Desc) : Bool := decide (1 ≤ d.width ∧ d.width ≤ wMax ∧ d.width < 2 ^ 7)

/-- The CSR numbers `CSRR` may name: `DBGCTL` and `PBSTAT` (R90). -/
def csrReadable (imm : BitVec 12) : Bool := imm == 0x000#12 || imm == 0x001#12

/-- The CSR number `CSRW` may name: `DBGCTL` only (R90). -/
def csrWritable (imm : BitVec 12) : Bool := imm == 0x000#12

/-- The legality of an instruction's fields (R89 c to g). -/
def Instr.wf (wMax : Nat) : Instr → Bool
  | .csrr imm => csrReadable imm
  | .csrw imm => csrWritable imm
  | .getbit => true
  | .setbit => true
  | .clrbit => true
  | .togbit => true
  | .togbitx => true
  | .isset => true
  | .isclr => true
  | .msb => true
  | .cntset => true
  | .bitchunk => true
  | .bitrange => true
  | .replrange => true
  | .rotl => true
  | .rotr => true
  | .sext => true
  | .shrl => true
  | .shra => true
  | .rotrsh => true
  | .parseb => true
  | .renderb => true
  | .lhilo => true
  | .lgetbit => true
  | .lsetbit => true
  | .lclrbit => true
  | .lchunk => true
  | .fit _ d => d.wf wMax
  | .add _ d => d.wf wMax
  | .sub _ d => d.wf wMax
  | .mul _ d => d.wf wMax
  | .pow _ d => d.wf wMax
  | .neg _ w => Desc.wf wMax ⟨w, true⟩
  | .npow2 _ d => d.wf wMax
  | .nmult _ d => d.wf wMax
  | .shl _ d => d.wf wMax
  | .bits d => d.wf wMax
  | .nthbit d _ => d.wf wMax
  | .setnth d _ => d.wf wMax
  | .tognth d _ => d.wf wMax
  | .cnt1 d => d.wf wMax
  | .cnt0 d => d.wf wMax
  | .clo d => d.wf wMax
  | .clz d => d.wf wMax
  | .cto d => d.wf wMax
  | .ctz d => d.wf wMax
  | .dchunk d _ => d.wf wMax
  | .dslice d _ => d.wf wMax
  | .drepl d _ => d.wf wMax
  | .drotl d => d.wf wMax
  | .drotr d => d.wf wMax
  | .dsext d => d.wf wMax
  | .hilo d => d.wf wMax && d.width % 2 == 0
  | .fromhilo d => d.wf wMax && d.width % 2 == 0
  | .sqrt d => d.wf wMax
  | .log d => d.wf wMax
  | .log2 d => d.wf wMax
  | .log10 d => d.wf wMax
  | .midpt d => d.wf wMax
  | .clamp d => d.wf wMax
  | .rem d => d.wf wMax
  | .mod d => d.wf wMax
  | .cmplt d => d.wf wMax
  | .cmple d => d.wf wMax
  | .cmpgt d => d.wf wMax
  | .cmpge d => d.wf wMax
  | .and d => d.wf wMax
  | .or d => d.wf wMax
  | .xor d => d.wf wMax
  | .not d => d.wf wMax
  | .oshl d => d.wf wMax
  | .oshr d => d.wf wMax
  | .oshru d => d.wf wMax
  | .pbnew => true
  | .pbfix => true
  | .pbvar => true
  | .pbbuild => true
  | .ptmatch => true
  | .ptcapt => true
  | .ptinfo => true
  | .ptcspec => true
  | .ptcmp => true
  | .pgmake => true
  | .pgmatch => true
  | .pginfo => true

end Sys2Proof
end

