-- ==== Sys2Proof/Decode.lean ====
section
/-! DEFINITION. Decoding and encoding of command words (spec/30_encoding.md R81 to R91): the fields of a word, the opcode
map, the decoder (total: a word is an instruction or is refused under the name of the clause of R89 it breaks), and the
encoder. -/

namespace Sys2Proof

/-- The fields of a command word (R81). -/
structure Fields where
  /-- `OPC`, bits 31:24. -/
  opc : BitVec 8
  /-- `POL`, bits 23:21. -/
  pol : BitVec 3
  /-- `S`, bit 20. -/
  s : Bool
  /-- `U`, bit 19. -/
  u : Bool
  /-- `W`, bits 18:12. -/
  w : BitVec 7
  /-- `IMM`, bits 11:0. -/
  imm : BitVec 12
deriving DecidableEq, Repr

/-- Cutting a word into its fields (R81). -/
def Fields.ofWord (x : CommandWord) : Fields where
  opc := x.extractLsb' 24 8
  pol := x.extractLsb' 21 3
  s := x.getLsbD 20
  u := x.getLsbD 19
  w := x.extractLsb' 12 7
  imm := x.extractLsb' 0 12

/-- Laying the fields out in a word (R81). -/
def Fields.toWord (f : Fields) : CommandWord :=
  f.opc ++ f.pol ++ BitVec.ofBool f.s ++ BitVec.ofBool f.u ++ f.w ++ f.imm

/-- Why a word is illegal, one name per clause of R89. Every one of them is the fault `ILLEGAL`. -/
inductive DecodeError where
  /-- (a) `OPC` is not in the opcode map. -/
  | unknownOpcode
  /-- (b) a field the format does not use is not zero. -/
  | unusedField
  /-- (c) format P with `POL >= 5`. -/
  | reservedPolicy
  /-- (d) `W = 0` or `W > WMAX`. -/
  | badWidth
  /-- (e) `NEG` with `S = 0`. -/
  | unsignedNegate
  /-- (f) a CSR number that R90 does not allow. -/
  | badCsr
  /-- (g) `HILO` or `FROMHILO` with odd `W`. -/
  | oddWidth
deriving DecidableEq, Repr

/-- The policy a `POL` field names; 5, 6 and 7 are reserved (R82). -/
def Policy.ofBits (p : BitVec 3) : Option Policy :=
  if p = 0#3 then some .checked
  else if p = 1#3 then some .unchecked
  else if p = 2#3 then some .attempt
  else if p = 3#3 then some .wrapped
  else if p = 4#3 then some .clamped
  else none

/-- The `POL` field of a policy (R82). -/
def Policy.bits : Policy → BitVec 3
  | .checked => 0#3
  | .unchecked => 1#3
  | .attempt => 2#3
  | .wrapped => 3#3
  | .clamped => 4#3

/-- A row of the opcode map: its format (R83), with what the format's fields make of it. -/
inductive Row where
  /-- Format Z: no field. -/
  | z (i : Instr)
  /-- Format P: `POL`, `S`, `W`. -/
  | p (mk : Policy → Desc → Instr)
  /-- Format P with `S = 1` fixed (`NEG`). -/
  | pSigned (mk : Policy → Nat → Instr)
  /-- Format D: `S`, `W`. -/
  | d (mk : Desc → Instr)
  /-- Format D with `W` even (`HILO`, `FROMHILO`). -/
  | dEven (mk : Desc → Instr)
  /-- Format E: `S`, `U`, `W`. -/
  | e (mk : Desc → Bool → Instr)
  /-- Format C: `IMM`, with the CSR numbers the row allows. -/
  | c (mk : BitVec 12 → Instr) (legal : BitVec 12 → Bool)

/-- The descriptor of formats P, D and E, if `W` is legal for `WMAX` (R89 d). -/
def Fields.desc (wMax : Nat) (f : Fields) : Except DecodeError Desc :=
  let d : Desc := ⟨f.w.toNat, f.s⟩
  if d.wf wMax then .ok d else .error .badWidth

/-- Step (2) of R87: the fields a format does not use are zero and those it uses are legal (R89 b to g). -/
def Row.build (wMax : Nat) (f : Fields) : Row → Except DecodeError Instr
  | .z i =>
    if f.pol = 0#3 ∧ f.s = false ∧ f.u = false ∧ f.w = 0#7 ∧ f.imm = 0#12 then .ok i
    else .error .unusedField
  | .p mk =>
    if f.u = false ∧ f.imm = 0#12 then
      match Policy.ofBits f.pol, f.desc wMax with
      | some pol, .ok ds => .ok (mk pol ds)
      | none, _ => .error .reservedPolicy
      | some _, .error err => .error err
    else .error .unusedField
  | .pSigned mk =>
    if f.u = false ∧ f.imm = 0#12 then
      match Policy.ofBits f.pol, f.desc wMax with
      | some pol, .ok ds => if ds.signed then .ok (mk pol ds.width) else .error .unsignedNegate
      | none, _ => .error .reservedPolicy
      | some _, .error err => .error err
    else .error .unusedField
  | .d mk =>
    if f.pol = 0#3 ∧ f.u = false ∧ f.imm = 0#12 then
      match f.desc wMax with
      | .ok ds => .ok (mk ds)
      | .error err => .error err
    else .error .unusedField
  | .dEven mk =>
    if f.pol = 0#3 ∧ f.u = false ∧ f.imm = 0#12 then
      match f.desc wMax with
      | .ok ds => if ds.width % 2 = 0 then .ok (mk ds) else .error .oddWidth
      | .error err => .error err
    else .error .unusedField
  | .e mk =>
    if f.pol = 0#3 ∧ f.imm = 0#12 then
      match f.desc wMax with
      | .ok ds => .ok (mk ds f.u)
      | .error err => .error err
    else .error .unusedField
  | .c mk legal =>
    if f.pol = 0#3 ∧ f.s = false ∧ f.u = false ∧ f.w = 0#7 then
      if legal f.imm then .ok (mk f.imm) else .error .badCsr
    else .error .unusedField

/-- The rows of the opcode map (R88) that spec/47_system.md defines. -/
def opcodeRows.system : List (BitVec 8 × Row) := [
  (0x01#8, .c .csrr csrReadable),
  (0x02#8, .c .csrw csrWritable)]

/-- The rows of the opcode map (R88) that spec/40_raw_bitops.md defines. -/
def opcodeRows.rawBits : List (BitVec 8 × Row) := [
  (0x10#8, .z .getbit),
  (0x11#8, .z .setbit),
  (0x12#8, .z .clrbit),
  (0x13#8, .z .togbit),
  (0x14#8, .z .togbitx),
  (0x15#8, .z .isset),
  (0x16#8, .z .isclr),
  (0x17#8, .z .msb),
  (0x18#8, .z .cntset),
  (0x19#8, .z .bitchunk),
  (0x1A#8, .z .bitrange),
  (0x1B#8, .z .replrange),
  (0x1C#8, .z .rotl),
  (0x1D#8, .z .rotr),
  (0x1E#8, .z .sext),
  (0x1F#8, .z .shrl),
  (0x20#8, .z .shra),
  (0x21#8, .z .rotrsh),
  (0x22#8, .z .parseb),
  (0x23#8, .z .renderb)]

/-- The rows of the opcode map (R88) that spec/41_long_helper.md defines. -/
def opcodeRows.longHelper : List (BitVec 8 × Row) := [
  (0x28#8, .z .lhilo),
  (0x29#8, .z .lgetbit),
  (0x2A#8, .z .lsetbit),
  (0x2B#8, .z .lclrbit),
  (0x2C#8, .z .lchunk)]

/-- The rows of the opcode map (R88) that spec/42_policy_arith.md defines. -/
def opcodeRows.policyArith : List (BitVec 8 × Row) := [
  (0x30#8, .p .fit),
  (0x31#8, .p .add),
  (0x32#8, .p .sub),
  (0x33#8, .p .mul),
  (0x34#8, .p .pow),
  (0x35#8, .pSigned .neg),
  (0x36#8, .p .npow2),
  (0x37#8, .p .nmult),
  (0x38#8, .p .shl)]

/-- The rows of the opcode map (R88) that spec/43_descriptor_bitops.md defines. -/
def opcodeRows.descBits : List (BitVec 8 × Row) := [
  (0x40#8, .d .bits),
  (0x41#8, .e .nthbit),
  (0x42#8, .e .setnth),
  (0x43#8, .e .tognth),
  (0x44#8, .d .cnt1),
  (0x45#8, .d .cnt0),
  (0x46#8, .d .clo),
  (0x47#8, .d .clz),
  (0x48#8, .d .cto),
  (0x49#8, .d .ctz),
  (0x4A#8, .e .dchunk),
  (0x4B#8, .e .dslice),
  (0x4C#8, .e .drepl),
  (0x4D#8, .d .drotl),
  (0x4E#8, .d .drotr),
  (0x4F#8, .d .dsext),
  (0x50#8, .dEven .hilo),
  (0x51#8, .dEven .fromhilo)]

/-- The rows of the opcode map (R88) that spec/44_descriptor_math.md defines. -/
def opcodeRows.descMath : List (BitVec 8 × Row) := [
  (0x52#8, .d .sqrt),
  (0x53#8, .d .log),
  (0x54#8, .d .log2),
  (0x55#8, .d .log10),
  (0x56#8, .d .midpt),
  (0x57#8, .d .clamp),
  (0x58#8, .d .rem),
  (0x59#8, .d .mod),
  (0x60#8, .d .cmplt),
  (0x61#8, .d .cmple),
  (0x62#8, .d .cmpgt),
  (0x63#8, .d .cmpge)]

/-- The rows of the opcode map (R88) that spec/45_bitwise_ops.md defines. -/
def opcodeRows.bitwise : List (BitVec 8 × Row) := [
  (0x64#8, .d .and),
  (0x65#8, .d .or),
  (0x66#8, .d .xor),
  (0x67#8, .d .not),
  (0x68#8, .d .oshl),
  (0x69#8, .d .oshr),
  (0x6A#8, .d .oshru)]

/-- The rows of the opcode map (R88) that spec/46_pattern_engine.md defines. -/
def opcodeRows.patternEngine : List (BitVec 8 × Row) := [
  (0x70#8, .z .pbnew),
  (0x71#8, .z .pbfix),
  (0x72#8, .z .pbvar),
  (0x73#8, .z .pbbuild),
  (0x74#8, .z .ptmatch),
  (0x75#8, .z .ptcapt),
  (0x76#8, .z .ptinfo),
  (0x77#8, .z .ptcspec),
  (0x78#8, .z .ptcmp),
  (0x79#8, .z .pgmake),
  (0x7A#8, .z .pgmatch),
  (0x7B#8, .z .pginfo)]

/-- The opcode map (R88). -/
def opcodeMap : List (BitVec 8 × Row) :=
  opcodeRows.system ++ opcodeRows.rawBits ++ opcodeRows.longHelper ++ opcodeRows.policyArith ++
  opcodeRows.descBits ++ opcodeRows.descMath ++ opcodeRows.bitwise ++ opcodeRows.patternEngine

/-- Decoding a command word (R87) under the parameter `WMAX`: look `OPC` up, then check the fields. Total: every word
selects exactly one row's instruction or is illegal under a named clause of R89. -/
def decode (wMax : Nat) (x : CommandWord) : Except DecodeError Instr :=
  let f := Fields.ofWord x
  match opcodeMap.lookup f.opc with
  | none => .error .unknownOpcode
  | some row => row.build wMax f

/-- The command word the host's opcode-table numbering stands for: `nbits` bits `w`, all bits above zero. None where
the bits do not fit the one command word there is (R91). -/
def tableWord (nbits w : Nat) : Option CommandWord :=
  if w % 2 ^ nbits < 2 ^ 32 then some (BitVec.ofNat 32 (w % 2 ^ nbits)) else none

/-- The instruction the decoder reads from a row's bits, numbered as spec/opcode_table.json numbers them, with `WMAX`
at the value this hardware takes. -/
def decodeTableWord (nbits w : Nat) : Option Instr :=
  match tableWord nbits w with
  | none => none
  | some x =>
    match decode Config.wMax x with
    | .ok i => some i
    | .error _ => none

/-- A format Z word: the opcode alone (R83). -/
def Fields.ofZ (opc : BitVec 8) : Fields := ⟨opc, 0#3, false, false, 0#7, 0#12⟩

/-- A format P word (R83). -/
def Fields.ofP (opc : BitVec 8) (pol : Policy) (d : Desc) : Fields :=
  ⟨opc, pol.bits, d.signed, false, BitVec.ofNat 7 d.width, 0#12⟩

/-- A format D word (R83). -/
def Fields.ofD (opc : BitVec 8) (d : Desc) : Fields := ⟨opc, 0#3, d.signed, false, BitVec.ofNat 7 d.width, 0#12⟩

/-- A format E word (R83). -/
def Fields.ofE (opc : BitVec 8) (d : Desc) (unchecked : Bool) : Fields :=
  ⟨opc, 0#3, d.signed, unchecked, BitVec.ofNat 7 d.width, 0#12⟩

/-- A format C word (R83). -/
def Fields.ofC (opc : BitVec 8) (imm : BitVec 12) : Fields := ⟨opc, 0#3, false, false, 0#7, imm⟩

/-- The fields of an instruction's word, written from the opcode map (R88). -/
def Instr.fields : Instr → Fields
  | .csrr imm => .ofC 0x01#8 imm
  | .csrw imm => .ofC 0x02#8 imm
  | .getbit => .ofZ 0x10#8
  | .setbit => .ofZ 0x11#8
  | .clrbit => .ofZ 0x12#8
  | .togbit => .ofZ 0x13#8
  | .togbitx => .ofZ 0x14#8
  | .isset => .ofZ 0x15#8
  | .isclr => .ofZ 0x16#8
  | .msb => .ofZ 0x17#8
  | .cntset => .ofZ 0x18#8
  | .bitchunk => .ofZ 0x19#8
  | .bitrange => .ofZ 0x1A#8
  | .replrange => .ofZ 0x1B#8
  | .rotl => .ofZ 0x1C#8
  | .rotr => .ofZ 0x1D#8
  | .sext => .ofZ 0x1E#8
  | .shrl => .ofZ 0x1F#8
  | .shra => .ofZ 0x20#8
  | .rotrsh => .ofZ 0x21#8
  | .parseb => .ofZ 0x22#8
  | .renderb => .ofZ 0x23#8
  | .lhilo => .ofZ 0x28#8
  | .lgetbit => .ofZ 0x29#8
  | .lsetbit => .ofZ 0x2A#8
  | .lclrbit => .ofZ 0x2B#8
  | .lchunk => .ofZ 0x2C#8
  | .fit pol d => .ofP 0x30#8 pol d
  | .add pol d => .ofP 0x31#8 pol d
  | .sub pol d => .ofP 0x32#8 pol d
  | .mul pol d => .ofP 0x33#8 pol d
  | .pow pol d => .ofP 0x34#8 pol d
  | .neg pol w => .ofP 0x35#8 pol ⟨w, true⟩
  | .npow2 pol d => .ofP 0x36#8 pol d
  | .nmult pol d => .ofP 0x37#8 pol d
  | .shl pol d => .ofP 0x38#8 pol d
  | .bits d => .ofD 0x40#8 d
  | .nthbit d unchecked => .ofE 0x41#8 d unchecked
  | .setnth d unchecked => .ofE 0x42#8 d unchecked
  | .tognth d unchecked => .ofE 0x43#8 d unchecked
  | .cnt1 d => .ofD 0x44#8 d
  | .cnt0 d => .ofD 0x45#8 d
  | .clo d => .ofD 0x46#8 d
  | .clz d => .ofD 0x47#8 d
  | .cto d => .ofD 0x48#8 d
  | .ctz d => .ofD 0x49#8 d
  | .dchunk d unchecked => .ofE 0x4A#8 d unchecked
  | .dslice d unchecked => .ofE 0x4B#8 d unchecked
  | .drepl d unchecked => .ofE 0x4C#8 d unchecked
  | .drotl d => .ofD 0x4D#8 d
  | .drotr d => .ofD 0x4E#8 d
  | .dsext d => .ofD 0x4F#8 d
  | .hilo d => .ofD 0x50#8 d
  | .fromhilo d => .ofD 0x51#8 d
  | .sqrt d => .ofD 0x52#8 d
  | .log d => .ofD 0x53#8 d
  | .log2 d => .ofD 0x54#8 d
  | .log10 d => .ofD 0x55#8 d
  | .midpt d => .ofD 0x56#8 d
  | .clamp d => .ofD 0x57#8 d
  | .rem d => .ofD 0x58#8 d
  | .mod d => .ofD 0x59#8 d
  | .cmplt d => .ofD 0x60#8 d
  | .cmple d => .ofD 0x61#8 d
  | .cmpgt d => .ofD 0x62#8 d
  | .cmpge d => .ofD 0x63#8 d
  | .and d => .ofD 0x64#8 d
  | .or d => .ofD 0x65#8 d
  | .xor d => .ofD 0x66#8 d
  | .not d => .ofD 0x67#8 d
  | .oshl d => .ofD 0x68#8 d
  | .oshr d => .ofD 0x69#8 d
  | .oshru d => .ofD 0x6A#8 d
  | .pbnew => .ofZ 0x70#8
  | .pbfix => .ofZ 0x71#8
  | .pbvar => .ofZ 0x72#8
  | .pbbuild => .ofZ 0x73#8
  | .ptmatch => .ofZ 0x74#8
  | .ptcapt => .ofZ 0x75#8
  | .ptinfo => .ofZ 0x76#8
  | .ptcspec => .ofZ 0x77#8
  | .ptcmp => .ofZ 0x78#8
  | .pgmake => .ofZ 0x79#8
  | .pgmatch => .ofZ 0x7A#8
  | .pginfo => .ofZ 0x7B#8

/-- The command word of a well-formed instruction (R81, R88). -/
def encode (i : Instr) : CommandWord := i.fields.toWord

end Sys2Proof
end

