-- ==== Sys2Proof/Machine/Numbers.lean ====
section
/-! DEFINITION. The arithmetic of the pseudocode, on mathematical integers (spec/00_scope.md R6, R7, R8, R12). Lean's
`/` and `%` on `Int` with a positive divisor are the floor division `div` and the remainder `mod` of R7. -/

namespace Sys2Proof.Machine

/-- `low(v, n) = v mod 2^n` (R7). -/
def low (v : Int) (n : Nat) : Int := v % 2 ^ n

/-- `bit(v, n) = (v div 2^n) mod 2` (R7). -/
def bit (v : Int) (n : Nat) : Int := v / 2 ^ n % 2

/-- `sext_n(u)` for `0 <= u < 2^n`, `n >= 1` (R7). -/
def sext (n : Nat) (u : Int) : Int := if 2 ^ (n - 1) ≤ u then u - 2 ^ n else u

/-- `popcount(u)` of a number `u` of at most `n` bits (R7). -/
def popcount : Nat → Int → Int
  | 0, _ => 0
  | n + 1, u => popcount n u + bit u n

/-- `floor(v / 2^n)`, written as the arithmetic shift so that it can be evaluated for every count `n` of a port
(`Laws.floorShift_eq_div`: it is `v div 2^n` of R7). -/
def floorShift (v : Int) (n : Nat) : Int := v >>> n

/-- A number of `RAW = [-2^(n-1), 2^(n-1)-1]`, `n` being `RAWBITS` (R8). -/
abbrev IsRaw (n : Nat) (x : Int) : Prop := -2 ^ (n - 1) ≤ x ∧ x < 2 ^ (n - 1)

/-- `u(v)`: the word of `RAWBITS = n` bits read as unsigned (R8). -/
def uword (n : Nat) (x : Int) : Int := low x n

/-- `raw(x)`: any integer brought back to a raw value, `n` being `RAWBITS` (R8). -/
def raw (n : Nat) (x : Int) : Int := sext n (low x n)

/-- `chunk(v, left, size)` for `size >= 1` and `left - size + 1 >= 0` (R12). -/
def chunk (v : Int) (left size : Nat) : Int := v / 2 ^ (left + 1 - size) % 2 ^ size

/-- `rotl_w(p, n)` (R12). -/
def rotl (w : Nat) (p : Int) (n : Nat) : Int :=
  let k := n % w
  p * 2 ^ k % 2 ^ w + p / 2 ^ (w - k)

/-- `rotr_w(p, n)` (R12). -/
def rotr (w : Nat) (p : Int) (n : Nat) : Int :=
  let k := n % w
  p / 2 ^ k + p % 2 ^ k * 2 ^ (w - k)

/-- The number with bit `n` forced to 1 (R111). -/
def setBitAt (v : Int) (n : Nat) : Int := v + (1 - bit v n) * 2 ^ n

/-- The number with bit `n` forced to 0 (R112). -/
def clrBitAt (v : Int) (n : Nat) : Int := v - bit v n * 2 ^ n

/-- The number with bit `n` inverted (R113). -/
def togBitAt (v : Int) (n : Nat) : Int := if bit v n = 1 then v - 2 ^ n else v + 2 ^ n

/-- Bits `left .. right` of `v` overwritten by the low `left - right + 1` bits of `x` (R121, R182). -/
def replaceBits (v : Int) (left right : Nat) (x : Int) : Int :=
  let n := left + 1 - right
  v - chunk v left n * 2 ^ right + low x n * 2 ^ right

/-- How many bits `w-1, w-2, ...` of `p` in a row equal `b` (R176, R177). -/
def leadingRun (b : Int) : Nat → Int → Int
  | 0, _ => 0
  | w + 1, p => if bit p w = b then 1 + leadingRun b w p else 0

/-- How many bits `0, 1, ...` of `p` in a row equal `b`, counting at most `w` (R178, R179). -/
def trailingRun (b : Int) : Nat → Int → Int
  | 0, _ => 0
  | w + 1, p => if bit p 0 = b then 1 + trailingRun b w (p / 2) else 0

/-- The root found bit by bit: `r` is extended by each of the bits `i-1 .. 0` that keeps its square at most `a`. -/
def sqrtFrom (a : Int) : Nat → Int → Int
  | 0, r => r
  | i + 1, r => sqrtFrom a i (if (r + 2 ^ i) * (r + 2 ^ i) ≤ a then r + 2 ^ i else r)

/-- The largest `r >= 0` with `r * r <= a`, for `0 <= a < 2^w` (R200; `Laws.sqrtFloor_spec`). -/
def sqrtFloor (w : Nat) (a : Int) : Int := sqrtFrom a w 0

/-- How often `a` can be divided by `base` before it falls below `base`, at most `fuel` times. -/
def logFrom (base : Int) : Nat → Int → Int
  | 0, _ => 0
  | fuel + 1, a => if a < base then 0 else 1 + logFrom base fuel (a / base)

/-- The largest `k >= 0` with `base^k <= a`, for `1 <= a < 2^w` and `base >= 2` (R201; `Laws.logFloor_spec`). -/
def logFloor (w : Nat) (base a : Int) : Int := logFrom base w a

/-- The first power `2^k, 2^(k+1), ...` that is at least `a`, trying `fuel` of them. -/
def powerFrom (a : Int) : Nat → Nat → Int
  | 0, k => 2 ^ k
  | fuel + 1, k => if a ≤ 2 ^ k then 2 ^ k else powerFrom a fuel (k + 1)

/-- The least `2^k`, `k >= 0`, with `2^k >= a`, for `a <= 2^w` (R158; `Laws.nextPowerOf2_spec`). -/
def nextPowerOf2 (w : Nat) (a : Int) : Int := powerFrom a w 0

/-- The least multiple of `m` that is at least `a`, for positive `a` and `m` (R159). -/
def nextMultipleOf (a m : Int) : Int := (a + m - 1) / m * m

/-- What a policy on `w` bits can see of an exact result (R150): `e` itself when `|e| < 2^w`, and otherwise a number of
the same sign, the same residue modulo `2^w` and a magnitude of at least `2^w`. Every policy of a descriptor of that
width answers the same for both (`Laws.applyPolicy_fold`). -/
def fold (w : Nat) (e : Int) : Int :=
  if -2 ^ w < e ∧ e < 2 ^ w then e
  else if 0 < e then 2 ^ w + e % 2 ^ w
  else e % 2 ^ w - 2 ^ (w + 1)

/-- `a^n` as far as `fold w` sees it, for `n < 2^fuel`, by squaring, so that it can be evaluated for every exponent of a
port (`Laws.fold_powFrom`). -/
def powFrom (w : Nat) : Nat → Int → Nat → Int
  | 0, _, _ => 1
  | fuel + 1, a, n =>
    let h := powFrom w fuel (fold w (a * a)) (n / 2)
    if n % 2 = 1 then fold w (a * h) else h

/-- What a policy on `w` bits can see of `a^n` (R156; `Laws.applyPolicy_powFold`). -/
def powFold (w : Nat) (a : Int) (n : Nat) : Int := powFrom w (n.log2 + 1) a n

/-- What a policy on `w` bits can see of `a * 2^n` (R160): the count is cut at `w`, past which the products are told
apart no more (`Laws.applyPolicy_timesPow2`). -/
def timesPow2 (w : Nat) (a : Int) (n : Nat) : Int := a * 2 ^ min n w

/-! ## Binary strings (spec/40_raw_bitops.md R128, R129) -/

/-- The character '0', the byte 0x30 (R128). -/
def charZero : Char8 := 0x30#8

/-- The character '1', the byte 0x31 (R128). -/
def charOne : Char8 := 0x31#8

/-- The loop of `PARSEB` from the value `v`: none at the first character that is neither '0' nor '1' (R128). -/
def parseFrom (v : Int) : Str → Option Int
  | [] => some v
  | c :: cs =>
    if c = charZero then parseFrom (2 * v) cs
    else if c = charOne then parseFrom (2 * v + 1) cs
    else none

/-- The digits of bits `n-1 .. 0` of `a`, most significant first. -/
def digits (a : Int) : Nat → Str
  | 0 => []
  | n + 1 => (if bit a n = 1 then charOne else charZero) :: digits a n

/-- The number of binary digits of `a >= 0`, at least one (`Laws.digitCount_eq`). -/
def digitCount (a : Int) : Nat := a.toNat.log2 + 1

/-- The shortest digit list whose `PARSEB` value is `a >= 0` (R129). -/
def render (a : Int) : Str := digits a (digitCount a)

/-- '0' put in front until the list has `n` characters; a longer list is left as it is (R129). -/
def padZeros (n : Nat) (d : Str) : Str := List.replicate (n - d.length) charZero ++ d

end Sys2Proof.Machine
end

