-- ==== Sys2Proof/Machine/State.lean ====
section
/-! DEFINITION. The state of FWAU/BPD (spec/10_state.md), the ports of its command interface (spec/30_encoding.md R84,
R85), the answers a command can give (spec/00_scope.md R13), the parameters of the hardware (R5) and the reset state
(R50, R290). Plain data throughout. -/

namespace Sys2Proof.Machine

/-! ## The response -/

/-- The fault kinds (spec/60_exceptions.md R270). A fault of this hardware is a value of the response's STATUS: the
unit goes on, so it is never a `Fault` of the model. -/
inductive Kind where
  /-- The word is not a legal command. -/
  | illegal
  /-- An index, position, width, count or slot number is outside its bounds. -/
  | range
  /-- A magnitude violation under the checked policy, or a failed precondition, with `ASSERT_EN = 1`. -/
  | assertion
  /-- A malformed binary string. -/
  | format
  /-- A structural violation of the builder or of a slot. -/
  | state
  /-- A structurally bad argument. -/
  | argument
  /-- A zero divisor. -/
  | divzero
deriving DecidableEq, Repr, Inhabited

/-- The STATUS of a response (R86); "every other code is never produced". -/
inductive Status where
  /-- The command completed and the result ports hold its result. -/
  | ok
  /-- The command completed and has no result. -/
  | novalue
  /-- The command raised a fault. -/
  | fault (k : Kind)
deriving DecidableEq, Repr, Inhabited

/-- The result ports R0 to R3, RS and RV (R85). A port a rule does not name is 0 or absent (R13). -/
structure Results where
  r0 : Int := 0
  r1 : Int := 0
  r2 : Int := 0
  r3 : Int := 0
  rs : Option Str := none
  rv : Option (List Int) := none
deriving DecidableEq, Repr, Inhabited

/-- A response: STATUS and the result ports (R85). -/
structure Response where
  status : Status
  results : Results
deriving DecidableEq, Repr, Inhabited

/-- How the pseudocode of a command rule ends (R13, R14). -/
inductive Answer where
  /-- `respond OK(...)`. -/
  | ok (r : Results)
  /-- `respond NOVALUE`. -/
  | novalue
  /-- `raise <KIND>`. -/
  | raise (k : Kind)
  /-- `UNSPECIFIED`: no constraint on the response, no change of state. -/
  | unspecified
deriving DecidableEq, Repr, Inhabited

/-! ## The parameters -/

/-- The parameter ROTRSH_FN: "a total function of the three operands and nothing else" (R127, U10). -/
inductive RotrshFn where
  /-- The default, `ROTR`. -/
  | rotr
  /-- What each listed triple of operands answers; every other triple answers as `ROTR` does. The operands of given
  ports are finitely many, so that every function of them is such a list. -/
  | listed (rows : List ((Int × Int × Int) × Answer))
deriving DecidableEq, Repr, Inhabited

/-- The parameter TIE_ORDER: the order of equally specific members of a group (R242, U9). -/
inductive TieOrder where
  /-- The default: they keep their order in the list that PGMAKE is given. -/
  | stable
  /-- The order each listed list of members is put in before the stable sort by specificity; every other list is left
  as it is given. Lists of members are finitely many, so that every rule that looks at the list is such a table. -/
  | listed (rows : List (List Nat × List Nat))
deriving DecidableEq, Repr, Inhabited

/-- The parameter MIDPT_ROUND: the roundings of `MIDPT` that spec/93_implementation_defined.md U11 names. -/
inductive MidptRound where
  /-- The default: toward minus infinity. -/
  | floor
  /-- Toward zero. -/
  | trunc
  /-- Toward the first operand: U11 writes it `a + (b - a) div 2`, which is that with `div` rounding toward zero and the
  floor again with the `div` of R7 (log entry 13). -/
  | towardFirst
deriving DecidableEq, Repr, Inhabited

/-- The implementation parameters: every row of R5's table whose kind is `parameter`, with its default. -/
structure Params where
  /-- `RAWBITS`. -/
  rawBits : Nat := Config.rawBits
  /-- `WMAX`. -/
  wMax : Nat := Config.wMax
  /-- `NPAT`. -/
  nPat : Nat := Config.nPat
  /-- `NGRP`. -/
  nGrp : Nat := Config.nGrp
  /-- `PBMAX`. -/
  pbMax : Nat := Config.pbMax
  /-- `GMAX`. -/
  gMax : Nat := Config.gMax
  /-- `SMAX`. -/
  sMax : Nat := Config.sMax
  /-- `ROTRSH_FN`. -/
  rotrshFn : RotrshFn := .rotr
  /-- `TIE_ORDER`. -/
  tieOrder : TieOrder := .stable
  /-- `MIDPT_ROUND`. -/
  midptRound : MidptRound := .floor
deriving DecidableEq, Repr, Inhabited

/-! ## The inputs -/

/-- The operand ports at the moment a command is presented (R84): raw values, integers of RAW (R8). -/
structure Ports where
  a : Int := 0
  b : Int := 0
  c : Int := 0
  d : Int := 0
  /-- `S_in`: absent, or present with its characters. -/
  sIn : Option Str := none
  /-- `V`: absent, or present with its items. -/
  v : Option (List Int) := none
deriving DecidableEq, Repr, Inhabited

/-- A command: its word and the values on the operand ports (R80). -/
structure Command where
  word : CommandWord
  ports : Ports
deriving DecidableEq, Repr, Inhabited

/-- What can reach the unit: a command or reset, "the one input of the unit besides commands" (R290). -/
inductive Input where
  | command (c : Command)
  | reset
deriving DecidableEq, Repr, Inhabited

/-! ## The pattern engine -/

/-- `PB.phase` (R40). -/
inductive Phase where
  | building
  | built
deriving DecidableEq, Repr, Inhabited

/-- A name: absent, or a string (R47). -/
abbrev PartName := Option Str

/-- A BitPart record (R41). -/
inductive BitPart where
  /-- `Fixed(b)`, width 1. -/
  | fixed (b : Bool)
  /-- `Var(size, name)`, width `size`. -/
  | var (size : Nat) (name : PartName)
deriving DecidableEq, Repr, Inhabited

/-- A capture spec `(name, left, size)`: `left` is the position of the most significant bit (R43). -/
structure Capture where
  name : PartName
  left : Nat
  size : Nat
deriving DecidableEq, Repr, Inhabited

/-- A BitPattern record (R43). Its `spec` is derived, not stored (Machine/PatternEngine.lean). -/
structure Pattern where
  mask : PatWord
  cmp : PatWord
  tw : Nat
  caps : List Capture
  name : PartName
deriving DecidableEq, Repr, Inhabited

/-- A group record (R45): the numbers of its pattern slots. -/
structure GroupRecord where
  members : List Nat
deriving DecidableEq, Repr, Inhabited

/-- A table of slots, each invalid or holding a record (R43, R45): the valid slots with their records, by rising slot
number. A slot that is not listed is invalid. -/
abbrev Table (α : Type) := List (Nat × α)

/-! ## The state -/

/-- The whole machine: the parameters of the hardware, which no step changes (R5, R49; log entry 10), the unit's own
state (R50), its command interface (R84, R85) and the model's counter of free values. -/
structure State where
  /-- The implementation parameters (R5). -/
  params : Params
  /-- `DBGCTL.ASSERT_EN` (R35); DBGCTL's other bits are hardwired zero and have no storage. -/
  assertEn : Bool
  /-- `PB.phase` (R40). -/
  phase : Phase
  /-- `PB.parts`, first declared first (R40). -/
  parts : List BitPart
  /-- The pattern table `PT`, slots `0` to `NPAT-1` (R43). -/
  pt : Table Pattern
  /-- The group table `GT`, slots `0` to `NGRP-1` (R45). -/
  gt : Table GroupRecord
  /-- The operand ports (R84). -/
  ports : Ports
  /-- What the host has lined up and not yet presented, oldest first (R66; log entries 1 and 2). -/
  pending : List Input
  /-- The response ports; `none` before the first response after reset (R85). -/
  response : Option Response
  /-- The MODEL's own field: how many free responses have been drawn (log entry 4). -/
  freeCount : Nat
deriving DecidableEq, Repr

/-- The state after reset of the hardware with these parameters (R50, R290): assertions enabled, a fresh builder, every
slot invalid; the interface fields as log entries 2, 4 and 6 say. -/
def State.atReset (p : Params) : State where
  params := p
  assertEn := true
  phase := .building
  parts := []
  pt := []
  gt := []
  ports := {}
  pending := []
  response := none
  freeCount := 0

/-- The state after reset of this hardware: every parameter at the value R5 says it takes. -/
def State.reset : State := State.atReset {}

/-! ## Stops -/

/-- Why the model stops. The hardware never does: "no input stops the unit" (spec/93_implementation_defined.md). -/
inductive Fault where
  /-- Raised by `step` alone, when the next lined-up command carries a number outside RAW (R8), on S_in more than SMAX
  characters or on V more than GMAX + 1 items, which no port can hold (R84), so that no host can present it. Safe: it
  stops only where the hardware has no behaviour (log entry 9). -/
  | unpresentable
deriving DecidableEq, Repr

/-- Why an instruction has no meaning. -/
inductive Refusal where
  /-- Raised by `exec` alone, for an instruction that has no meaning yet. Safe: nothing can be proved of it. No arm of
  this model answers it. -/
  | notModelled (mnemonic : String)
deriving DecidableEq, Repr

/-- What a step or a meaning answers. -/
abbrev Result := Host.Outcome State Fault Refusal

end Sys2Proof.Machine
end

