-- ==== Sys2Proof/Machine/Operands.lean ====
section
/-! DEFINITION. Operands: reading the ports (spec/30_encoding.md R84), the tests a command makes on a position, a width,
a range or a long pair, and the descriptor `(W, S)` with its bounds, patterns and values (spec/00_scope.md R9 to R11,
R15). -/

namespace Sys2Proof.Machine

/-! ## Ports -/

/-- Port A as a signed number (R8, R84). -/
def State.A (s : State) : Int := s.ports.a

/-- Port B as a signed number (R8, R84). -/
def State.B (s : State) : Int := s.ports.b

/-- Port C as a signed number (R8, R84). -/
def State.C (s : State) : Int := s.ports.c

/-- Port D as a signed number (R8, R84). -/
def State.D (s : State) : Int := s.ports.d

/-- The word `u(A)` (R8). -/
def State.uA (s : State) : Int := uword s.params.rawBits s.ports.a

/-- The word `u(B)` (R8). -/
def State.uB (s : State) : Int := uword s.params.rawBits s.ports.b

/-- The word `u(D)` (R8). -/
def State.uD (s : State) : Int := uword s.params.rawBits s.ports.d

/-! ## Tests on raw operands -/

/-- `0 <= n < bound`: a position inside a word, a value or a long pair (R109 b, R140, R189 c). -/
abbrev IsPosition (bound : Nat) (n : Int) : Prop := 0 ≤ n ∧ n < bound

/-- `1 <= width <= RAWBITS` (R109 c). -/
abbrev IsWidth (rawBits : Nat) (w : Int) : Prop := 1 ≤ w ∧ w ≤ rawBits

/-- The operands of a chunk: `0 <= left < bound`, `size > 0`, `left - size + 1 >= 0` (R119, R145, R180). -/
abbrev IsChunk (bound : Nat) (left size : Int) : Prop := IsPosition bound left ∧ 0 < size ∧ 0 ≤ left - size + 1

/-- The operands of an inclusive range: `0 <= left < bound`, `0 <= right <= left` (R120, R121, R181, R182). -/
abbrev IsRange (bound : Nat) (left right : Int) : Prop := IsPosition bound left ∧ 0 ≤ right ∧ right ≤ left

/-- `LONGBITS = RAWBITS - 1`, `derived` (R5, R140). -/
def Params.longBits (p : Params) : Nat := p.rawBits - 1

/-- A legal `(hi, lo)` pair: `0 <= lo < 2^32` and `0 <= hi < 2^(LONGBITS-32)` (R140). -/
abbrev IsLongPair (longBits : Nat) (hi lo : Int) : Prop := (0 ≤ lo ∧ lo < 2 ^ 32) ∧ 0 ≤ hi ∧ hi < 2 ^ (longBits - 32)

/-! ## Descriptors -/

/-- `min(W, S)` (R9). -/
def minOf (d : Desc) : Int := if d.signed then -2 ^ (d.width - 1) else 0

/-- `max(W, S)` (R9). -/
def maxOf (d : Desc) : Int := if d.signed then 2 ^ (d.width - 1) - 1 else 2 ^ d.width - 1

/-- `inrange(W, S, v)`; of an operand: it is valid (R9, R15). -/
abbrev InRange (d : Desc) (v : Int) : Prop := minOf d ≤ v ∧ v ≤ maxOf d

/-- `wrap(W, S, e)` (R10). -/
def wrap (d : Desc) (e : Int) : Int := if d.signed then sext d.width (low e d.width) else low e d.width

/-- `clampv(W, S, e)` (R10). -/
def clampv (d : Desc) (e : Int) : Int := min (max e (minOf d)) (maxOf d)

/-- `pat(W, a)`: the `W`-bit pattern of a value (R11). -/
def pat (d : Desc) (a : Int) : Int := low a d.width

/-- `val(W, S, p)`: the value of a `W`-bit pattern (R11). -/
def patVal (d : Desc) (p : Int) : Int := wrap d p

/-- The word with the bits `startWidth .. endWidth-1` of `v` filled with bit `startWidth-1`, the bits below and above
unchanged (R124). -/
def signExtendBits (v : Int) (startWidth endWidth : Nat) : Int :=
  v / 2 ^ endWidth * 2 ^ endWidth
    + (if bit v (startWidth - 1) = 1 then 2 ^ (endWidth - startWidth) - 1 else 0) * 2 ^ startWidth
    + low v startWidth

end Sys2Proof.Machine
end

