-- ==== Sys2Proof/Machine/Flags.lean ====
section
/-! DEFINITION. FWAU/BPD has no flags (spec/10_state.md R32): what another machine reports in overflow and condition
flags is an outcome of the command itself. This file holds those outcomes: the policy function of
spec/42_policy_arith.md R150 and the failed precondition of spec/44_descriptor_math.md R212. -/

namespace Sys2Proof.Machine

/-- `respond OK(R0 = x)`. -/
def Answer.value (x : Int) : Answer := .ok { r0 := x }

/-- `respond OK(R0 = x, R1 = y)`. -/
def Answer.pair (x y : Int) : Answer := .ok { r0 := x, r1 := y }

/-- `respond OK(R0 = 1)` for true, `respond OK(R0 = 0)` for false (R115, R208). -/
def Answer.truth (p : Prop) [Decidable p] : Answer := .value (if p then 1 else 0)

/-- `apply(POL, W, S, e)` with `ASSERT_EN = en` (R150). -/
def applyPolicy (en : Bool) (pol : Policy) (d : Desc) (e : Int) : Answer :=
  if InRange d e then .value e
  else match pol with
    | .checked => if en then .raise .assertion else .value (wrap d e)
    | .unchecked => .unspecified
    | .attempt => .novalue
    | .wrapped => .value (wrap d e)
    | .clamped => .value (clampv d e)

/-- `precond_fail` with `ASSERT_EN = en` (R212 c). -/
def precondFail (en : Bool) : Answer := if en then .raise .assertion else .unspecified

end Sys2Proof.Machine
end

