-- ==== Sys2Proof/Machine/Ops.lean ====
section
/-! DEFINITION. The named operations over the state: answering a command (spec/30_encoding.md R85), raising a fault
(spec/60_exceptions.md R275), the free response of an UNSPECIFIED case (spec/00_scope.md R14), the control registers
(spec/10_state.md R35, R36), the builder and the two tables (R40 to R45, spec/20_memory.md R62). -/

namespace Sys2Proof.Machine

/-! ## Status codes -/

/-- The STATUS code of a fault kind (R86, R270). -/
def Kind.code : Kind → BitVec 8
  | .illegal => 0x10#8
  | .range => 0x11#8
  | .assertion => 0x12#8
  | .format => 0x13#8
  | .state => 0x14#8
  | .argument => 0x15#8
  | .divzero => 0x16#8

/-- The 8-bit STATUS port (R86). -/
def Status.code : Status → BitVec 8
  | .ok => 0x00#8
  | .novalue => 0x01#8
  | .fault k => k.code

/-! ## Answering -/

/-- The results as the ports carry them: every number a raw value (R8, R85). -/
def Results.onPorts (p : Params) (r : Results) : Results where
  r0 := raw p.rawBits r.r0
  r1 := raw p.rawBits r.r1
  r2 := raw p.rawBits r.r2
  r3 := raw p.rawBits r.r3
  rs := r.rs
  rv := r.rv.map fun xs => xs.map (raw p.rawBits)

/-- `respond OK(r)`: the response is written, nothing else (R13, R85). -/
def State.reply (s : State) (r : Results) : State := { s with response := some ⟨.ok, r.onPorts s.params⟩ }

/-- `respond NOVALUE`: every result port 0 or absent (R85, R86). -/
def State.noValue (s : State) : State := { s with response := some ⟨.novalue, {}⟩ }

/-- `raise k`: TAKING THE EXCEPTION. The command ends, no state of the unit is written, the response carries the kind
with every result port 0 or absent; nothing is saved, there is no handler and so nothing to return from (R275 to
R278). -/
def State.raise (s : State) (k : Kind) : State := { s with response := some ⟨.fault k, {}⟩ }

/-- The results cut down to what the ports can hold: RS at most SMAX characters, RV at most GMAX items, every number a
raw value (R84, R85). -/
def Results.fitPorts (p : Params) (r : Results) : Results :=
  Results.onPorts p { r with rs := r.rs.map (·.take p.sMax), rv := r.rv.map (·.take p.gMax) }

/-- The response of an UNSPECIFIED case: any status and any result values that the ports can hold (R14; log entry
20). -/
def State.freeResponse (s : State) : Response :=
  let r : Response := Config.freeValue s.freeCount s
  { r with results := r.results.fitPorts s.params }

/-- An UNSPECIFIED case: the response is free, the state of the unit is unchanged (R14, R275; log entry 3). -/
def State.unspecified (s : State) : State :=
  { s with response := some s.freeResponse, freeCount := s.freeCount + 1 }

/-- The state after a command that ends with an answer and writes nothing but the response. -/
def State.answered (s : State) : Answer → State
  | .ok r => s.reply r
  | .novalue => s.noValue
  | .raise k => s.raise k
  | .unspecified => s.unspecified

/-- A command that ends with an answer: whatever its status the unit goes on (R276). -/
def answer (s : State) (a : Answer) : Result := .next (s.answered a)

/-! ## Control and status registers -/

/-- `DBGCTL`: bit 0 is `ASSERT_EN`, bits `RAWBITS-1:1` are hardwired zero (R35). -/
def State.dbgctl (s : State) : Int := if s.assertEn then 1 else 0

/-- Writing `DBGCTL`: only bit 0 of the value is taken (R35, R261). -/
def State.setDbgctl (s : State) (v : Int) : State := { s with assertEn := decide (bit v 0 = 1) }

/-- `PBSTAT`: bit 0 is `PHASE`, bits 15:8 are `NPARTS` (R36, R260). -/
def State.pbstat (s : State) : Int := (if s.phase = .built then 1 else 0) + 2 ^ 8 * (s.parts.length : Int)

/-! ## The builder -/

/-- A fresh builder (R230, R233). -/
def State.newBuilder (s : State) : State := { s with phase := .building, parts := [] }

/-- One part appended to `PB.parts` (R234, R235). -/
def State.appendPart (s : State) (p : BitPart) : State := { s with parts := s.parts ++ [p] }

/-! ## The tables -/

/-- What a slot holds; `none` for an invalid slot (R43, R45). -/
def slotGet {α : Type} : Table α → Nat → Option α
  | [], _ => none
  | (j, x) :: rest, k => if k = j then some x else slotGet rest k

/-- A table with a record written to slot `k`, every other slot as it was. -/
def slotPut {α : Type} : Table α → Nat → α → Table α
  | [], k, x => [(k, x)]
  | (j, y) :: rest, k, x =>
    if k < j then (k, x) :: (j, y) :: rest
    else if k = j then (k, x) :: rest
    else (j, y) :: slotPut rest k x

/-- A slot number inside its space of `n` slots, taken from a port; outside it is RANGE, "never wrapped or clamped"
(R62). -/
def slotOf (n : Nat) (x : Int) : Option Nat := if 0 ≤ x ∧ x < n then some x.toNat else none

/-- Reading a slot of a table of `n` slots: RANGE for a number outside the space, STATE for an invalid slot (R62, R43,
R45). -/
def readSlot {α : Type} (n : Nat) (table : Table α) (x : Int) : Except Kind α :=
  match slotOf n x with
  | none => .error .range
  | some k =>
    match slotGet table k with
    | none => .error .state
    | some r => .ok r

/-- Reading a pattern slot (R43). -/
def State.readPattern (s : State) (x : Int) : Except Kind Pattern := readSlot s.params.nPat s.pt x

/-- Reading a group slot (R45). -/
def State.readGroup (s : State) (x : Int) : Except Kind GroupRecord := readSlot s.params.nGrp s.gt x

/-- Writing a pattern slot and ending the builder: the success of `PBBUILD` (R236). -/
def State.storePattern (s : State) (m : Nat) (p : Pattern) : State :=
  { s with pt := slotPut s.pt m p, phase := .built }

/-- Writing a group slot: the success of `PGMAKE` (R242). -/
def State.storeGroup (s : State) (g : Nat) (r : GroupRecord) : State := { s with gt := slotPut s.gt g r }

/-! ## Inputs -/

/-- Reset as an input: every piece of state at its reset value, "with no response" (R290, R291). The parameters are the
hardware's; what the host has lined up stays, and so does the model's counter of free values (log entry 8). -/
def State.applyReset (s : State) (rest : List Input) : State :=
  { State.atReset s.params with pending := rest, freeCount := s.freeCount }

/-- A command the ports can carry: raw values on A to D and V, S_in of at most SMAX characters, V of at most GMAX + 1
items (R84). -/
def Command.presentable (p : Params) (c : Command) : Bool :=
  decide (IsRaw p.rawBits c.ports.a ∧ IsRaw p.rawBits c.ports.b ∧ IsRaw p.rawBits c.ports.c ∧
    IsRaw p.rawBits c.ports.d) &&
  (match c.ports.sIn with | none => true | some cs => decide (cs.length ≤ p.sMax)) &&
  (match c.ports.v with
    | none => true
    | some xs => decide (xs.length ≤ p.gMax + 1 ∧ ∀ x ∈ xs, IsRaw p.rawBits x))

/-- The host presents a command: its values are on the operand ports and it is no longer lined up (R66, R84). -/
def State.present (s : State) (c : Command) (rest : List Input) : State := { s with ports := c.ports, pending := rest }

end Sys2Proof.Machine
end

