-- ==== Sys2Proof/Machine/Bitwise.lean ====
section
/-! DEFINITION. The bitwise operators of the value types (spec/45_bitwise_ops.md R220 to R227): they work on the `W`-bit
patterns of their operands and answer the value of a `W`-bit pattern. None of these commands reads or writes any state
but the ports. -/

namespace Sys2Proof.Machine

/-- An operator applied to the patterns of two value operands (R220). -/
def patternOp (op : Nat → Nat → Nat) (d : Desc) (a b : Int) : Answer :=
  if ¬ InRange d a ∨ ¬ InRange d b then .unspecified
  else .value (patVal d (op (pat d a).toNat (pat d b).toNat : Nat))

/-- `AND` (R221). -/
def execAnd (d : Desc) (s : State) : Result := answer s (patternOp (· &&& ·) d s.A s.B)

/-- `OR` (R222). -/
def execOr (d : Desc) (s : State) : Result := answer s (patternOp (· ||| ·) d s.A s.B)

/-- `XOR` (R223). -/
def execXor (d : Desc) (s : State) : Result := answer s (patternOp (· ^^^ ·) d s.A s.B)

/-- `NOT`: the `W` bits of the pattern complemented (R224). -/
def execNot (d : Desc) (s : State) : Result :=
  answer s <|
    if ¬ InRange d s.A then .unspecified
    else .value (patVal d (2 ^ d.width - 1 - pat d s.A))

/-- `OSHL`: `wrap(W, S, A * 2^B)`, the product standing as `timesPow2` (R225; `Laws.wrap_timesPow2`). -/
def execOshl (d : Desc) (s : State) : Result :=
  answer s <|
    if s.B < 0 then .raise .range
    else if ¬ InRange d s.A then .unspecified
    else .value (wrap d (timesPow2 d.width s.A s.B.toNat))

/-- `OSHR`: the arithmetic right shift of the value (R226). -/
def execOshr (d : Desc) (s : State) : Result :=
  answer s <|
    if s.B < 0 then .raise .range
    else if ¬ InRange d s.A then .unspecified
    else .value (floorShift s.A s.B.toNat)

/-- `OSHRU`: the logical right shift of the pattern (R227). -/
def execOshru (d : Desc) (s : State) : Result :=
  answer s <|
    if s.B < 0 then .raise .range
    else if ¬ InRange d s.A then .unspecified
    else .value (patVal d (floorShift (pat d s.A) s.B.toNat))

end Sys2Proof.Machine
end

