-- ==== Sys2Proof/Machine/DescBits.lean ====
section
/-! DEFINITION. Descriptor bit operations (spec/43_descriptor_bitops.md R170 to R187, R189): the value operand's
`W`-bit pattern is worked on; a result that is a value of the descriptor is `val(W, S, q)`, a count, a bit or a field is
the number itself. None of these commands reads or writes any state but the ports. -/

namespace Sys2Proof.Machine

/-- The frame of a format E command (R189 c, e, f): RANGE for bad bounds in the checked variant, UNSPECIFIED for an
invalid value operand and for bad bounds in the unchecked variant. -/
def boundedAnswer (d : Desc) (unchecked : Bool) (a : Int) (good : Prop) [Decidable good] (result : Answer) : Answer :=
  if unchecked = false ∧ ¬ good then .raise .range
  else if ¬ InRange d a then .unspecified
  else if unchecked = true ∧ ¬ good then .unspecified
  else result

/-- The frame of a command with one value operand and no other test (R189 a). -/
def validAnswer (d : Desc) (a : Int) (result : Answer) : Answer :=
  if ¬ InRange d a then .unspecified else result

/-- `BITS` (R170). -/
def execBits (d : Desc) (s : State) : Result := answer s (validAnswer d s.A (.value (pat d s.A)))

/-- `NTHBIT` (R171). -/
def execNthbit (d : Desc) (unchecked : Bool) (s : State) : Result :=
  answer s (boundedAnswer d unchecked s.A (IsPosition d.width s.B) (.value (bit (pat d s.A) s.B.toNat)))

/-- `SETNTH` (R172). -/
def execSetnth (d : Desc) (unchecked : Bool) (s : State) : Result :=
  answer s (boundedAnswer d unchecked s.A (IsPosition d.width s.B)
    (.value (patVal d (setBitAt (pat d s.A) s.B.toNat))))

/-- `TOGNTH` (R173). -/
def execTognth (d : Desc) (unchecked : Bool) (s : State) : Result :=
  answer s (boundedAnswer d unchecked s.A (IsPosition d.width s.B)
    (.value (patVal d (togBitAt (pat d s.A) s.B.toNat))))

/-- `CNT1` (R174). -/
def execCnt1 (d : Desc) (s : State) : Result :=
  answer s (validAnswer d s.A (.value (popcount d.width (pat d s.A))))

/-- `CNT0` (R175). -/
def execCnt0 (d : Desc) (s : State) : Result :=
  answer s (validAnswer d s.A (.value (d.width - popcount d.width (pat d s.A))))

/-- `CLO` (R176). -/
def execClo (d : Desc) (s : State) : Result :=
  answer s (validAnswer d s.A (.value (leadingRun 1 d.width (pat d s.A))))

/-- `CLZ` (R177). -/
def execClz (d : Desc) (s : State) : Result :=
  answer s (validAnswer d s.A (.value (leadingRun 0 d.width (pat d s.A))))

/-- `CTO` (R178). -/
def execCto (d : Desc) (s : State) : Result :=
  answer s (validAnswer d s.A (.value (trailingRun 1 d.width (pat d s.A))))

/-- `CTZ` (R179). -/
def execCtz (d : Desc) (s : State) : Result :=
  answer s (validAnswer d s.A (.value (trailingRun 0 d.width (pat d s.A))))

/-- `DCHUNK` (R180). -/
def execDchunk (d : Desc) (unchecked : Bool) (s : State) : Result :=
  answer s (boundedAnswer d unchecked s.A (IsChunk d.width s.B s.C)
    (.value (chunk (pat d s.A) s.B.toNat s.C.toNat)))

/-- `DSLICE` (R181). -/
def execDslice (d : Desc) (unchecked : Bool) (s : State) : Result :=
  answer s (boundedAnswer d unchecked s.A (IsRange d.width s.B s.C)
    (.value (chunk (pat d s.A) s.B.toNat (s.B - s.C + 1).toNat)))

/-- `DREPL` (R182). -/
def execDrepl (d : Desc) (unchecked : Bool) (s : State) : Result :=
  answer s (boundedAnswer d unchecked s.A (IsRange d.width s.B s.C)
    (.value (patVal d (replaceBits (pat d s.A) s.B.toNat s.C.toNat s.uD))))

/-- `DROTL` (R183). -/
def execDrotl (d : Desc) (s : State) : Result :=
  answer s <|
    if s.B < 0 then .raise .range
    else validAnswer d s.A (.value (patVal d (rotl d.width (pat d s.A) s.B.toNat)))

/-- `DROTR` (R184). -/
def execDrotr (d : Desc) (s : State) : Result :=
  answer s <|
    if s.B < 0 then .raise .range
    else validAnswer d s.A (.value (patVal d (rotr d.width (pat d s.A) s.B.toNat)))

/-- `DSEXT` (R185): the sign extension of the pattern up to the descriptor's width. -/
def execDsext (d : Desc) (s : State) : Result :=
  answer s <|
    if s.B < 1 ∨ (d.width : Int) ≤ s.B then .raise .range
    else validAnswer d s.A (.value (patVal d (signExtendBits (pat d s.A) s.B.toNat d.width)))

/-- `HILO`: the two halves of the pattern, high half first (R186). -/
def execHilo (d : Desc) (s : State) : Result :=
  answer s (validAnswer d s.A (.pair (pat d s.A / 2 ^ (d.width / 2)) (pat d s.A % 2 ^ (d.width / 2))))

/-- `FROMHILO` (R187). -/
def execFromhilo (d : Desc) (s : State) : Result :=
  answer s <|
    if ¬ (0 ≤ s.A ∧ s.A < 2 ^ (d.width / 2)) ∨ ¬ (0 ≤ s.B ∧ s.B < 2 ^ (d.width / 2)) then .raise .range
    else .value (patVal d (s.A * 2 ^ (d.width / 2) + s.B))

end Sys2Proof.Machine
end

