-- ==== Sys2Proof/Machine/Params.lean ====
section
/-! DEFINITION. What the parameters of spec/00_scope.md R5 mean that are choices and not sizes (ROTRSH_FN stands beside
ROTR in Machine/RawBits.lean), and the constraints R5 puts on all of them. -/

namespace Sys2Proof.Machine

/-- The midpoint of `a` and `b` under a rounding (R204, U11; log entry 13). -/
def midpointBy : MidptRound → Int → Int → Int
  | .floor, a, b => (a + b) / 2
  | .trunc, a, b => (a + b).tdiv 2
  | .towardFirst, a, b => a + (b - a).tdiv 2

/-- How `TIE_ORDER` arranges the given members before the stable sort by specificity, so that the arrangement decides
the order of equally specific members and nothing else (R242, U9; log entry 12). -/
def TieOrder.arrange : TieOrder → List Nat → List Nat
  | .stable, given => given
  | .listed rows, given =>
    match rows.lookup given with
    | some ms => ms
    | none => given

/-- A response that ROTRSH_FN may answer: one the ports can carry (R85, U10). -/
def Answer.fits (p : Params) : Answer → Bool
  | .ok r =>
    (match r.rs with | none => true | some cs => decide (cs.length ≤ p.sMax)) &&
    (match r.rv with | none => true | some xs => decide (xs.length ≤ p.gMax))
  | .novalue => true
  | .raise _ => true
  | .unspecified => false

/-- The constraints of R5 on the parameters: on the sizes as its table has them, ROTRSH_FN answers responses, TIE_ORDER
only reorders. -/
def Params.legal (p : Params) : Bool :=
  decide (32 ≤ p.wMax ∧ p.wMax + 1 ≤ p.rawBits ∧ 1 ≤ p.nPat ∧ 1 ≤ p.nGrp ∧ 33 ≤ p.pbMax ∧ 1 ≤ p.gMax ∧
    p.rawBits ≤ p.sMax) &&
  (match p.rotrshFn with
    | .rotr => true
    | .listed rows => rows.all fun row => row.2.fits p) &&
  (match p.tieOrder with
    | .stable => true
    | .listed rows => rows.all fun row => row.2.isPerm row.1)

end Sys2Proof.Machine
end

