-- ==== Sys2Proof/Machine/DescMath.lean ====
section
/-! DEFINITION. Descriptor math and comparisons (spec/44_descriptor_math.md R200 to R212). The only state read is
`DBGCTL.ASSERT_EN`, by the preconditions of SQRT and LOG*; nothing but the response is written. The order of checks is
that of R212 d. -/

namespace Sys2Proof.Machine

/-- `SQRT` (R200). -/
def execSqrt (d : Desc) (s : State) : Result :=
  answer s <|
    if ¬ InRange d s.A then .unspecified
    else if s.A < 0 then precondFail s.assertEn
    else .value (sqrtFloor d.width s.A)

/-- `LOG`: the base is a raw number (R201). -/
def execLog (d : Desc) (s : State) : Result :=
  answer s <|
    if ¬ InRange d s.A then .unspecified
    else if s.A ≤ 0 ∨ s.B < 2 then precondFail s.assertEn
    else .value (logFloor d.width s.B s.A)

/-- `LOG2` (R202). -/
def execLog2 (d : Desc) (s : State) : Result :=
  answer s <|
    if ¬ InRange d s.A then .unspecified
    else if s.A ≤ 0 then precondFail s.assertEn
    else .value (logFloor d.width 2 s.A)

/-- `LOG10` (R203). -/
def execLog10 (d : Desc) (s : State) : Result :=
  answer s <|
    if ¬ InRange d s.A then .unspecified
    else if s.A ≤ 0 then precondFail s.assertEn
    else .value (logFloor d.width 10 s.A)

/-- `MIDPT`, rounded as the parameter `MIDPT_ROUND` says (R204, U11; log entry 13). -/
def execMidpt (d : Desc) (s : State) : Result :=
  answer s <|
    if ¬ InRange d s.A ∨ ¬ InRange d s.B then .unspecified
    else .value (midpointBy s.params.midptRound s.A s.B)

/-- `CLAMP`: `A` limited to the interval `[B, C]` (R205). -/
def execClamp (d : Desc) (s : State) : Result :=
  answer s <|
    if s.C < s.B then .raise .argument
    else if ¬ InRange d s.A ∨ ¬ InRange d s.B ∨ ¬ InRange d s.C then .unspecified
    else .value (min (max s.A s.B) s.C)

/-- `REM`: the truncating remainder (R206). -/
def execRem (d : Desc) (s : State) : Result :=
  answer s <|
    if s.B = 0 then .raise .divzero
    else if ¬ InRange d s.A ∨ ¬ InRange d s.B then .unspecified
    else .value (s.A - s.B * s.A.tdiv s.B)

/-- `MOD`: the Euclidean remainder, never negative (R207). -/
def execMod (d : Desc) (s : State) : Result :=
  answer s <|
    if s.B = 0 then .raise .divzero
    else if ¬ InRange d s.A ∨ ¬ InRange d s.B then .unspecified
    else .value (s.A % |s.B|)

/-- A comparison of two value operands (R208 to R211). -/
def compareAnswer (d : Desc) (a b : Int) (p : Prop) [Decidable p] : Answer :=
  if ¬ InRange d a ∨ ¬ InRange d b then .unspecified else .truth p

/-- `CMPLT` (R208). -/
def execCmplt (d : Desc) (s : State) : Result := answer s (compareAnswer d s.A s.B (s.A < s.B))

/-- `CMPLE` (R209). -/
def execCmple (d : Desc) (s : State) : Result := answer s (compareAnswer d s.A s.B (s.A ≤ s.B))

/-- `CMPGT` (R210). -/
def execCmpgt (d : Desc) (s : State) : Result := answer s (compareAnswer d s.A s.B (s.B < s.A))

/-- `CMPGE` (R211). -/
def execCmpge (d : Desc) (s : State) : Result := answer s (compareAnswer d s.A s.B (s.B ≤ s.A))

end Sys2Proof.Machine
end

