-- ==== Sys2Proof/Machine/LongHelper.lean ====
section
/-! DEFINITION. The long helper: values wider than 32 bits as a `(hi, lo)` pair (spec/41_long_helper.md R140 to R145).
None of these commands reads or writes any state but the ports. -/

namespace Sys2Proof.Machine

/-- `LHILO` (R141). -/
def execLhilo (s : State) : Result :=
  answer s <|
    if s.A < 0 then .raise .range
    else .pair (s.A / 2 ^ 32) (s.A % 2 ^ 32)

/-- `LGETBIT`: dispatched to the half that holds the position (R142). -/
def execLgetbit (s : State) : Result :=
  answer s <|
    if ¬ IsLongPair s.params.longBits s.A s.B then .raise .range
    else if ¬ IsPosition s.params.longBits s.C then .raise .range
    else if s.C < 32 then .value (bit s.B s.C.toNat)
    else .value (bit s.A (s.C - 32).toNat)

/-- `LSETBIT` (R143). -/
def execLsetbit (s : State) : Result :=
  answer s <|
    if ¬ IsLongPair s.params.longBits s.A s.B then .raise .range
    else if ¬ IsPosition s.params.longBits s.C then .raise .range
    else if s.C < 32 then .pair s.A (setBitAt s.B s.C.toNat)
    else .pair (setBitAt s.A (s.C - 32).toNat) s.B

/-- `LCLRBIT` (R144). -/
def execLclrbit (s : State) : Result :=
  answer s <|
    if ¬ IsLongPair s.params.longBits s.A s.B then .raise .range
    else if ¬ IsPosition s.params.longBits s.C then .raise .range
    else if s.C < 32 then .pair s.A (clrBitAt s.B s.C.toNat)
    else .pair (clrBitAt s.A (s.C - 32).toNat) s.B

/-- `LCHUNK`: a chunk of the full value, across the boundary of the halves too (R145). -/
def execLchunk (s : State) : Result :=
  answer s <|
    if ¬ IsLongPair s.params.longBits s.A s.B then .raise .range
    else if ¬ IsChunk s.params.longBits s.C s.D then .raise .range
    else .value (chunk (s.A * 2 ^ 32 + s.B) s.C.toNat s.D.toNat)

end Sys2Proof.Machine
end

