-- ==== Sys2Proof/Machine/PatternEngine.lean ====
section
/-! DEFINITION. The bit-pattern decoder (spec/46_pattern_engine.md R230 to R244): the builder's commands, compiling a
list of parts, matching and capturing with a pattern, groups. -/

namespace Sys2Proof.Machine

/-! ## Parts and patterns -/

/-- The width of a part (R41). -/
def BitPart.width : BitPart → Nat
  | .fixed _ => 1
  | .var size _ => size

/-- `total(parts)` (R42). -/
def totalWidth : List BitPart → Nat
  | [] => 0
  | p :: ps => p.width + totalWidth ps

/-- What the loop of `compile` accumulates (R232). -/
structure Layout where
  mask : Nat := 0
  cmp : Nat := 0
  caps : List Capture := []
deriving DecidableEq, Repr

/-- The loop of `compile` from the first of the remaining parts, whose most significant bit is `pos - 1` (R232). -/
def layout : List BitPart → Nat → Layout
  | [], _ => {}
  | .fixed b :: ps, pos =>
    let r := layout ps (pos - 1)
    { r with mask := 2 ^ (pos - 1) + r.mask, cmp := (if b then 1 else 0) * 2 ^ (pos - 1) + r.cmp }
  | .var size name :: ps, pos =>
    let r := layout ps (pos - size)
    { r with caps := ⟨name, pos - 1, size⟩ :: r.caps }

/-- `compile(parts)` as the record that `PBBUILD` stores, with its name (R232, R236). -/
def compile (parts : List BitPart) (name : PartName) : Pattern :=
  let tw := totalWidth parts
  let r := layout parts tw
  { mask := BitVec.ofNat Config.patW r.mask, cmp := BitVec.ofNat Config.patW r.cmp, tw := tw, caps := r.caps,
    name := name }

/-- `spec = popcount(mask)`, the number of fixed bits (R43). -/
def Pattern.spec (p : Pattern) : Int := popcount Config.patW (p.mask.toNat : Int)

/-- The candidate: the low 32 bits of the word `u(B)` (R231). -/
def State.candidate (s : State) : PatWord := BitVec.ofInt Config.patW s.uB

/-- `(candidate & matchMask) == compareValue` (R237). -/
def Pattern.matches (p : Pattern) (cand : PatWord) : Bool := (cand &&& p.mask) == p.cmp

/-- `capmask(left, size)` (R231). -/
def Capture.mask (c : Capture) : Int := (2 ^ c.size - 1) * 2 ^ (c.left + 1 - c.size)

/-- The captured field of a candidate (R238). -/
def Capture.extract (c : Capture) (cand : PatWord) : Int := chunk (cand.toNat : Int) c.left c.size

/-! ## Builder commands -/

/-- `PBNEW` (R233). -/
def execPbnew (s : State) : Result := answer s.newBuilder (.ok {})

/-- A part appended, the new part count on R0 (R234, R235). -/
def appendAnswer (s : State) (p : BitPart) : Result :=
  answer (s.appendPart p) (.value ((s.appendPart p).parts.length : Int))

/-- `PBFIX` (R234). -/
def execPbfix (s : State) : Result :=
  if s.phase ≠ .building then answer s (.raise .state)
  else if s.A ≠ 0 ∧ s.A ≠ 1 then answer s (.raise .argument)
  else if s.parts.length = s.params.pbMax then answer s (.raise .state)
  else appendAnswer s (.fixed (decide (s.A = 1)))

/-- `PBVAR` (R235). -/
def execPbvar (s : State) : Result :=
  if s.phase ≠ .building then answer s (.raise .state)
  else if s.A < 1 then answer s (.raise .argument)
  else if s.parts.length = s.params.pbMax then answer s (.raise .state)
  else appendAnswer s (.var s.A.toNat s.ports.sIn)

/-- `PBBUILD` (R236). -/
def execPbbuild (s : State) : Result :=
  if s.phase ≠ .building then answer s (.raise .state)
  else match slotOf s.params.nPat s.A with
    | none => answer s (.raise .range)
    | some m =>
      if Config.patW < totalWidth s.parts then answer s (.raise .state)
      else if (slotGet s.pt m).isSome then answer s (.raise .state)
      else
        let p := compile s.parts s.ports.sIn
        answer (s.storePattern m p)
          (.ok { r0 := p.mask.toNat, r1 := p.cmp.toNat, r2 := p.spec })

/-! ## Pattern commands -/

/-- A command that reads one pattern slot: RANGE, then STATE, then its answer from the record (R237 to R240). -/
def onPattern (s : State) (x : Int) (f : Pattern → Answer) : Answer :=
  match s.readPattern x with
  | .error k => .raise k
  | .ok p => f p

/-- `PTMATCH` (R237). -/
def execPtmatch (s : State) : Result :=
  answer s (onPattern s s.A fun p => .truth (p.matches s.candidate = true))

/-- `PTCAPT` (R238). -/
def execPtcapt (s : State) : Result :=
  answer s (onPattern s s.A fun p =>
    let out := p.caps.map fun c => c.extract s.candidate
    .ok { r0 := out.length, rv := some out })

/-- `PTINFO` (R239). -/
def execPtinfo (s : State) : Result :=
  answer s (onPattern s s.A fun p =>
    .ok { r0 := p.mask.toNat, r1 := p.cmp.toNat, r2 := p.spec, r3 := p.tw, rs := p.name,
          rv := some (p.caps.map Capture.mask) })

/-- `PTCSPEC` (R240). -/
def execPtcspec (s : State) : Result :=
  answer s (onPattern s s.A fun p =>
    if ¬ IsPosition p.caps.length s.B then .raise .range
    else match p.caps[s.B.toNat]? with
      | none => .raise .range
      | some c => .ok { r0 := c.left, r1 := c.size, r2 := c.mask, rs := c.name })

/-- `PTCMP`: both slot numbers are tested before either slot's validity (R241). -/
def execPtcmp (s : State) : Result :=
  answer s <|
    match s.readPattern s.A, s.readPattern s.B with
    | .error .range, _ => .raise .range
    | _, .error .range => .raise .range
    | .error k, _ => .raise k
    | _, .error k => .raise k
    | .ok p, .ok q => .value (if q.spec < p.spec then -1 else if p.spec = q.spec then 0 else 1)

/-! ## Group commands -/

/-- The members of a new group, tested first to last: RANGE or STATE for the first offending one (R242). -/
def State.checkMembers (s : State) : List Int → Except Kind (List Nat)
  | [] => .ok []
  | x :: xs =>
    match s.readPattern x with
    | .error k => .error k
    | .ok _ =>
      match s.checkMembers xs with
      | .error k => .error k
      | .ok ms => .ok (x.toNat :: ms)

/-- The specificity of the pattern in a slot; 0 for an invalid slot, which no member names (R46). -/
def State.specOf (s : State) (m : Nat) : Int :=
  match slotGet s.pt m with
  | none => 0
  | some p => p.spec

/-- Sorted by descending specificity, members of equal specificity keeping their order in `ms` (R242). -/
def State.sortMembers (s : State) (ms : List Nat) : List Nat :=
  List.insertionSort (fun m n => s.specOf n ≤ s.specOf m) ms

/-- The response that shows a group's members (R242, R244). -/
def membersAnswer (ms : List Nat) : Answer := .ok { r0 := ms.length, rv := some (ms.map Int.ofNat) }

/-- The members of the group that `PGMAKE` makes of the given ones, under the parameter `TIE_ORDER` (R242, U9). -/
def State.groupOf (s : State) (given : List Nat) : List Nat := s.sortMembers (s.params.tieOrder.arrange given)

/-- `PGMAKE` (R242). -/
def execPgmake (s : State) : Result :=
  match slotOf s.params.nGrp s.A, s.ports.v with
  | none, _ => answer s (.raise .range)
  | some _, none => answer s (.raise .argument)
  | some _, some [] => answer s (.raise .argument)
  | some g, some (x :: xs) =>
    if s.params.gMax < (x :: xs).length then answer s (.raise .argument)
    else match s.checkMembers (x :: xs) with
      | .error k => answer s (.raise k)
      | .ok ms =>
        if (slotGet s.gt g).isSome then answer s (.raise .state)
        else answer (s.storeGroup g ⟨s.groupOf ms⟩) (membersAnswer (s.groupOf ms))

/-- The first member, from position `j` on, whose pattern matches, with its position (R243). A member that names an
invalid slot, which R46 rules out, matches nothing (log entry 15). -/
def State.firstMatch (s : State) (cand : PatWord) : List Nat → Nat → Option (Nat × Nat)
  | [], _ => none
  | m :: ms, j =>
    match slotGet s.pt m with
    | some p => if p.matches cand then some (m, j) else s.firstMatch cand ms (j + 1)
    | none => s.firstMatch cand ms (j + 1)

/-- `PGMATCH` (R243). -/
def execPgmatch (s : State) : Result :=
  answer s <|
    match s.readGroup s.A with
    | .error k => .raise k
    | .ok r =>
      match s.firstMatch s.candidate r.members 0 with
      | none => .novalue
      | some (m, j) => .pair (m : Int) (j : Int)

/-- `PGINFO` (R244). -/
def execPginfo (s : State) : Result :=
  answer s <|
    match s.readGroup s.A with
    | .error k => .raise k
    | .ok r => membersAnswer r.members

end Sys2Proof.Machine
end

