-- ==== Sys2Proof/Machine/PolicyArith.lean ====
section
/-! DEFINITION. Policy arithmetic (spec/42_policy_arith.md R150 to R160): the exact result, then the policy. The only
state read is `DBGCTL.ASSERT_EN`, by the checked policy; nothing but the response is written. The order of checks is
that of R151: a negative count, the validity of value operands, the precondition, the policy. -/

namespace Sys2Proof.Machine

/-- `FIT`: construction from a raw value; the unchecked form returns its input (R152). -/
def execFit (pol : Policy) (d : Desc) (s : State) : Result :=
  answer s <|
    if pol = .unchecked then .value s.A
    else applyPolicy s.assertEn pol d s.A

/-- `ADD` (R153). -/
def execAdd (pol : Policy) (d : Desc) (s : State) : Result :=
  answer s <|
    if ¬ InRange d s.A ∨ ¬ InRange d s.B then .unspecified
    else applyPolicy s.assertEn pol d (s.A + s.B)

/-- `SUB` (R154). -/
def execSub (pol : Policy) (d : Desc) (s : State) : Result :=
  answer s <|
    if ¬ InRange d s.A ∨ ¬ InRange d s.B then .unspecified
    else applyPolicy s.assertEn pol d (s.A - s.B)

/-- `MUL` (R155). -/
def execMul (pol : Policy) (d : Desc) (s : State) : Result :=
  answer s <|
    if ¬ InRange d s.A ∨ ¬ InRange d s.B then .unspecified
    else applyPolicy s.assertEn pol d (s.A * s.B)

/-- `POW` (R156): the policy applied to the exact power `A^B`, which `powFold` stands for
(`Laws.applyPolicy_powFold`; log entry 17). -/
def execPow (pol : Policy) (d : Desc) (s : State) : Result :=
  answer s <|
    if s.B < 0 then .raise .range
    else if ¬ InRange d s.A then .unspecified
    else applyPolicy s.assertEn pol d (powFold d.width s.A s.B.toNat)

/-- `NEG`: signed descriptors only (R157). -/
def execNeg (pol : Policy) (width : Nat) (s : State) : Result :=
  answer s <|
    if ¬ InRange ⟨width, true⟩ s.A then .unspecified
    else applyPolicy s.assertEn pol ⟨width, true⟩ (-s.A)

/-- `NPOW2` (R158). -/
def execNpow2 (pol : Policy) (d : Desc) (s : State) : Result :=
  answer s <|
    if ¬ InRange d s.A then .unspecified
    else if s.A ≤ 0 then .unspecified
    else applyPolicy s.assertEn pol d (nextPowerOf2 d.width s.A)

/-- `NMULT` (R159). -/
def execNmult (pol : Policy) (d : Desc) (s : State) : Result :=
  answer s <|
    if ¬ InRange d s.A ∨ ¬ InRange d s.B then .unspecified
    else if s.A ≤ 0 ∨ s.B ≤ 0 then .unspecified
    else applyPolicy s.assertEn pol d (nextMultipleOf s.A s.B)

/-- `SHL` (R160): the policy applied to the exact product `A * 2^B`, which `timesPow2` stands for
(`Laws.applyPolicy_timesPow2`; log entry 17). -/
def execShl (pol : Policy) (d : Desc) (s : State) : Result :=
  answer s <|
    if s.B < 0 then .raise .range
    else if ¬ InRange d s.A then .unspecified
    else applyPolicy s.assertEn pol d (timesPow2 d.width s.A s.B.toNat)

end Sys2Proof.Machine
end

