-- ==== Sys2Proof/Machine/RawBits.lean ====
section
/-! DEFINITION. The raw bit primitives and the binary strings (spec/40_raw_bitops.md R109 to R129). Each reads its
operands from the ports, works on the word `u(A)` and answers; none reads or writes any other state. -/

namespace Sys2Proof.Machine

/-- `GETBIT` (R110). -/
def execGetbit (s : State) : Result :=
  answer s <|
    if ¬ IsPosition s.params.rawBits s.B then .raise .range
    else .value (bit s.uA s.B.toNat)

/-- `SETBIT` (R111). -/
def execSetbit (s : State) : Result :=
  answer s <|
    if ¬ IsPosition s.params.rawBits s.B then .raise .range
    else .value (setBitAt s.uA s.B.toNat)

/-- `CLRBIT` (R112). -/
def execClrbit (s : State) : Result :=
  answer s <|
    if ¬ IsPosition s.params.rawBits s.B then .raise .range
    else .value (clrBitAt s.uA s.B.toNat)

/-- `TOGBIT` (R113). -/
def execTogbit (s : State) : Result :=
  answer s <|
    if ¬ IsPosition s.params.rawBits s.B then .raise .range
    else .value (togBitAt s.uA s.B.toNat)

/-- `TOGBITX`: the bit is forced to the state on port C (R114). -/
def execTogbitx (s : State) : Result :=
  answer s <|
    if ¬ IsPosition s.params.rawBits s.B then .raise .range
    else if s.C ≠ 0 ∧ s.C ≠ 1 then .raise .argument
    else if s.C = 1 then .value (setBitAt s.uA s.B.toNat)
    else .value (clrBitAt s.uA s.B.toNat)

/-- `ISSET` (R115). -/
def execIsset (s : State) : Result :=
  answer s <|
    if ¬ IsPosition s.params.rawBits s.B then .raise .range
    else .truth (bit s.uA s.B.toNat = 1)

/-- `ISCLR` (R116). -/
def execIsclr (s : State) : Result :=
  answer s <|
    if ¬ IsPosition s.params.rawBits s.B then .raise .range
    else .truth (bit s.uA s.B.toNat = 0)

/-- `MSB` (R117). -/
def execMsb (s : State) : Result :=
  answer s <|
    if ¬ IsWidth s.params.rawBits s.B then .raise .range
    else .value (bit s.uA (s.B.toNat - 1))

/-- `CNTSET` (R118). -/
def execCntset (s : State) : Result :=
  answer s <|
    if ¬ IsWidth s.params.rawBits s.B then .raise .range
    else .value (popcount s.B.toNat (low s.uA s.B.toNat))

/-- `BITCHUNK` (R119). -/
def execBitchunk (s : State) : Result :=
  answer s <|
    if ¬ IsChunk s.params.rawBits s.B s.C then .raise .range
    else .value (chunk s.uA s.B.toNat s.C.toNat)

/-- `BITRANGE` (R120): the chunk of size `left - right + 1`. -/
def execBitrange (s : State) : Result :=
  answer s <|
    if ¬ IsRange s.params.rawBits s.B s.C then .raise .range
    else .value (chunk s.uA s.B.toNat (s.B - s.C + 1).toNat)

/-- `REPLRANGE` (R121). -/
def execReplrange (s : State) : Result :=
  answer s <|
    if ¬ IsRange s.params.rawBits s.B s.C then .raise .range
    else .value (replaceBits s.uA s.B.toNat s.C.toNat s.uD)

/-- `ROTL`: the low `C` bits rotate, the bits above pass through (R122). -/
def execRotl (s : State) : Result :=
  answer s <|
    if ¬ IsWidth s.params.rawBits s.C ∨ s.B < 0 then .raise .range
    else
      let p := low s.uA s.C.toNat
      .value (s.uA - p + rotl s.C.toNat p s.B.toNat)

/-- What `ROTR` answers to its three operands (R123). -/
def rotrAnswer (p : Params) (a b c : Int) : Answer :=
  if ¬ IsWidth p.rawBits c ∨ b < 0 then .raise .range
  else
    let x := low (uword p.rawBits a) c.toNat
    .value (uword p.rawBits a - x + rotr c.toNat x b.toNat)

/-- `ROTR` (R123). -/
def execRotr (s : State) : Result := answer s (rotrAnswer s.params s.A s.B s.C)

/-- `SEXT` (R124). -/
def execSext (s : State) : Result :=
  answer s <|
    if s.C ≤ s.B ∨ s.B < 1 ∨ (s.params.rawBits : Int) < s.C then .raise .range
    else .value (signExtendBits s.uA s.B.toNat s.C.toNat)

/-- `SHRL` (R125). -/
def execShrl (s : State) : Result :=
  answer s <|
    if ¬ IsWidth s.params.rawBits s.C ∨ s.B < 0 then .raise .range
    else .value (floorShift (low s.uA s.C.toNat) s.B.toNat)

/-- `SHRA`: the window read as a signed number is shifted and cut back to the window (R126). -/
def execShra (s : State) : Result :=
  answer s <|
    if ¬ IsWidth s.params.rawBits s.C ∨ s.B < 0 then .raise .range
    else .value (low (floorShift (sext s.C.toNat (low s.uA s.C.toNat)) s.B.toNat) s.C.toNat)

/-- `ROTRSH_FN(A, B, C)` (R5, R127, U10; log entry 11). -/
def Params.rotrsh (p : Params) (a b c : Int) : Answer :=
  match p.rotrshFn with
  | .rotr => rotrAnswer p a b c
  | .listed rows =>
    match rows.lookup (a, b, c) with
    | some r => r
    | none => rotrAnswer p a b c

/-- `ROTRSH` (R127). -/
def execRotrsh (s : State) : Result := answer s (s.params.rotrsh s.A s.B s.C)

/-- `PARSEB` (R128): one left-to-right pass, so that a bad character and a value above
`2^(RAWBITS-1) - 1` are both FORMAT. -/
def execParseb (s : State) : Result :=
  answer s <|
    match s.ports.sIn with
    | none => .raise .argument
    | some [] => .raise .format
    | some (c :: cs) =>
      match parseFrom 0 (c :: cs) with
      | none => .raise .format
      | some v => if 2 ^ (s.params.rawBits - 1) - 1 < v then .raise .format else .value v

/-- `RENDERB` (R129). -/
def execRenderb (s : State) : Result :=
  answer s <|
    if s.A < 0 then .raise .argument
    else if s.B < 0 ∨ (s.params.sMax : Int) < s.B then .raise .range
    else
      let d := padZeros s.B.toNat (render s.A)
      .ok { r0 := d.length, rs := some d }

end Sys2Proof.Machine
end

