-- ==== Sys2Proof/Machine/System.lean ====
section
/-! DEFINITION. CSR access (spec/47_system.md R260, R261): the two commands that reach DBGCTL and PBSTAT. There is one
privilege level, so neither checks a mode (spec/60_exceptions.md R283). -/

namespace Sys2Proof.Machine

/-- `CSRR` (R260). -/
def execCsrr (imm : BitVec 12) (s : State) : Result :=
  answer s <|
    if imm = 0x000#12 then .value s.dbgctl
    else if imm = 0x001#12 then .value s.pbstat
    else .raise .illegal

/-- `CSRW`: bit 0 of `u(A)` becomes `ASSERT_EN` (R261). -/
def execCsrw (imm : BitVec 12) (s : State) : Result :=
  if imm ≠ 0x000#12 then answer s (.raise .illegal)
  else answer (s.setDbgctl s.uA) (.ok {})

end Sys2Proof.Machine
end

