-- ==== Sys2Proof/Machine/Dispatch.lean ====
section
/-! DEFINITION. The dispatch: one arm per instruction, each one direct call of its meaning. -/

namespace Sys2Proof.Machine

/-- What an instruction does to the machine, its operands being on the ports. -/
def exec (i : Instr) (s : State) : Host.Outcome State Fault Refusal :=
  match i with
  | .csrr imm => Sys2Proof.Machine.execCsrr imm s
  | .csrw imm => Sys2Proof.Machine.execCsrw imm s
  | .getbit => Sys2Proof.Machine.execGetbit s
  | .setbit => Sys2Proof.Machine.execSetbit s
  | .clrbit => Sys2Proof.Machine.execClrbit s
  | .togbit => Sys2Proof.Machine.execTogbit s
  | .togbitx => Sys2Proof.Machine.execTogbitx s
  | .isset => Sys2Proof.Machine.execIsset s
  | .isclr => Sys2Proof.Machine.execIsclr s
  | .msb => Sys2Proof.Machine.execMsb s
  | .cntset => Sys2Proof.Machine.execCntset s
  | .bitchunk => Sys2Proof.Machine.execBitchunk s
  | .bitrange => Sys2Proof.Machine.execBitrange s
  | .replrange => Sys2Proof.Machine.execReplrange s
  | .rotl => Sys2Proof.Machine.execRotl s
  | .rotr => Sys2Proof.Machine.execRotr s
  | .sext => Sys2Proof.Machine.execSext s
  | .shrl => Sys2Proof.Machine.execShrl s
  | .shra => Sys2Proof.Machine.execShra s
  | .rotrsh => Sys2Proof.Machine.execRotrsh s
  | .parseb => Sys2Proof.Machine.execParseb s
  | .renderb => Sys2Proof.Machine.execRenderb s
  | .lhilo => Sys2Proof.Machine.execLhilo s
  | .lgetbit => Sys2Proof.Machine.execLgetbit s
  | .lsetbit => Sys2Proof.Machine.execLsetbit s
  | .lclrbit => Sys2Proof.Machine.execLclrbit s
  | .lchunk => Sys2Proof.Machine.execLchunk s
  | .fit pol d => Sys2Proof.Machine.execFit pol d s
  | .add pol d => Sys2Proof.Machine.execAdd pol d s
  | .sub pol d => Sys2Proof.Machine.execSub pol d s
  | .mul pol d => Sys2Proof.Machine.execMul pol d s
  | .pow pol d => Sys2Proof.Machine.execPow pol d s
  | .neg pol width => Sys2Proof.Machine.execNeg pol width s
  | .npow2 pol d => Sys2Proof.Machine.execNpow2 pol d s
  | .nmult pol d => Sys2Proof.Machine.execNmult pol d s
  | .shl pol d => Sys2Proof.Machine.execShl pol d s
  | .bits d => Sys2Proof.Machine.execBits d s
  | .nthbit d unchecked => Sys2Proof.Machine.execNthbit d unchecked s
  | .setnth d unchecked => Sys2Proof.Machine.execSetnth d unchecked s
  | .tognth d unchecked => Sys2Proof.Machine.execTognth d unchecked s
  | .cnt1 d => Sys2Proof.Machine.execCnt1 d s
  | .cnt0 d => Sys2Proof.Machine.execCnt0 d s
  | .clo d => Sys2Proof.Machine.execClo d s
  | .clz d => Sys2Proof.Machine.execClz d s
  | .cto d => Sys2Proof.Machine.execCto d s
  | .ctz d => Sys2Proof.Machine.execCtz d s
  | .dchunk d unchecked => Sys2Proof.Machine.execDchunk d unchecked s
  | .dslice d unchecked => Sys2Proof.Machine.execDslice d unchecked s
  | .drepl d unchecked => Sys2Proof.Machine.execDrepl d unchecked s
  | .drotl d => Sys2Proof.Machine.execDrotl d s
  | .drotr d => Sys2Proof.Machine.execDrotr d s
  | .dsext d => Sys2Proof.Machine.execDsext d s
  | .hilo d => Sys2Proof.Machine.execHilo d s
  | .fromhilo d => Sys2Proof.Machine.execFromhilo d s
  | .sqrt d => Sys2Proof.Machine.execSqrt d s
  | .log d => Sys2Proof.Machine.execLog d s
  | .log2 d => Sys2Proof.Machine.execLog2 d s
  | .log10 d => Sys2Proof.Machine.execLog10 d s
  | .midpt d => Sys2Proof.Machine.execMidpt d s
  | .clamp d => Sys2Proof.Machine.execClamp d s
  | .rem d => Sys2Proof.Machine.execRem d s
  | .mod d => Sys2Proof.Machine.execMod d s
  | .cmplt d => Sys2Proof.Machine.execCmplt d s
  | .cmple d => Sys2Proof.Machine.execCmple d s
  | .cmpgt d => Sys2Proof.Machine.execCmpgt d s
  | .cmpge d => Sys2Proof.Machine.execCmpge d s
  | .and d => Sys2Proof.Machine.execAnd d s
  | .or d => Sys2Proof.Machine.execOr d s
  | .xor d => Sys2Proof.Machine.execXor d s
  | .not d => Sys2Proof.Machine.execNot d s
  | .oshl d => Sys2Proof.Machine.execOshl d s
  | .oshr d => Sys2Proof.Machine.execOshr d s
  | .oshru d => Sys2Proof.Machine.execOshru d s
  | .pbnew => Sys2Proof.Machine.execPbnew s
  | .pbfix => Sys2Proof.Machine.execPbfix s
  | .pbvar => Sys2Proof.Machine.execPbvar s
  | .pbbuild => Sys2Proof.Machine.execPbbuild s
  | .ptmatch => Sys2Proof.Machine.execPtmatch s
  | .ptcapt => Sys2Proof.Machine.execPtcapt s
  | .ptinfo => Sys2Proof.Machine.execPtinfo s
  | .ptcspec => Sys2Proof.Machine.execPtcspec s
  | .ptcmp => Sys2Proof.Machine.execPtcmp s
  | .pgmake => Sys2Proof.Machine.execPgmake s
  | .pgmatch => Sys2Proof.Machine.execPgmatch s
  | .pginfo => Sys2Proof.Machine.execPginfo s

end Sys2Proof.Machine
end

