-- ==== Sys2Proof/Machine/Transaction.lean ====
section
/-! DEFINITION. One transaction: an input is taken, a command decoded and executed (spec/30_encoding.md R80, R87;
spec/20_memory.md R66). -/

namespace Sys2Proof.Machine

/-- The command word on the ports' command is decoded and executed; an illegal word is the fault ILLEGAL, whatever the
ports hold (R87, R89). -/
def runWord (x : CommandWord) (s : State) : Result :=
  match decode s.params.wMax x with
  | .error _ => answer s (.raise .illegal)
  | .ok i => exec i s

/-- Taking the next input: a command is presented and run, a reset applied; with nothing lined up the unit waits
(R66, R290; log entry 7). -/
def takeInput (s : State) : Result :=
  match s.pending with
  | [] => .next s
  | .reset :: rest => .next (s.applyReset rest)
  | .command c :: rest =>
    if c.presentable s.params then runWord c.word (s.present c rest) else .fault .unpresentable

/-- The command of that word put in front of what is lined up, with the ports as they stand. -/
def State.lineUp (s : State) : Option CommandWord → State
  | none => s
  | some x => { s with pending := .command ⟨x, s.ports⟩ :: s.pending }

end Sys2Proof.Machine
end

