-- ==== Sys2Proof/Machine/Step.lean ====
section
/-! DEFINITION. One step of the machine and the host's way of placing one command before it. All the work is in
Machine/Transaction.lean. -/

namespace Sys2Proof.Machine

/-- One step: the next input the host has lined up is taken, to completion (spec/20_memory.md R66). -/
def step (s : State) : Host.Outcome State Fault Refusal := takeInput s

/-- `s` with the command of those bits lined up as the very next input, presented with the ports as `s` holds them.
Bits that are no command word line up nothing. -/
def State.withFetchWord (s : State) (nbits w : Nat) : State := s.lineUp (tableWord nbits w)

end Sys2Proof.Machine
end

