-- ==== Sys2Proof/Safety.lean ====
section
/-! DEFINITION. The terms in which statements about the machine are made: what a step leaves alone, how a command can
end, which command words are legal, values and patterns of a descriptor, and the invariant of the tables, each written
from its rule of spec/ a second time, on bits and on numbers, without the meanings' own operations. -/

namespace Sys2Proof.Safety

open Sys2Proof.Machine

/-! ## What a step leaves alone -/

/-- Everything the unit holds between two commands (spec/10_state.md R48, R50) is the same, and so are its parameters. -/
def SameUnit (s t : State) : Prop :=
  t.params = s.params ∧ t.assertEn = s.assertEn ∧ t.phase = s.phase ∧ t.parts = s.parts ∧ t.pt = s.pt ∧ t.gt = s.gt

/-- The operand ports and what the host has lined up are the same. -/
def SameInputs (s t : State) : Prop := t.ports = s.ports ∧ t.pending = s.pending

/-- A number as a port carries it: the raw value with the same low `RAWBITS` bits (spec/00_scope.md R8). For a number of
RAW that is the number itself. -/
def onPort (p : Params) (x : Int) : Int := (BitVec.ofInt p.rawBits x).toInt

/-- Results as the ports carry them (spec/30_encoding.md R85). -/
def carried (p : Params) (r : Results) : Results :=
  { r with r0 := onPort p r.r0, r1 := onPort p r.r1, r2 := onPort p r.r2, r3 := onPort p r.r3,
           rv := r.rv.map (·.map (onPort p)) }

/-- A command that starts in `s` and answers `o` ends as the rule's pseudocode says (spec/00_scope.md R13, R14): a next
state that differs from `s` in nothing but the response; where the response is unspecified, in nothing but the response
and the model's counter of free responses. -/
def Ends (s : State) (o : Result) : Answer → Prop
  | .ok r => o = .next { s with response := some ⟨.ok, carried s.params r⟩ }
  | .novalue => o = .next { s with response := some ⟨.novalue, {}⟩ }
  | .raise k => o = .next { s with response := some ⟨.fault k, {}⟩ }
  | .unspecified => ∃ (r : Response) (n : Nat), o = .next { s with response := some r, freeCount := n }

/-- The 8-bit code of each status (spec/30_encoding.md R86, spec/60_exceptions.md R270). -/
def statusCode : Status → BitVec 8
  | .ok => 0x00#8
  | .novalue => 0x01#8
  | .fault .illegal => 0x10#8
  | .fault .range => 0x11#8
  | .fault .assertion => 0x12#8
  | .fault .format => 0x13#8
  | .fault .state => 0x14#8
  | .fault .argument => 0x15#8
  | .fault .divzero => 0x16#8

/-- The command drew no free response. -/
def Determined (s t : State) : Prop := t.freeCount = s.freeCount

/-! ## Operand ports -/

/-- The operand ports by name (spec/30_encoding.md R84). -/
inductive Port where
  | a | b | c | d | sIn | v
deriving DecidableEq, Repr

/-- The ports a command reads: the "reads" column of the opcode map (spec/30_encoding.md R88). -/
def portsRead : Instr → List Port
  | .csrr _ | .pbnew => []
  | .parseb => [.sIn]
  | .csrw _ | .lhilo | .fit _ _ | .neg _ _ | .npow2 _ _ | .bits _ | .cnt1 _ | .cnt0 _ | .clo _ | .clz _ | .cto _
  | .ctz _ | .hilo _ | .sqrt _ | .log2 _ | .log10 _ | .not _ | .pbfix | .ptinfo | .pginfo => [.a]
  | .pbvar | .pbbuild => [.a, .sIn]
  | .pgmake => [.a, .v]
  | .getbit | .setbit | .clrbit | .togbit | .isset | .isclr | .msb | .cntset | .renderb | .add _ _ | .sub _ _
  | .mul _ _ | .pow _ _ | .nmult _ _ | .shl _ _ | .nthbit _ _ | .setnth _ _ | .tognth _ _ | .drotl _ | .drotr _
  | .dsext _ | .fromhilo _ | .log _ | .midpt _ | .rem _ | .mod _ | .cmplt _ | .cmple _ | .cmpgt _ | .cmpge _ | .and _
  | .or _ | .xor _ | .oshl _ | .oshr _ | .oshru _ | .ptmatch | .ptcapt | .ptcspec | .ptcmp | .pgmatch => [.a, .b]
  | .togbitx | .bitchunk | .bitrange | .rotl | .rotr | .sext | .shrl | .shra | .rotrsh | .lgetbit | .lsetbit
  | .lclrbit | .dchunk _ _ | .dslice _ _ | .clamp _ => [.a, .b, .c]
  | .replrange | .lchunk | .drepl _ _ => [.a, .b, .c, .d]

/-- The port holds the same in `x` and `y`. -/
def SamePort (x y : Ports) : Port → Prop
  | .a => x.a = y.a
  | .b => x.b = y.b
  | .c => x.c = y.c
  | .d => x.d = y.d
  | .sIn => x.sIn = y.sIn
  | .v => x.v = y.v

/-! ## Command words -/

/-- The number a policy has in `POL` (spec/30_encoding.md R82). -/
def policyCode : Policy → Nat
  | .checked => 0
  | .unchecked => 1
  | .attempt => 2
  | .wrapped => 3
  | .clamped => 4

/-- `S * 2^20 + W * 2^12` (R81). -/
def descWord (d : Desc) : Nat := (if d.signed then 1 else 0) * 2 ^ 20 + d.width * 2 ^ 12

/-- `U * 2^19` (R81). -/
def uncheckedWord (u : Bool) : Nat := (if u then 1 else 0) * 2 ^ 19

/-- The opcodes of format Z (R88). -/
def zOpcodes : List Nat := List.range' 0x10 20 ++ List.range' 0x28 5 ++ List.range' 0x70 12

/-- The opcodes of format P (R88). -/
def pOpcodes : List Nat := List.range' 0x30 9

/-- The opcodes of format D (R88). -/
def dOpcodes : List Nat :=
  [0x40] ++ List.range' 0x44 6 ++ List.range' 0x4D 5 ++ List.range' 0x52 8 ++ List.range' 0x60 11

/-- The opcodes of format E (R88). -/
def eOpcodes : List Nat := [0x41, 0x42, 0x43, 0x4A, 0x4B, 0x4C]

/-- A legal command word under the parameter WMAX: none of the clauses (a) to (g) of R89 holds. The fields are cut out by arithmetic (R81). -/
def LegalWord (wMax : Nat) (x : CommandWord) : Prop :=
  let opc := x.toNat / 2 ^ 24
  let pol := x.toNat / 2 ^ 21 % 2 ^ 3
  let s := x.toNat / 2 ^ 20 % 2
  let u := x.toNat / 2 ^ 19 % 2
  let w := x.toNat / 2 ^ 12 % 2 ^ 7
  let imm := x.toNat % 2 ^ 12
  (opc ∈ zOpcodes ∧ pol = 0 ∧ s = 0 ∧ u = 0 ∧ w = 0 ∧ imm = 0) ∨
  (opc ∈ pOpcodes ∧ pol ≤ 4 ∧ u = 0 ∧ 1 ≤ w ∧ w ≤ wMax ∧ imm = 0 ∧ (opc = 0x35 → s = 1)) ∨
  (opc ∈ dOpcodes ∧ pol = 0 ∧ u = 0 ∧ 1 ≤ w ∧ w ≤ wMax ∧ imm = 0 ∧ (opc = 0x50 ∨ opc = 0x51 → w % 2 = 0)) ∨
  (opc ∈ eOpcodes ∧ pol = 0 ∧ 1 ≤ w ∧ w ≤ wMax ∧ imm = 0) ∨
  (opc = 0x01 ∧ pol = 0 ∧ s = 0 ∧ u = 0 ∧ w = 0 ∧ imm ≤ 1) ∨
  (opc = 0x02 ∧ pol = 0 ∧ s = 0 ∧ u = 0 ∧ w = 0 ∧ imm = 0)

/-! ## Words on ports -/

/-- The word of `RAWBITS` bits on a port (R8). -/
def word (s : State) (x : Int) : BitVec s.params.rawBits := BitVec.ofInt s.params.rawBits x

/-- 1 for true, 0 for false. -/
def flag (b : Bool) : Int := if b then 1 else 0

/-- The word with the bits `f 0, f 1, ..., f (n-1)`. -/
def wordOf {n : Nat} (f : Nat → Bool) : BitVec n := BitVec.ofFnLE fun i : Fin n => f i

/-- How many of the low `w` bits of a word are 1. -/
def onesBelow {n : Nat} (w : Nat) (x : BitVec n) : Nat := (List.range w).countP fun i => x.getLsbD i

/-! ## Descriptors (spec/00_scope.md R9 to R11) -/

/-- `min(W, S)` (R9). -/
def least (d : Desc) : Int := if d.signed then -2 ^ (d.width - 1) else 0

/-- `max(W, S)` (R9). -/
def greatest (d : Desc) : Int := if d.signed then 2 ^ (d.width - 1) - 1 else 2 ^ d.width - 1

/-- A number in the descriptor's range (R9). -/
abbrev Fits (d : Desc) (e : Int) : Prop := least d ≤ e ∧ e ≤ greatest d

/-- A port that holds a valid value operand (R15). -/
abbrev Valid (d : Desc) (x : Int) : Prop := Fits d x

/-- The `W`-bit pattern of a value (R11). -/
def patternOf (d : Desc) (x : Int) : BitVec d.width := BitVec.ofInt d.width x

/-- The value of a `W`-bit pattern (R11): read as two's complement or as unsigned. -/
def valueOf (d : Desc) (p : BitVec d.width) : Int := if d.signed then p.toInt else p.toNat

/-- The response of a policy command whose exact result is `e` (spec/42_policy_arith.md R150), `en` being ASSERT_EN. -/
def policyOutcome (en : Bool) (pol : Policy) (d : Desc) (e : Int) : Answer :=
  if Fits d e then .ok { r0 := e }
  else match pol with
    | .checked => if en then .raise .assertion else .ok { r0 := valueOf d (patternOf d e) }
    | .unchecked => .unspecified
    | .attempt => .novalue
    | .wrapped => .ok { r0 := valueOf d (patternOf d e) }
    | .clamped => .ok { r0 := if e < least d then least d else greatest d }

/-- The response of a format E command (spec/43_descriptor_bitops.md R189 c, e, f): `good` says that its bounds hold. -/
def boundedOutcome (d : Desc) (unchecked : Bool) (a : Int) (good : Prop) [Decidable good] (r : Results) : Answer :=
  if good then (if Valid d a then .ok r else .unspecified)
  else if unchecked then .unspecified
  else .raise .range

/-- `k` is how many of the positions `pos 0, pos 1, ...`, of which there are `w`, hold `b` before the first that does
not (R176 to R179). -/
def RunLength {n : Nat} (x : BitVec n) (b : Bool) (w : Nat) (pos : Nat → Nat) (k : Nat) : Prop :=
  k ≤ w ∧ (∀ j < k, x.getLsbD (pos j) = b) ∧ (k < w → x.getLsbD (pos k) ≠ b)

/-! ## Binary strings (spec/40_raw_bitops.md R128, R129) -/

/-- Only the characters '0' and '1'. -/
def Binary (cs : Str) : Prop := ∀ c ∈ cs, c = 0x30#8 ∨ c = 0x31#8

/-- The number a list of binary digits stands for, most significant first. -/
def binaryValue (cs : Str) : Nat := Nat.ofDigits 2 (cs.reverse.map fun c => if c = 0x31#8 then 1 else 0)

/-! ## Parts and patterns (spec/10_state.md R41 to R44) -/

/-- What a part says about each of its bits, most significant first: a literal, or nothing. -/
def partBits : BitPart → List (Option Bool)
  | .fixed b => [some b]
  | .var size _ => List.replicate size none

/-- What a list of parts says about each bit, the most significant first (R232). -/
def bitsOf (parts : List BitPart) : List (Option Bool) := parts.flatMap partBits

/-- What a list of parts says about bit `i`: the last declared part ends at bit 0 (R232). -/
def literalAt (parts : List BitPart) (i : Nat) : Option Bool := ((bitsOf parts).reverse[i]?).join

/-- The captures of a list of parts, in declaration order: a variable part ends where the parts after it begin (R232). -/
def capturesOf : List BitPart → List Capture
  | [] => []
  | .fixed _ :: rest => capturesOf rest
  | .var size name :: rest => ⟨name, (bitsOf rest).length + size - 1, size⟩ :: capturesOf rest

/-- A capture's bits: `left-size+1 .. left`. -/
def Capture.Covers (c : Capture) (i : Nat) : Prop := c.left + 1 - c.size ≤ i ∧ i ≤ c.left

/-- The number of fixed bits of a pattern (R43, `spec`). -/
def specificity (p : Pattern) : Nat := (List.range 32).countP fun i => p.mask.getLsbD i

/-- The mask of the bits a capture of a 32-bit pattern reads (spec/46_pattern_engine.md R231, `capmask`). -/
def captureMask (c : Capture) : PatWord := wordOf fun i => decide (c.left + 1 - c.size ≤ i ∧ i ≤ c.left)

/-- A candidate matches a pattern (R237): its bits under the mask are those of the compare value. -/
def Matches {n : Nat} (p : Pattern) (b : BitVec n) : Prop := ∀ i < 32, (b.getLsbD i && p.mask.getLsbD i) = p.cmp.getLsbD i

/-- What a table holds in slot `k`: the record listed for it (R43, R45). -/
def recordAt {α : Type} (table : Table α) (k : Nat) : Option α := (table.find? fun row => row.1 == k).map Prod.snd

/-- The record in the slot that a port names, if the number is inside the space of `n` slots (R62). -/
def slotAt {α : Type} (n : Nat) (table : Table α) (x : Int) : Option (Option α) :=
  if 0 ≤ x ∧ x < n then some (recordAt table x.toNat) else none

/-- How a command that reads one slot ends: RANGE outside the space, STATE for an invalid slot, else what the record
gives (R62). -/
def slotOutcome {α : Type} (n : Nat) (table : Table α) (x : Int) (f : α → Answer) : Answer :=
  match slotAt n table x with
  | none => .raise .range
  | some none => .raise .state
  | some (some r) => f r

/-- The table after a record was written to slot `k`: every other slot holds what it held. -/
def WrittenAt {α : Type} (before after : Table α) (k : Nat) (r : α) : Prop :=
  ∀ j, recordAt after j = if j = k then some r else recordAt before j

/-! ## The invariant of the unit -/

/-- A name that a string port can carry (R47). -/
def NameOk (sMax : Nat) (name : PartName) : Prop := ∀ cs, name = some cs → cs.length ≤ sMax

/-- A legal part (R41). -/
def PartOk (sMax : Nat) : BitPart → Prop
  | .fixed _ => True
  | .var size name => 1 ≤ size ∧ NameOk sMax name

/-- The invariants of a valid pattern slot (R44 a to e, R43). -/
structure PatternOk (sMax : Nat) (p : Pattern) : Prop where
  /-- (a) compare bits only where mask bits are set. -/
  compareUnderMask : p.cmp &&& ~~~p.mask = 0
  /-- (b) nothing at or above the total width, which is at most 32. -/
  width : p.tw ≤ 32 ∧ p.mask.toNat < 2 ^ p.tw ∧ p.cmp.toNat < 2 ^ p.tw
  /-- (c) every capture is a field inside the total width, clear of the mask. -/
  captures : ∀ c ∈ p.caps, 1 ≤ c.size ∧ c.size ≤ c.left + 1 ∧ c.left < p.tw ∧ NameOk sMax c.name ∧
    ∀ i, Capture.Covers c i → p.mask.getLsbD i = false
  /-- (d) captures do not overlap. -/
  disjoint : p.caps.Pairwise fun c e => ∀ i, ¬ (Capture.Covers c i ∧ Capture.Covers e i)
  /-- (d) fixed bits and captures together cover every bit below the total width. -/
  covered : ∀ i < p.tw, p.mask.getLsbD i = true ∨ ∃ c ∈ p.caps, Capture.Covers c i
  /-- (e) the widths add up. -/
  total : specificity p + (p.caps.map Capture.size).sum = p.tw
  /-- The name fits its port. -/
  name : NameOk sMax p.name

/-- The invariants of a valid group slot (R46). -/
structure GroupOk (s : State) (r : GroupRecord) : Prop where
  /-- Between 1 and GMAX members. -/
  size : 1 ≤ r.members.length ∧ r.members.length ≤ s.params.gMax
  /-- Every member is inside the space and names a valid pattern slot. -/
  members : ∀ m ∈ r.members, m < s.params.nPat ∧ ∃ p, recordAt s.pt m = some p
  /-- Consecutive members never rise in specificity. -/
  sorted : r.members.Pairwise fun m n =>
    ∀ p q, recordAt s.pt m = some p → recordAt s.pt n = some q → specificity q ≤ specificity p

/-- The canonical form of a table of `n` slots: its slots listed by rising number, all inside the space (R43, R45). -/
structure TableOk {α : Type} (n : Nat) (table : Table α) : Prop where
  rising : table.Pairwise fun x y => x.1 < y.1
  inside : ∀ row ∈ table, row.1 < n

/-- A raw value (spec/00_scope.md R8). -/
def Raw (p : Params) (x : Int) : Prop := -2 ^ (p.rawBits - 1) ≤ x ∧ x < 2 ^ (p.rawBits - 1)

/-- What the operand ports can hold (R84). -/
structure PortsOk (p : Params) (x : Ports) : Prop where
  operands : Raw p x.a ∧ Raw p x.b ∧ Raw p x.c ∧ Raw p x.d
  string : ∀ cs, x.sIn = some cs → cs.length ≤ p.sMax
  list : ∀ xs, x.v = some xs → xs.length ≤ p.gMax + 1 ∧ ∀ y ∈ xs, Raw p y

/-- What the result ports can hold (R85). A pattern can have as many captures as PATW bits (R44), and PTCAPT and PTINFO
show them all (R238, R239), also where the parameter GMAX is smaller than PATW (log entry 23). -/
structure ResultsOk (p : Params) (r : Results) : Prop where
  numbers : Raw p r.r0 ∧ Raw p r.r1 ∧ Raw p r.r2 ∧ Raw p r.r3
  string : ∀ cs, r.rs = some cs → cs.length ≤ p.sMax
  list : ∀ xs, r.rv = some xs → xs.length ≤ max p.gMax Config.patW ∧ ∀ y ∈ xs, Raw p y

/-- What the constraints of spec/00_scope.md R5 say of the sizes. -/
structure SizesOk (p : Params) : Prop where
  wMax : 32 ≤ p.wMax ∧ p.wMax ≤ p.rawBits - 1
  slots : 1 ≤ p.nPat ∧ 1 ≤ p.nGrp
  builder : 33 ≤ p.pbMax
  group : 1 ≤ p.gMax
  strings : p.rawBits ≤ p.sMax

/-- The constraints of R5 on every parameter: the sizes; ROTRSH_FN answers responses that the ports can carry (U10);
TIE_ORDER only reorders (U9). -/
structure ParamsOk (p : Params) : Prop where
  sizes : SizesOk p
  rotrsh : ∀ rows, p.rotrshFn = .listed rows → ∀ row ∈ rows, row.2 ≠ .unspecified ∧
    ∀ r, row.2 = .ok r → (∀ cs, r.rs = some cs → cs.length ≤ p.sMax) ∧ (∀ xs, r.rv = some xs → xs.length ≤ p.gMax)
  ties : ∀ rows, p.tieOrder = .listed rows → ∀ row ∈ rows, row.2.Perm row.1

/-- The invariant of the machine: the parameters as R5 constrains them, the builder as R40 and R41 say, ended only by a
pattern of at most 32 bits, the tables in their form, every valid pattern slot as R44 says, every valid group slot as
R46 says, the ports within their sizes. -/
structure UnitInv (s : State) : Prop where
  params : ParamsOk s.params
  partCount : s.parts.length ≤ s.params.pbMax
  parts : ∀ p ∈ s.parts, PartOk s.params.sMax p
  built : s.phase = .built → (bitsOf s.parts).length ≤ 32
  tables : TableOk s.params.nPat s.pt ∧ TableOk s.params.nGrp s.gt
  patterns : ∀ (m : Nat) (p : Pattern), recordAt s.pt m = some p → PatternOk s.params.sMax p
  groups : ∀ (g : Nat) (r : GroupRecord), recordAt s.gt g = some r → GroupOk s r
  portsIn : PortsOk s.params s.ports
  portsOut : ∀ r, s.response = some r → ResultsOk s.params r.results

end Sys2Proof.Safety
end

