-- ==== Sys2Proof/Certificates/Slice0/Obligations.lean ====
section
/-! DEFINITION. The statements for the provers. `Ends s (exec i s) a` says that `exec i s` answers a next state that
differs from `s` in nothing but the response, which is the one `a` names (Safety.lean); so each statement of that form
says that the command completes, what it answers and that it leaves everything else alone. The parameters of
spec/00_scope.md R5 are `s.params`: a statement about every state is about every value of them, with `SizesOk` or
`ParamsOk` as a premise where the constraints of R5 are needed. A result `r0 := x` stands for the raw value that port R0
carries for `x`, which is `x` itself wherever `x` is a raw value (`carried`, Safety.lean). -/

open Sys2Proof Sys2Proof.Machine Sys2Proof.Safety

/-! ## Encoding and decoding -/

/-- Every well-formed instruction's word decodes to it (R81, R83, R87, R88), under every value of WMAX. -/
def Obligations.DecodeOfEncode : Prop :=
  ∀ (wMax : Nat) (i : Instr), i.wf wMax = true → decode wMax (encode i) = .ok i

/-- A word that decodes is the word of the instruction it decodes to, which is well-formed: no two words share a
meaning and no bit is dropped (R81, R83, R87). -/
def Obligations.EncodeOfDecode : Prop :=
  ∀ (wMax : Nat) (x : CommandWord) (i : Instr), decode wMax x = .ok i → i.wf wMax = true ∧ encode i = x

/-- Words written out from the spec's encodings decode to the instructions they stand for (R81, R88, R92). -/
def Obligations.SpecWordsDecode : Prop :=
  decode 63 0x01000001#32 = .ok (.csrr 1#12) ∧
  decode 63 0x10000000#32 = .ok .getbit ∧
  decode 63 0x2C000000#32 = .ok .lchunk ∧
  decode 63 0x31608000#32 = .ok (.add .wrapped ⟨8, false⟩) ∧
  decode 63 0x35908000#32 = .ok (.neg .clamped 8) ∧
  decode 63 0x41188000#32 = .ok (.nthbit ⟨8, true⟩ true) ∧
  decode 63 0x5903F000#32 = .ok (.mod ⟨63, false⟩) ∧
  decode 63 0x6A101000#32 = .ok (.oshru ⟨1, true⟩) ∧
  decode 63 0x73000000#32 = .ok .pbbuild ∧
  decode 63 0x00000000#32 = .error .unknownOpcode ∧
  decode 63 0xFFFFFFFF#32 = .error .unknownOpcode

/-- A word decodes exactly when none of the clauses (a) to (g) of R89 makes it illegal, under every value of WMAX. -/
def Obligations.LegalWordsDecode : Prop :=
  ∀ (wMax : Nat) (x : CommandWord), (∃ i, decode wMax x = .ok i) ↔ LegalWord wMax x

/-- An illegal command word is answered ILLEGAL whatever the ports hold, and nothing but the response, the ports and
the list of commands still to come changes (R87, R89, R274 (1), R275). -/
def Obligations.IllegalWordsAnswerIllegal : Prop :=
  ∀ (s : State) (c : Command) (rest : List Input),
    s.pending = .command c :: rest → c.presentable s.params = true → ¬ LegalWord s.params.wMax c.word →
    step s = .next { s with ports := c.ports, pending := rest, response := some ⟨.fault .illegal, {}⟩ }

/-! ## The step -/

/-- When the next input is a command whose word decodes to an instruction, the step is `exec` of that instruction on
the state with the command's values on the ports and the command gone from the list (R66, R80, R87). -/
def Obligations.StepRunsDecodedCommand : Prop :=
  ∀ (s : State) (c : Command) (rest : List Input) (i : Instr),
    s.pending = .command c :: rest → c.presentable s.params = true → decode s.params.wMax c.word = .ok i →
    step s = exec i { s with ports := c.ports, pending := rest }

/-- A well-formed instruction's word placed with `withFetchWord` is what the very next step executes, on the ports as
they stand and before anything else that is lined up. -/
def Obligations.StepRunsPlacedWord : Prop :=
  ∀ (s : State) (i : Instr), i.wf s.params.wMax = true → Command.presentable s.params ⟨encode i, s.ports⟩ = true →
    step (s.withFetchWord 32 (encode i).toNat) = exec i s

/-- Reset as an input puts every piece of the unit's state at its reset value, with no response (R290, R291); with
nothing lined up the unit waits. That the ports are cleared and that the parameters, the list and the counter of free
responses are kept is the model's choice (log entries 7, 8 and 10). -/
def Obligations.StepWithoutCommand : Prop :=
  (∀ (s : State) (rest : List Input), s.pending = .reset :: rest →
    step s = .next { State.atReset s.params with pending := rest, freeCount := s.freeCount }) ∧
  (∀ s : State, s.pending = [] → step s = .next s)

/-- The reset state under any parameters (R50): assertions on, a fresh builder, every slot of both tables invalid. -/
def Obligations.ResetState : Prop :=
  ∀ p : Params,
    let s := State.atReset p
    s.params = p ∧ s.assertEn = true ∧ s.phase = .building ∧ s.parts = [] ∧
    (∀ m : Nat, recordAt s.pt m = none) ∧ (∀ g : Nat, recordAt s.gt g = none) ∧
    Ends s (exec (.csrr 0x000#12) s) (.ok { r0 := 1 }) ∧ Ends s (exec (.csrr 0x001#12) s) (.ok { r0 := 0 })

/-- No command stops the unit: whatever its status, the next command is accepted (R276). -/
def Obligations.NoCommandStopsTheUnit : Prop :=
  ∀ (i : Instr) (s : State), ∃ t, exec i s = .next t ∧ ∃ r, t.response = some r

/-- What a command can write: ASSERT_EN only by CSRW, the parts only by PBNEW, PBFIX and PBVAR, the phase only by PBNEW
and PBBUILD, the pattern table only by PBBUILD, the group table only by PGMAKE, the inputs and the parameters of the
hardware by none (R35, R40, R43, R45, R49). -/
def Obligations.UnitFrame : Prop :=
  ∀ (i : Instr) (s t : State), exec i s = .next t →
    SameInputs s t ∧ t.params = s.params ∧
    (t.assertEn = s.assertEn ∨ ∃ imm, i = .csrw imm) ∧
    (t.parts = s.parts ∨ i = .pbnew ∨ i = .pbfix ∨ i = .pbvar) ∧
    (t.phase = s.phase ∨ i = .pbnew ∨ i = .pbbuild) ∧
    (t.pt = s.pt ∨ i = .pbbuild) ∧
    (t.gt = s.gt ∨ i = .pgmake)

/-- The STATUS of every response has the code of R86, and no other code is produced; a command whose code is not that of
OK, or whose response is unspecified, leaves the unit as it was (R275, R14), and with a determined one every result port
is 0 or absent (R85). That an unspecified response has one of the nine codes too is the model's choice (log entry 20). -/
def Obligations.NonOkChangesNothing : Prop :=
  ∀ (i : Instr) (s t : State) (r : Response), exec i s = .next t → t.response = some r →
    r.status.code = statusCode r.status ∧
    r.status.code ∈ [0x00#8, 0x01#8, 0x10#8, 0x11#8, 0x12#8, 0x13#8, 0x14#8, 0x15#8, 0x16#8] ∧
    (r.status.code ≠ 0x00#8 ∨ ¬ Determined s t → SameUnit s t) ∧
    (r.status.code ≠ 0x00#8 → Determined s t → r.results = {})

/-- The commands that can raise nothing but ILLEGAL, and ILLEGAL only from their word, complete without a fault once
decoded, unless their response is unspecified (R271). -/
def Obligations.OnlyIllegalCommands : Prop :=
  ∀ (i : Instr) (s t : State) (r : Response), i.wf s.params.wMax = true →
    (match i with
      | .csrr _ | .csrw _ | .pbnew | .bits _ | .cnt1 _ | .cnt0 _ | .clo _ | .clz _ | .cto _ | .ctz _ | .hilo _
      | .midpt _ | .cmplt _ | .cmple _ | .cmpgt _ | .cmpge _ | .and _ | .or _ | .xor _ | .not _ => True
      | .fit pol _ | .add pol _ | .sub pol _ | .mul pol _ | .neg pol _ | .npow2 pol _ | .nmult pol _ => pol ≠ .checked
      | _ => False) →
    exec i s = .next t → t.response = some r → Determined s t → r.status = .ok ∨ r.status = .novalue

/-- The invariant of the parameters, the builder, the tables and the ports is kept by every step from every state (R5,
R40, R41, R44, R46, R84, R85). For a response that R14 leaves unspecified, that it fits the result ports (`portsOut`)
is no rule of the spec: it is the model's choice (log entry 20); so is the room for PATW items on RV under a GMAX below
PATW (log entry 23). -/
def Obligations.InvariantKept : Prop := ∀ s t : State, UnitInv s → step s = .next t → UnitInv t

/-- The invariant holds after reset, with every parameter at the value that R5 says this hardware takes. -/
def Obligations.InvariantAtReset : Prop :=
  State.reset.params =
    { rawBits := 64, wMax := 63, nPat := 64, nGrp := 16, pbMax := 64, gMax := 64, sMax := 256, rotrshFn := .rotr,
      tieOrder := .stable, midptRound := .floor } ∧
  State.reset.params.longBits = 63 ∧ Config.patW = 32 ∧ UnitInv State.reset

/-- A valid slot of either table is never rewritten or invalidated by a command (R43, R45). -/
def Obligations.ValidSlotsKept : Prop :=
  ∀ (i : Instr) (s t : State), exec i s = .next t →
    (∀ (m : Nat) (p : Pattern), recordAt s.pt m = some p → recordAt t.pt m = some p) ∧
    (∀ (g : Nat) (r : GroupRecord), recordAt s.gt g = some r → recordAt t.gt g = some r)

/-- A builder that is built stays built with its parts, until PBNEW: PBFIX, PBVAR and PBBUILD raise STATE (R230). -/
def Obligations.BuiltBuilderKept : Prop :=
  (∀ (i : Instr) (s t : State), s.phase = .built → i ≠ .pbnew → exec i s = .next t →
    t.phase = .built ∧ t.parts = s.parts) ∧
  (∀ s : State, s.phase = .built →
    Ends s (exec .pbfix s) (.raise .state) ∧ Ends s (exec .pbvar s) (.raise .state) ∧
    Ends s (exec .pbbuild s) (.raise .state))

/-- A port that a command does not read is ignored whatever it holds: with the ports of the command's "reads" column in
R88 as they were and every other port at any value, the command does the same (R84, R88). Unspecified responses are
outside it. -/
def Obligations.UnreadPortsIgnored : Prop :=
  ∀ (i : Instr) (s t : State) (x : Ports), exec i s = .next t → Determined s t →
    (∀ q ∈ portsRead i, SamePort x s.ports q) → exec i { s with ports := x } = .next { t with ports := x }

/-- Reading a table or a CSR has no side effect: the same command again, with no write between, gives the same response
(R67). -/
def Obligations.ReadsIdempotent : Prop :=
  ∀ (i : Instr) (s t : State),
    (match i with
      | .csrr _ | .ptmatch | .ptcapt | .ptinfo | .ptcspec | .ptcmp | .pgmatch | .pginfo => True
      | _ => False) →
    exec i s = .next t → SameUnit s t ∧ exec i t = .next t

/-- DBGCTL.ASSERT_EN is read by the checked policy, by the preconditions of SQRT, LOG, LOG2 and LOG10, and by CSRR alone:
no other command's outcome depends on it (R35, R261). Unspecified responses are outside it. -/
def Obligations.AssertEnableReaders : Prop :=
  ∀ (i : Instr) (s t : State) (en : Bool),
    (match i with
      | .fit pol _ | .add pol _ | .sub pol _ | .mul pol _ | .pow pol _ | .neg pol _ | .npow2 pol _ | .nmult pol _
      | .shl pol _ => pol ≠ .checked
      | .sqrt _ | .log _ | .log2 _ | .log10 _ | .csrr _ | .csrw _ => False
      | _ => True) →
    exec i s = .next t → Determined s t → exec i { s with assertEn := en } = .next { t with assertEn := en }

/-! ## Raw bit primitives -/

/-- GETBIT, ISSET and ISCLR (R110, R115, R116). -/
def Obligations.SingleBitReads : Prop :=
  encode .getbit = 0x10000000#32 ∧ encode .isset = 0x15000000#32 ∧ encode .isclr = 0x16000000#32 ∧
  ∀ s : State,
    let a := word s s.ports.a
    let n := s.ports.b
    let inside : Prop := 0 ≤ n ∧ n < s.params.rawBits
    Ends s (exec .getbit s) (if inside then .ok { r0 := flag (a.getLsbD n.toNat) } else .raise .range) ∧
    Ends s (exec .isset s) (if inside then .ok { r0 := flag (a.getLsbD n.toNat) } else .raise .range) ∧
    Ends s (exec .isclr s) (if inside then .ok { r0 := flag (!a.getLsbD n.toNat) } else .raise .range)

/-- SETBIT, CLRBIT, TOGBIT and TOGBITX (R111 to R114). -/
def Obligations.SingleBitWrites : Prop :=
  encode .setbit = 0x11000000#32 ∧ encode .clrbit = 0x12000000#32 ∧ encode .togbit = 0x13000000#32 ∧
  encode .togbitx = 0x14000000#32 ∧
  ∀ s : State,
    let a := word s s.ports.a
    let n := s.ports.b
    let inside : Prop := 0 ≤ n ∧ n < s.params.rawBits
    let one := word s 1 <<< n.toNat
    Ends s (exec .setbit s) (if inside then .ok { r0 := (a ||| one).toInt } else .raise .range) ∧
    Ends s (exec .clrbit s) (if inside then .ok { r0 := (a &&& ~~~one).toInt } else .raise .range) ∧
    Ends s (exec .togbit s) (if inside then .ok { r0 := (a ^^^ one).toInt } else .raise .range) ∧
    Ends s (exec .togbitx s)
      (if inside then
        if s.ports.c = 1 then .ok { r0 := (a ||| one).toInt }
        else if s.ports.c = 0 then .ok { r0 := (a &&& ~~~one).toInt }
        else .raise .argument
      else .raise .range)

/-- MSB and CNTSET (R117, R118). -/
def Obligations.WidthReads : Prop :=
  encode .msb = 0x17000000#32 ∧ encode .cntset = 0x18000000#32 ∧
  ∀ s : State,
    let a := word s s.ports.a
    let w := s.ports.b
    let legal : Prop := 1 ≤ w ∧ w ≤ s.params.rawBits
    Ends s (exec .msb s) (if legal then .ok { r0 := flag (a.getLsbD (w.toNat - 1)) } else .raise .range) ∧
    Ends s (exec .cntset s) (if legal then .ok { r0 := onesBelow w.toNat a } else .raise .range)

/-- BITCHUNK and BITRANGE: the field from its high end `left` downwards, right-aligned (R119, R120). -/
def Obligations.FieldReads : Prop :=
  encode .bitchunk = 0x19000000#32 ∧ encode .bitrange = 0x1A000000#32 ∧
  ∀ s : State,
    let a := word s s.ports.a
    let left := s.ports.b
    let c := s.ports.c
    let inside : Prop := 0 ≤ left ∧ left < s.params.rawBits
    Ends s (exec .bitchunk s)
      (if inside ∧ 0 < c ∧ c ≤ left + 1 then
        .ok { r0 := (a.extractLsb' (left + 1 - c).toNat c.toNat).toNat }
      else .raise .range) ∧
    Ends s (exec .bitrange s)
      (if inside ∧ 0 ≤ c ∧ c ≤ left then .ok { r0 := (a.extractLsb' c.toNat (left + 1 - c).toNat).toNat }
      else .raise .range)

/-- REPLRANGE: bits `right .. left` come from the low end of the replacement, the others stay (R121). -/
def Obligations.FieldReplacement : Prop :=
  encode .replrange = 0x1B000000#32 ∧
  ∀ s : State,
    let a := word s s.ports.a
    let left := s.ports.b
    let right := s.ports.c
    let result : BitVec s.params.rawBits := wordOf fun i =>
      if right.toNat ≤ i ∧ i ≤ left.toNat then (word s s.ports.d).getLsbD (i - right.toNat) else a.getLsbD i
    Ends s (exec .replrange s)
      (if left < s.params.rawBits ∧ 0 ≤ right ∧ right ≤ left then .ok { r0 := result.toInt } else .raise .range)

/-- ROTL and ROTR: inside the window bit `i` comes from `n` places below or above, around the edge; the bits above the
window pass through (R122, R123). -/
def Obligations.WindowRotations : Prop :=
  encode .rotl = 0x1C000000#32 ∧ encode .rotr = 0x1D000000#32 ∧
  ∀ s : State,
    let a := word s s.ports.a
    let n := s.ports.b.toNat
    let w := s.ports.c.toNat
    let legal : Prop := (1 ≤ s.ports.c ∧ s.ports.c ≤ s.params.rawBits) ∧ 0 ≤ s.ports.b
    let left : BitVec s.params.rawBits := wordOf fun i =>
      if i < w then a.getLsbD ((i + (w - n % w)) % w) else a.getLsbD i
    let right : BitVec s.params.rawBits := wordOf fun i => if i < w then a.getLsbD ((i + n) % w) else a.getLsbD i
    Ends s (exec .rotl s) (if legal then .ok { r0 := left.toInt } else .raise .range) ∧
    Ends s (exec .rotr s) (if legal then .ok { r0 := right.toInt } else .raise .range)

/-- ROTRSH answers what the parameter ROTRSH_FN says, for every value of it: under the default what ROTR answers to the
same operands, faults included; otherwise what is listed for the three operands, and what ROTR answers where nothing is
(R127, U10; log entry 11). -/
def Obligations.RotateRightShift : Prop :=
  encode .rotrsh = 0x21000000#32 ∧
  ∀ s : State,
    let a := word s s.ports.a
    let n := s.ports.b.toNat
    let w := s.ports.c.toNat
    let operands := (s.ports.a, s.ports.b, s.ports.c)
    let rotated : BitVec s.params.rawBits := wordOf fun i => if i < w then a.getLsbD ((i + n) % w) else a.getLsbD i
    let byDefault : Answer :=
      if (1 ≤ s.ports.c ∧ s.ports.c ≤ s.params.rawBits) ∧ 0 ≤ s.ports.b then .ok { r0 := rotated.toInt }
      else .raise .range
    (s.params.rotrshFn = .rotr → Ends s (exec .rotrsh s) byDefault) ∧
    (∀ rows, s.params.rotrshFn = .listed rows →
      (∀ (before after : List ((Int × Int × Int) × Answer)) (r : Answer),
        rows = before ++ (operands, r) :: after → (∀ row ∈ before, row.1 ≠ operands) → Ends s (exec .rotrsh s) r) ∧
      ((∀ row ∈ rows, row.1 ≠ operands) → Ends s (exec .rotrsh s) byDefault))

/-- The inverse pair: what ROTL answers, rotated right by the same count in the same window, is the value again (R123). -/
def Obligations.RotationsInverse : Prop :=
  ∀ (s t : State) (r : Results), exec .rotl s = .next t → t.response = some ⟨.ok, r⟩ →
    let s' : State := { s with ports := { s.ports with a := r.r0 } }
    Ends s' (exec .rotr s') (.ok { r0 := s.ports.a })

/-- SEXT: bit `startWidth-1` fills the bits `startWidth .. endWidth-1`, the others stay (R124). -/
def Obligations.SignExtension : Prop :=
  encode .sext = 0x1E000000#32 ∧
  ∀ s : State,
    let a := word s s.ports.a
    let b := s.ports.b.toNat
    let c := s.ports.c.toNat
    let result : BitVec s.params.rawBits := wordOf fun i => if b ≤ i ∧ i < c then a.getLsbD (b - 1) else a.getLsbD i
    Ends s (exec .sext s)
      (if 1 ≤ s.ports.b ∧ s.ports.b < s.ports.c ∧ s.ports.c ≤ s.params.rawBits then .ok { r0 := result.toInt }
      else .raise .range)

/-- SHRL and SHRA: the window shifted right, zeros or copies of its top bit entering (R125, R126). -/
def Obligations.WindowShifts : Prop :=
  encode .shrl = 0x1F000000#32 ∧ encode .shra = 0x20000000#32 ∧
  ∀ s : State,
    let n := s.ports.b.toNat
    let window := (word s s.ports.a).setWidth s.ports.c.toNat
    let legal : Prop := (1 ≤ s.ports.c ∧ s.ports.c ≤ s.params.rawBits) ∧ 0 ≤ s.ports.b
    Ends s (exec .shrl s) (if legal then .ok { r0 := (window >>> n).toNat } else .raise .range) ∧
    Ends s (exec .shra s) (if legal then .ok { r0 := (window.sshiftRight n).toNat } else .raise .range)

open Classical in
/-- PARSEB: a non-empty string of '0' and '1' whose value fits a raw value; an absent string is ARGUMENT, anything else
FORMAT (R128). That the digits are the bytes 0x30 and 0x31 is a passage the spec marks as general knowledge (G1; log
entry 14). -/
def Obligations.ParseBinary : Prop :=
  encode .parseb = 0x22000000#32 ∧
  ∀ s : State, Ends s (exec .parseb s)
    (match s.ports.sIn with
      | none => .raise .argument
      | some cs =>
        if cs ≠ [] ∧ Binary cs ∧ binaryValue cs < 2 ^ (s.params.rawBits - 1) then .ok { r0 := binaryValue cs }
        else .raise .format)

/-- RENDERB: a list of binary digits with the value of port A, of the pad width, or as short as the value allows where
that is longer; presented to PARSEB it gives the value back (R129). That the digits are the bytes 0x30 and 0x31 is a
passage the spec marks as general knowledge (G1; log entry 14). -/
def Obligations.RenderBinary : Prop :=
  encode .renderb = 0x23000000#32 ∧
  ∀ s : State,
    let a := s.ports.a
    let pad := s.ports.b
    if a < 0 then Ends s (exec .renderb s) (.raise .argument)
    else if pad < 0 ∨ s.params.sMax < pad then Ends s (exec .renderb s) (.raise .range)
    else ∃ cs : Str, Binary cs ∧ (binaryValue cs : Int) = a ∧
      cs.length = max pad.toNat (max 1 (Nat.size a.toNat)) ∧
      Ends s (exec .renderb s) (.ok { r0 := cs.length, rs := some cs }) ∧
      let s' : State := { s with ports := { s.ports with sIn := some cs } }
      Raw s.params a → Ends s' (exec .parseb s') (.ok { r0 := a })

/-! ## Long helper -/

/-- LHILO, LGETBIT, LSETBIT and LCLRBIT agree with the full value `hi * 2^32 + lo` (R140 to R144). -/
def Obligations.LongBits : Prop :=
  encode .lhilo = 0x28000000#32 ∧ encode .lgetbit = 0x29000000#32 ∧ encode .lsetbit = 0x2A000000#32 ∧
  encode .lclrbit = 0x2B000000#32 ∧
  ∀ s : State, SizesOk s.params →
    let a := s.ports.a
    let b := s.ports.b
    let n := s.ports.c
    let full := word s a <<< 32 ||| word s b
    let one := word s 1 <<< n.toNat
    let split (x : BitVec s.params.rawBits) : Answer := .ok { r0 := (x >>> 32).toNat, r1 := (x.setWidth 32).toNat }
    let legal : Prop :=
      (0 ≤ b ∧ b < 2 ^ 32) ∧ (0 ≤ a ∧ a < 2 ^ (s.params.rawBits - 33)) ∧ 0 ≤ n ∧ n < (s.params.rawBits : Int) - 1
    (Raw s.params a → Ends s (exec .lhilo s) (if 0 ≤ a then split (word s a) else .raise .range)) ∧
    (legal → Ends s (exec .lgetbit s) (.ok { r0 := flag (full.getLsbD n.toNat) }) ∧
      Ends s (exec .lsetbit s) (split (full ||| one)) ∧
      Ends s (exec .lclrbit s) (split (full &&& ~~~one))) ∧
    (¬ legal → Ends s (exec .lgetbit s) (.raise .range) ∧ Ends s (exec .lsetbit s) (.raise .range) ∧
      Ends s (exec .lclrbit s) (.raise .range))

/-- LCHUNK extracts a field of the full value, also across the boundary of the halves (R145). -/
def Obligations.LongField : Prop :=
  encode .lchunk = 0x2C000000#32 ∧
  ∀ s : State, SizesOk s.params →
    let a := s.ports.a
    let b := s.ports.b
    let left := s.ports.c
    let size := s.ports.d
    let full := word s a <<< 32 ||| word s b
    Ends s (exec .lchunk s)
      (if ((0 ≤ b ∧ b < 2 ^ 32) ∧ 0 ≤ a ∧ a < 2 ^ (s.params.rawBits - 33)) ∧
          (0 ≤ left ∧ left < (s.params.rawBits : Int) - 1) ∧ 0 < size ∧ size ≤ left + 1 then
        .ok { r0 := (full.extractLsb' (left + 1 - size).toNat size.toNat).toNat }
      else .raise .range)

/-! ## Policy arithmetic -/

/-- FIT: construction from a raw value under each policy, the unchecked one returning its input; NEG: the policy applied
to the exact negation, signed descriptors only (R152, R157, R150). -/
def Obligations.FitAndNegation : Prop :=
  ∀ (s : State) (pol : Policy),
    let a := s.ports.a
    (∀ d : Desc, d.wf s.params.wMax = true →
      (encode (.fit pol d)).toNat = 0x30000000 + policyCode pol * 2 ^ 21 + descWord d ∧
      Ends s (exec (.fit pol d) s)
        (if pol = .unchecked then .ok { r0 := a } else policyOutcome s.assertEn pol d a)) ∧
    (∀ w : Nat, Desc.wf s.params.wMax ⟨w, true⟩ = true →
      (encode (.neg pol w)).toNat = 0x35100000 + policyCode pol * 2 ^ 21 + w * 2 ^ 12 ∧
      Ends s (exec (.neg pol w) s)
        (if Valid ⟨w, true⟩ a then policyOutcome s.assertEn pol ⟨w, true⟩ (-a) else .unspecified))

/-- ADD, SUB and MUL: the policy applied to the exact sum, difference or product (R153 to R155, R150). -/
def Obligations.SumsAndProducts : Prop :=
  ∀ (s : State) (pol : Policy) (d : Desc), d.wf s.params.wMax = true →
    let a := s.ports.a
    let b := s.ports.b
    (encode (.add pol d)).toNat = 0x31000000 + policyCode pol * 2 ^ 21 + descWord d ∧
    (encode (.sub pol d)).toNat = 0x32000000 + policyCode pol * 2 ^ 21 + descWord d ∧
    (encode (.mul pol d)).toNat = 0x33000000 + policyCode pol * 2 ^ 21 + descWord d ∧
    Ends s (exec (.add pol d) s)
      (if Valid d a ∧ Valid d b then policyOutcome s.assertEn pol d (a + b) else .unspecified) ∧
    Ends s (exec (.sub pol d) s)
      (if Valid d a ∧ Valid d b then policyOutcome s.assertEn pol d (a - b) else .unspecified) ∧
    Ends s (exec (.mul pol d) s)
      (if Valid d a ∧ Valid d b then policyOutcome s.assertEn pol d (a * b) else .unspecified)

/-- POW and SHL: the policy applied to the exact power and to the exact product with a power of two, whatever the size
of the count; a negative count is RANGE (R156, R160, R150, R151). That 0^0 is 1 is a passage the spec marks as general
knowledge (G2; log entry 14). -/
def Obligations.PowersAndShifts : Prop :=
  ∀ (s : State) (pol : Policy) (d : Desc), d.wf s.params.wMax = true →
    let a := s.ports.a
    let n := s.ports.b.toNat
    (encode (.pow pol d)).toNat = 0x34000000 + policyCode pol * 2 ^ 21 + descWord d ∧
    (encode (.shl pol d)).toNat = 0x38000000 + policyCode pol * 2 ^ 21 + descWord d ∧
    Ends s (exec (.pow pol d) s)
      (if s.ports.b < 0 then .raise .range
      else if Valid d a then policyOutcome s.assertEn pol d (a ^ n)
      else .unspecified) ∧
    Ends s (exec (.shl pol d) s)
      (if s.ports.b < 0 then .raise .range
      else if Valid d a then policyOutcome s.assertEn pol d (a * 2 ^ n)
      else .unspecified)

/-- NPOW2 and NMULT: the policy applied to the least power of two, the least multiple of the second operand, that is at
least the first; operands that are not positive are unspecified (R158, R159, R150). That "next" means at or above is a
passage the spec marks as general knowledge (G3; log entry 14). -/
def Obligations.NextPowerAndMultiple : Prop :=
  ∀ (s : State) (pol : Policy) (d : Desc), d.wf s.params.wMax = true →
    let a := s.ports.a
    let b := s.ports.b
    (encode (.npow2 pol d)).toNat = 0x36000000 + policyCode pol * 2 ^ 21 + descWord d ∧
    (encode (.nmult pol d)).toNat = 0x37000000 + policyCode pol * 2 ^ 21 + descWord d ∧
    (∀ k : Nat, a ≤ 2 ^ k → (∀ j < k, (2 : Int) ^ j < a) →
      Ends s (exec (.npow2 pol d) s)
        (if Valid d a ∧ 0 < a then policyOutcome s.assertEn pol d (2 ^ k) else .unspecified)) ∧
    (∀ q : Int, a ≤ q * b → (q - 1) * b < a →
      Ends s (exec (.nmult pol d) s)
        (if Valid d a ∧ Valid d b ∧ 0 < a ∧ 0 < b then policyOutcome s.assertEn pol d (q * b)
        else .unspecified)) ∧
    (¬ (Valid d b ∧ 0 < b) → Ends s (exec (.nmult pol d) s) .unspecified)

/-- What a policy command answers on OK is a valid value of its descriptor (R150), FIT.unc apart (R152): the port carries
the policy's result whole. -/
def Obligations.PolicyResultsValid : Prop :=
  ∀ (s t : State) (r : Response) (i : Instr) (pol : Policy) (d : Desc),
    SizesOk s.params → d.wf s.params.wMax = true →
    (i = .fit pol d ∧ pol ≠ .unchecked) ∨ i = .add pol d ∨ i = .sub pol d ∨ i = .mul pol d ∨ i = .pow pol d ∨
      (i = .neg pol d.width ∧ d.signed = true) ∨ i = .npow2 pol d ∨ i = .nmult pol d ∨ i = .shl pol d →
    exec i s = .next t → t.response = some r → Determined s t → r.status = .ok → Valid d r.results.r0

/-! ## Descriptor bit operations -/

/-- BITS, NTHBIT, SETNTH and TOGNTH work on the `W`-bit pattern of the operand (R170 to R173, R189). -/
def Obligations.PatternBits : Prop :=
  ∀ (s : State) (d : Desc) (u : Bool), d.wf s.params.wMax = true →
    let a := s.ports.a
    let n := s.ports.b
    let p := patternOf d a
    let inside : Prop := 0 ≤ n ∧ n < d.width
    let one := 1#d.width <<< n.toNat
    (encode (.bits d)).toNat = 0x40000000 + descWord d ∧
    (encode (.nthbit d u)).toNat = 0x41000000 + descWord d + uncheckedWord u ∧
    (encode (.setnth d u)).toNat = 0x42000000 + descWord d + uncheckedWord u ∧
    (encode (.tognth d u)).toNat = 0x43000000 + descWord d + uncheckedWord u ∧
    Ends s (exec (.bits d) s) (if Valid d a then .ok { r0 := p.toNat } else .unspecified) ∧
    Ends s (exec (.nthbit d u) s) (boundedOutcome d u a inside { r0 := flag (p.getLsbD n.toNat) }) ∧
    Ends s (exec (.setnth d u) s) (boundedOutcome d u a inside { r0 := valueOf d (p ||| one) }) ∧
    Ends s (exec (.tognth d u) s) (boundedOutcome d u a inside { r0 := valueOf d (p ^^^ one) })

/-- CNT1 and CNT0 count the ones and the zeros of the pattern; CLO, CLZ, CTO and CTZ answer the largest run of equal
bits from its top or its bottom (R174 to R179). -/
def Obligations.BitCounts : Prop :=
  ∀ (s : State) (d : Desc), d.wf s.params.wMax = true →
    let a := s.ports.a
    let p := patternOf d a
    let w := d.width
    let fromTop (j : Nat) : Nat := w - 1 - j
    let fromBottom (j : Nat) : Nat := j
    (encode (.cnt1 d)).toNat = 0x44000000 + descWord d ∧
    (encode (.cnt0 d)).toNat = 0x45000000 + descWord d ∧
    (encode (.clo d)).toNat = 0x46000000 + descWord d ∧
    (encode (.clz d)).toNat = 0x47000000 + descWord d ∧
    (encode (.cto d)).toNat = 0x48000000 + descWord d ∧
    (encode (.ctz d)).toNat = 0x49000000 + descWord d ∧
    (Valid d a →
      Ends s (exec (.cnt1 d) s) (.ok { r0 := onesBelow w p }) ∧
      Ends s (exec (.cnt0 d) s) (.ok { r0 := onesBelow w (~~~p) }) ∧
      (∃ k : Nat, RunLength p true w fromTop k ∧ Ends s (exec (.clo d) s) (.ok { r0 := k })) ∧
      (∃ k : Nat, RunLength p false w fromTop k ∧ Ends s (exec (.clz d) s) (.ok { r0 := k })) ∧
      (∃ k : Nat, RunLength p true w fromBottom k ∧ Ends s (exec (.cto d) s) (.ok { r0 := k })) ∧
      (∃ k : Nat, RunLength p false w fromBottom k ∧ Ends s (exec (.ctz d) s) (.ok { r0 := k }))) ∧
    (¬ Valid d a → ∀ i ∈ [Instr.cnt1 d, .cnt0 d, .clo d, .clz d, .cto d, .ctz d], Ends s (exec i s) .unspecified)

/-- DCHUNK, DSLICE and DREPL: fields of the pattern, checked and unchecked (R180 to R182, R189). -/
def Obligations.PatternFields : Prop :=
  ∀ (s : State) (d : Desc) (u : Bool), d.wf s.params.wMax = true →
    let a := s.ports.a
    let left := s.ports.b
    let c := s.ports.c
    let p := patternOf d a
    let inside : Prop := 0 ≤ left ∧ left < d.width
    let replaced : BitVec d.width := wordOf fun i =>
      if c.toNat ≤ i ∧ i ≤ left.toNat then (patternOf d s.ports.d).getLsbD (i - c.toNat) else p.getLsbD i
    (encode (.dchunk d u)).toNat = 0x4A000000 + descWord d + uncheckedWord u ∧
    (encode (.dslice d u)).toNat = 0x4B000000 + descWord d + uncheckedWord u ∧
    (encode (.drepl d u)).toNat = 0x4C000000 + descWord d + uncheckedWord u ∧
    Ends s (exec (.dchunk d u) s)
      (boundedOutcome d u a (inside ∧ 0 < c ∧ c ≤ left + 1)
        { r0 := (p.extractLsb' (left + 1 - c).toNat c.toNat).toNat }) ∧
    Ends s (exec (.dslice d u) s)
      (boundedOutcome d u a (inside ∧ 0 ≤ c ∧ c ≤ left) { r0 := (p.extractLsb' c.toNat (left + 1 - c).toNat).toNat }) ∧
    (SizesOk s.params → Ends s (exec (.drepl d u) s)
      (boundedOutcome d u a (inside ∧ 0 ≤ c ∧ c ≤ left) { r0 := valueOf d replaced }))

/-- DROTL, DROTR and DSEXT: rotation within the width, and sign extension of a narrow field up to the width (R183 to
R185). -/
def Obligations.PatternRotations : Prop :=
  ∀ (s : State) (d : Desc), d.wf s.params.wMax = true →
    let a := s.ports.a
    let n := s.ports.b
    let p := patternOf d a
    (encode (.drotl d)).toNat = 0x4D000000 + descWord d ∧
    (encode (.drotr d)).toNat = 0x4E000000 + descWord d ∧
    (encode (.dsext d)).toNat = 0x4F000000 + descWord d ∧
    Ends s (exec (.drotl d) s)
      (if n < 0 then .raise .range
      else if Valid d a then .ok { r0 := valueOf d (p.rotateLeft n.toNat) } else .unspecified) ∧
    Ends s (exec (.drotr d) s)
      (if n < 0 then .raise .range
      else if Valid d a then .ok { r0 := valueOf d (p.rotateRight n.toNat) } else .unspecified) ∧
    Ends s (exec (.dsext d) s)
      (if 1 ≤ n ∧ n < d.width then
        if Valid d a then .ok { r0 := valueOf d ((p.setWidth n.toNat).signExtend d.width) } else .unspecified
      else .raise .range)

/-- HILO splits the pattern at half the width, FROMHILO joins two halves, and the halves of a valid value joined again
are the value (R186, R187). -/
def Obligations.Halves : Prop :=
  ∀ (s : State) (d : Desc), d.wf s.params.wMax = true → d.width % 2 = 0 →
    let a := s.ports.a
    let b := s.ports.b
    let h := d.width / 2
    let p := patternOf d a
    (encode (.hilo d)).toNat = 0x50000000 + descWord d ∧
    (encode (.fromhilo d)).toNat = 0x51000000 + descWord d ∧
    Ends s (exec (.hilo d) s)
      (if Valid d a then .ok { r0 := (p.extractLsb' h h).toNat, r1 := (p.extractLsb' 0 h).toNat } else .unspecified) ∧
    Ends s (exec (.fromhilo d) s)
      (if (0 ≤ a ∧ a < 2 ^ h) ∧ 0 ≤ b ∧ b < 2 ^ h then .ok { r0 := valueOf d (p <<< h ||| patternOf d b) }
      else .raise .range) ∧
    (∀ (t : State) (r : Results), SizesOk s.params → Valid d a → exec (.hilo d) s = .next t →
      t.response = some ⟨.ok, r⟩ →
      let s' : State := { s with ports := { s.ports with a := r.r0, b := r.r1 } }
      Ends s' (exec (.fromhilo d) s') (.ok { r0 := a }))

/-! ## Descriptor math and comparisons -/

/-- SQRT: the largest number whose square is at most the operand; a negative one fails its precondition (R200, R212). -/
def Obligations.SquareRoot : Prop :=
  ∀ (s : State) (d : Desc), d.wf s.params.wMax = true →
    let a := s.ports.a
    (encode (.sqrt d)).toNat = 0x52000000 + descWord d ∧
    (∀ r : Nat, (r : Int) * r ≤ a → a < (r + 1) * (r + 1) → Valid d a → Ends s (exec (.sqrt d) s) (.ok { r0 := r })) ∧
    (a < 0 → Valid d a → Ends s (exec (.sqrt d) s) (if s.assertEn then .raise .assertion else .unspecified)) ∧
    (¬ Valid d a → Ends s (exec (.sqrt d) s) .unspecified)

/-- LOG, LOG2 and LOG10: the largest power of the base that is at most the operand; an operand that is not positive or a
base below 2 fails its precondition (R201 to R203, R212). -/
def Obligations.Logarithms : Prop :=
  ∀ (s : State) (d : Desc), d.wf s.params.wMax = true →
    let a := s.ports.a
    let fails : Answer := if s.assertEn then .raise .assertion else .unspecified
    (encode (.log d)).toNat = 0x53000000 + descWord d ∧
    (encode (.log2 d)).toNat = 0x54000000 + descWord d ∧
    (encode (.log10 d)).toNat = 0x55000000 + descWord d ∧
    (∀ (i : Instr) (base : Int), (i = .log d ∧ base = s.ports.b) ∨ (i = .log2 d ∧ base = 2) ∨
        (i = .log10 d ∧ base = 10) →
      (∀ k : Nat, 2 ≤ base → base ^ k ≤ a → a < base ^ (k + 1) → Valid d a → Ends s (exec i s) (.ok { r0 := k })) ∧
      (a ≤ 0 ∨ base < 2 → Valid d a → Ends s (exec i s) fails) ∧
      (¬ Valid d a → Ends s (exec i s) .unspecified))

/-- MIDPT: the exact average where the sum is even; where it is odd, the number below or above it that the parameter
MIDPT_ROUND names: toward minus infinity under the default, toward zero, or toward the first operand (R204, U11; log
entry 13). -/
def Obligations.Midpoint : Prop :=
  ∀ (s : State) (d : Desc), d.wf s.params.wMax = true →
    let a := s.ports.a
    let b := s.ports.b
    (encode (.midpt d)).toNat = 0x56000000 + descWord d ∧
    (¬ (Valid d a ∧ Valid d b) → Ends s (exec (.midpt d) s) .unspecified) ∧
    (Valid d a → Valid d b →
      (∀ m : Int, 2 * m = a + b → Ends s (exec (.midpt d) s) (.ok { r0 := m })) ∧
      (∀ m : Int, 2 * m + 1 = a + b → Ends s (exec (.midpt d) s)
        (.ok { r0 := match s.params.midptRound with
          | .floor => m
          | .trunc => if a + b < 0 then m + 1 else m
          | .towardFirst => if a < b then m else m + 1 })))

/-- CLAMP: the operand limited to the interval of the other two; an empty interval is ARGUMENT, before the operands'
validity is looked at (R205). What clamping means is a passage the spec marks as general knowledge (G4; log entry 14). -/
def Obligations.ClampToInterval : Prop :=
  ∀ (s : State) (d : Desc), d.wf s.params.wMax = true →
    let a := s.ports.a
    let lo := s.ports.b
    let hi := s.ports.c
    (encode (.clamp d)).toNat = 0x57000000 + descWord d ∧
    Ends s (exec (.clamp d) s)
      (if hi < lo then .raise .argument
      else if Valid d a ∧ Valid d lo ∧ Valid d hi then .ok { r0 := if a < lo then lo else if hi < a then hi else a }
      else .unspecified)

/-- REM and MOD: the remainder with the sign of the dividend and the remainder that is never negative; a zero divisor is
DIVZERO, before the operands' validity is looked at (R206, R207). -/
def Obligations.Remainders : Prop :=
  ∀ (s : State) (d : Desc), d.wf s.params.wMax = true →
    let a := s.ports.a
    let b := s.ports.b
    let valid : Prop := Valid d a ∧ Valid d b
    (encode (.rem d)).toNat = 0x58000000 + descWord d ∧
    (encode (.mod d)).toNat = 0x59000000 + descWord d ∧
    (b = 0 → Ends s (exec (.rem d) s) (.raise .divzero) ∧ Ends s (exec (.mod d) s) (.raise .divzero)) ∧
    (b ≠ 0 → ¬ valid → Ends s (exec (.rem d) s) .unspecified ∧ Ends s (exec (.mod d) s) .unspecified) ∧
    (b ≠ 0 → valid → ∀ r : Int, b ∣ a - r → |r| < |b| →
      ((0 ≤ a ∧ 0 ≤ r) ∨ (a ≤ 0 ∧ r ≤ 0) → Ends s (exec (.rem d) s) (.ok { r0 := r })) ∧
      (0 ≤ r → Ends s (exec (.mod d) s) (.ok { r0 := r })))

/-- CMPLT, CMPLE, CMPGT and CMPGE order two valid values as their patterns are ordered, read as two's complement or as
unsigned according to the descriptor (R208 to R211). -/
def Obligations.Comparisons : Prop :=
  ∀ (s : State) (d : Desc), d.wf s.params.wMax = true →
    let a := s.ports.a
    let b := s.ports.b
    let below (x y : BitVec d.width) : Bool := if d.signed then x.slt y else x.ult y
    let compared (p : Bool) : Answer := if Valid d a ∧ Valid d b then .ok { r0 := flag p } else .unspecified
    (encode (.cmplt d)).toNat = 0x60000000 + descWord d ∧
    (encode (.cmple d)).toNat = 0x61000000 + descWord d ∧
    (encode (.cmpgt d)).toNat = 0x62000000 + descWord d ∧
    (encode (.cmpge d)).toNat = 0x63000000 + descWord d ∧
    Ends s (exec (.cmplt d) s) (compared (below (patternOf d a) (patternOf d b))) ∧
    Ends s (exec (.cmple d) s) (compared (!below (patternOf d b) (patternOf d a))) ∧
    Ends s (exec (.cmpgt d) s) (compared (below (patternOf d b) (patternOf d a))) ∧
    Ends s (exec (.cmpge d) s) (compared (!below (patternOf d a) (patternOf d b)))

/-! ## Bitwise operators -/

/-- AND, OR, XOR and NOT work on the `W`-bit patterns and answer the value of a `W`-bit pattern (R220 to R224). -/
def Obligations.BitwiseOperators : Prop :=
  ∀ (s : State) (d : Desc), d.wf s.params.wMax = true →
    let a := s.ports.a
    let b := s.ports.b
    let both (p : BitVec d.width) : Answer :=
      if Valid d a ∧ Valid d b then .ok { r0 := valueOf d p } else .unspecified
    (encode (.and d)).toNat = 0x64000000 + descWord d ∧
    (encode (.or d)).toNat = 0x65000000 + descWord d ∧
    (encode (.xor d)).toNat = 0x66000000 + descWord d ∧
    (encode (.not d)).toNat = 0x67000000 + descWord d ∧
    Ends s (exec (.and d) s) (both (patternOf d a &&& patternOf d b)) ∧
    Ends s (exec (.or d) s) (both (patternOf d a ||| patternOf d b)) ∧
    Ends s (exec (.xor d) s) (both (patternOf d a ^^^ patternOf d b)) ∧
    Ends s (exec (.not d) s)
      (if Valid d a then .ok { r0 := valueOf d (~~~patternOf d a) } else .unspecified)

/-- OSHL, OSHR and OSHRU: the left shift that loses bits, the right shift of the value (its sign entering) and the right
shift of the pattern (zeros entering), for every count; a negative count is RANGE (R225 to R227). -/
def Obligations.ShiftOperators : Prop :=
  ∀ (s : State) (d : Desc), d.wf s.params.wMax = true →
    let p := patternOf d s.ports.a
    let n := s.ports.b.toNat
    let shifted (q : BitVec d.width) : Answer :=
      if s.ports.b < 0 then .raise .range
      else if Valid d s.ports.a then .ok { r0 := valueOf d q } else .unspecified
    (encode (.oshl d)).toNat = 0x68000000 + descWord d ∧
    (encode (.oshr d)).toNat = 0x69000000 + descWord d ∧
    (encode (.oshru d)).toNat = 0x6A000000 + descWord d ∧
    Ends s (exec (.oshl d) s) (shifted (p <<< n)) ∧
    Ends s (exec (.oshr d) s) (shifted (if d.signed then p.sshiftRight n else p >>> n)) ∧
    Ends s (exec (.oshru d) s) (shifted (p >>> n))

/-! ## System commands -/

/-- CSRR reads DBGCTL and PBSTAT, CSRW writes bit 0 of DBGCTL and nothing else; a CSR number R90 does not allow raises
ILLEGAL (R260, R261, R34 to R36). -/
def Obligations.ControlRegisters : Prop :=
  (∀ imm : BitVec 12, (encode (.csrr imm)).toNat = 0x01000000 + imm.toNat ∧
    (encode (.csrw imm)).toNat = 0x02000000 + imm.toNat) ∧
  ∀ (s : State) (imm : BitVec 12),
    Ends s (exec (.csrr imm) s)
      (if imm = 0 then .ok { r0 := flag s.assertEn }
      else if imm = 1 then .ok { r0 := flag (decide (s.phase = .built)) + 2 ^ 8 * s.parts.length }
      else .raise .illegal) ∧
    (imm = 0 → Ends { s with assertEn := (word s s.ports.a).getLsbD 0 } (exec (.csrw imm) s) (.ok {})) ∧
    (imm ≠ 0 → Ends s (exec (.csrw imm) s) (.raise .illegal))

/-! ## Pattern engine -/

/-- PBNEW gives a fresh builder; PBFIX and PBVAR append one part and answer the new count, or raise STATE, ARGUMENT,
STATE in that order (R233 to R235, R230). -/
def Obligations.BuilderCommands : Prop :=
  encode .pbnew = 0x70000000#32 ∧ encode .pbfix = 0x71000000#32 ∧ encode .pbvar = 0x72000000#32 ∧
  ∀ s : State,
    let a := s.ports.a
    let count : Results := { r0 := s.parts.length + 1 }
    let full : Prop := s.parts.length = s.params.pbMax
    Ends { s with phase := .building, parts := [] } (exec .pbnew s) (.ok {}) ∧
    (s.phase = .built → Ends s (exec .pbfix s) (.raise .state) ∧ Ends s (exec .pbvar s) (.raise .state)) ∧
    (s.phase = .building →
      (a ≠ 0 ∧ a ≠ 1 → Ends s (exec .pbfix s) (.raise .argument)) ∧
      (a < 1 → Ends s (exec .pbvar s) (.raise .argument)) ∧
      (full → (a = 0 ∨ a = 1 → Ends s (exec .pbfix s) (.raise .state)) ∧
        (1 ≤ a → Ends s (exec .pbvar s) (.raise .state))) ∧
      (¬ full → (∀ b : Bool, a = flag b →
          Ends { s with parts := s.parts ++ [.fixed b] } (exec .pbfix s) (.ok count)) ∧
        (1 ≤ a → Ends { s with parts := s.parts ++ [.var a.toNat s.ports.sIn] } (exec .pbvar s) (.ok count))))

/-- PBBUILD: its checks in their order, and on success the record it writes: mask and compare value as the parts say of
each bit, the captures in declaration order, the total width and the name, with the builder ended and every other slot as
it was (R236, R232). -/
def Obligations.BuildPattern : Prop :=
  encode .pbbuild = 0x73000000#32 ∧
  ∀ s : State,
    let a := s.ports.a
    let slot := slotAt s.params.nPat s.pt a
    (s.phase = .built → Ends s (exec .pbbuild s) (.raise .state)) ∧
    (s.phase = .building → slot = none → Ends s (exec .pbbuild s) (.raise .range)) ∧
    (s.phase = .building → slot ≠ none → 32 < (bitsOf s.parts).length → Ends s (exec .pbbuild s) (.raise .state)) ∧
    (s.phase = .building → (∃ p, slot = some (some p)) → Ends s (exec .pbbuild s) (.raise .state)) ∧
    (s.phase = .building → slot = some none → (bitsOf s.parts).length ≤ 32 →
      ∃ (p : Pattern) (table : Table Pattern),
        (∀ i < 32, p.mask.getLsbD i = (literalAt s.parts i).isSome ∧
          p.cmp.getLsbD i = decide (literalAt s.parts i = some true)) ∧
        p.tw = (bitsOf s.parts).length ∧ p.caps = capturesOf s.parts ∧ p.name = s.ports.sIn ∧
        WrittenAt s.pt table a.toNat p ∧
        Ends { s with pt := table, phase := .built } (exec .pbbuild s)
          (.ok { r0 := p.mask.toNat, r1 := p.cmp.toNat, r2 := specificity p }))

/-- From parts to a match: right after a successful PBBUILD, PTMATCH on that slot answers 1 for exactly the candidates
whose bits are the literals of the fixed parts, each at its place (R232, R236, R237, R293). -/
def Obligations.BuiltPatternMatchesItsParts : Prop :=
  ∀ (s t : State) (r : Results) (ports : Ports), exec .pbbuild s = .next t → t.response = some ⟨.ok, r⟩ →
    ports.a = s.ports.a →
    ∃ yes : Bool,
      (yes = true ↔ ∀ (i : Nat) (b : Bool), literalAt s.parts i = some b → (word s ports.b).getLsbD i = b) ∧
      Ends { t with ports := ports } (exec .ptmatch { t with ports := ports }) (.ok { r0 := flag yes })

open Classical in
/-- PTMATCH tests the candidate under the mask, PTCAPT extracts every captured field in declaration order; a slot number
outside the table is RANGE, an invalid slot STATE, never a fault because of the candidate (R237, R238, R272). -/
def Obligations.MatchAndCapture : Prop :=
  encode .ptmatch = 0x74000000#32 ∧ encode .ptcapt = 0x75000000#32 ∧
  ∀ s : State,
    let cand : PatWord := (word s s.ports.b).setWidth 32
    let onSlot := slotOutcome s.params.nPat s.pt s.ports.a
    Ends s (exec .ptmatch s) (onSlot fun p => .ok { r0 := flag (decide (Matches p (word s s.ports.b))) }) ∧
    Ends s (exec .ptcapt s)
      (onSlot fun p =>
        .ok { r0 := p.caps.length,
              rv := some (p.caps.map fun c => ((cand.extractLsb' (c.left + 1 - c.size) c.size).toNat : Int)) })

/-- PTINFO, PTCSPEC and PTCMP read the records back and compare them by the number of fixed bits (R239 to R241). -/
def Obligations.PatternInfo : Prop :=
  encode .ptinfo = 0x76000000#32 ∧ encode .ptcspec = 0x77000000#32 ∧ encode .ptcmp = 0x78000000#32 ∧
  ∀ s : State, UnitInv s →
    let n := s.params.nPat
    let onSlot := slotOutcome n s.pt s.ports.a
    let index := s.ports.b
    Ends s (exec .ptinfo s)
      (onSlot fun p =>
        .ok { r0 := p.mask.toNat, r1 := p.cmp.toNat, r2 := specificity p, r3 := p.tw, rs := p.name,
              rv := some (p.caps.map fun c => ((captureMask c).toNat : Int)) }) ∧
    Ends s (exec .ptcspec s)
      (onSlot fun p =>
        match if 0 ≤ index then p.caps[index.toNat]? else none with
        | none => .raise .range
        | some c => .ok { r0 := c.left, r1 := c.size, r2 := (captureMask c).toNat, rs := c.name }) ∧
    Ends s (exec .ptcmp s)
      (match slotAt n s.pt s.ports.a, slotAt n s.pt index with
        | some (some p), some (some q) =>
          .ok { r0 := if specificity q < specificity p then -1 else if specificity p = specificity q then 0 else 1 }
        | none, _ => .raise .range
        | _, none => .raise .range
        | _, _ => .raise .state)

/-- PGMAKE: its faults in their order, and on success a group whose members are those of the list, by descending
specificity; under the default TIE_ORDER members of equal specificity keep their order in the list, under any other value
of the parameter that only reorders they come as it says (R242, U9; log entry 12). -/
def Obligations.MakeGroup : Prop :=
  encode .pgmake = 0x79000000#32 ∧
  ∀ s : State,
    let group := slotAt s.params.nGrp s.gt s.ports.a
    let pattern (x : Int) := slotAt s.params.nPat s.pt x
    let valid (x : Int) : Prop := ∃ p, pattern x = some (some p)
    (group = none → Ends s (exec .pgmake s) (.raise .range)) ∧
    (group ≠ none →
      (s.ports.v = none ∨ s.ports.v = some [] → Ends s (exec .pgmake s) (.raise .argument)) ∧
      ∀ xs : List Int, s.ports.v = some xs → xs ≠ [] →
        (s.params.gMax < xs.length → Ends s (exec .pgmake s) (.raise .argument)) ∧
        (xs.length ≤ s.params.gMax →
          (∀ (ys : List Int) (x : Int) (zs : List Int), xs = ys ++ x :: zs → (∀ y ∈ ys, valid y) →
            (pattern x = none → Ends s (exec .pgmake s) (.raise .range)) ∧
            (pattern x = some none → Ends s (exec .pgmake s) (.raise .state))) ∧
          ((∀ x ∈ xs, valid x) →
            ((∃ r, group = some (some r)) → Ends s (exec .pgmake s) (.raise .state)) ∧
            (group = some none → ParamsOk s.params →
              ∃ (ms tied : List Nat) (table : Table GroupRecord),
                let rank (m : Nat) : Option Nat := (recordAt s.pt m).map specificity
                (ms.map Int.ofNat).Perm xs ∧
                (ms.Pairwise fun m n => ∀ j k, rank m = some j → rank n = some k → k ≤ j) ∧
                (∀ k, ms.filter (fun m => rank m = some k) = tied.filter fun m => rank m = some k) ∧
                (match s.params.tieOrder with
                  | .stable => (tied.map Int.ofNat) = xs
                  | .listed rows => tied = (rows.lookup (xs.map Int.toNat)).getD (xs.map Int.toNat)) ∧
                WrittenAt s.gt table s.ports.a.toNat ⟨ms⟩ ∧
                Ends { s with gt := table } (exec .pgmake s)
                  (.ok { r0 := xs.length, rv := some (ms.map Int.ofNat) })))))

/-- PGMATCH answers the first member whose pattern matches, with its position, or no value; PGINFO shows the members in
that order (R243, R244). -/
def Obligations.MatchGroup : Prop :=
  encode .pgmatch = 0x7A000000#32 ∧ encode .pginfo = 0x7B000000#32 ∧
  ∀ s : State, UnitInv s →
    let group := slotAt s.params.nGrp s.gt s.ports.a
    let hit (m : Nat) : Prop := ∃ p, recordAt s.pt m = some p ∧ Matches p (word s s.ports.b)
    (group = none → Ends s (exec .pgmatch s) (.raise .range) ∧ Ends s (exec .pginfo s) (.raise .range)) ∧
    (group = some none → Ends s (exec .pgmatch s) (.raise .state) ∧ Ends s (exec .pginfo s) (.raise .state)) ∧
    (∀ r : GroupRecord, group = some (some r) →
      (∀ (ms : List Nat) (m : Nat) (ns : List Nat), r.members = ms ++ m :: ns → (∀ k ∈ ms, ¬ hit k) → hit m →
        Ends s (exec .pgmatch s) (.ok { r0 := m, r1 := ms.length })) ∧
      ((∀ m ∈ r.members, ¬ hit m) → Ends s (exec .pgmatch s) .novalue) ∧
      Ends s (exec .pginfo s)
        (.ok { r0 := r.members.length, rv := some (r.members.map Int.ofNat) }))
end

