-- ==== Sys2Proof/Laws/Numbers.lean ====
section
/-! SUPPORT. What the arithmetic of Machine/Numbers.lean computes: the links between its integers and the bits of a
word, and the specification of each search and each folded product. -/

namespace Sys2Proof.Machine.Laws

/-! ## Bits -/

theorem two_pow_pos (n : Nat) : (0 : Int) < 2 ^ n := by positivity

/-- The arithmetic shift is the floor division of R7. -/
theorem floorShift_eq_div (v : Int) (n : Nat) : floorShift v n = v / 2 ^ n := by
  simp [floorShift, Int.shiftRight_eq_div_pow]

theorem bit_eq_zero_or_one (v : Int) (n : Nat) : bit v n = 0 ∨ bit v n = 1 := by
  unfold bit; omega

theorem low_nonneg (v : Int) (n : Nat) : 0 ≤ low v n := Int.emod_nonneg _ (two_pow_pos n).ne'

theorem low_lt (v : Int) (n : Nat) : low v n < 2 ^ n := Int.emod_lt_of_pos _ (two_pow_pos n)

theorem low_eq_self {v : Int} {n : Nat} (h₀ : 0 ≤ v) (h₁ : v < 2 ^ n) : low v n = v := Int.emod_eq_of_lt h₀ h₁

/-- The bit of a natural number, as Lean's `testBit`. -/
theorem bit_natCast (m n : Nat) : bit (m : Int) n = if m.testBit n then 1 else 0 := by
  unfold bit
  have h : ((m : Int) / 2 ^ n % 2) = ((m / 2 ^ n % 2 : Nat) : Int) := by push_cast; rfl
  rw [h, Nat.testBit_eq_decide_div_mod_eq]
  rcases Nat.mod_two_eq_zero_or_one (m / 2 ^ n) with h' | h' <;> simp [h']

/-- Adding a multiple of `2^w` does not change the bits below `w`. -/
theorem bit_add_mul {v q : Int} {w n : Nat} (h : n < w) : bit (v + 2 ^ w * q) n = bit v n := by
  obtain ⟨k, rfl⟩ : ∃ k, w = n + 1 + k := ⟨w - (n + 1), by omega⟩
  have e : v + 2 ^ (n + 1 + k) * q = v + 2 ^ n * (2 * (2 ^ k * q)) := by ring
  unfold bit
  rw [e, Int.add_mul_ediv_left _ _ (two_pow_pos n).ne']
  omega

/-- The bits below `w` do not depend on what is dropped at and above `w`. -/
theorem bit_low {v : Int} {w n : Nat} (h : n < w) : bit (low v w) n = bit v n := by
  conv_rhs => rw [← Int.emod_add_mul_ediv v (2 ^ w)]
  exact (bit_add_mul h).symm

/-- A number of `w` bits has no bit at or above `w`. -/
theorem bit_eq_zero {v : Int} {w n : Nat} (h₀ : 0 ≤ v) (h₁ : v < 2 ^ w) (h : w ≤ n) : bit v n = 0 := by
  have : v < 2 ^ n := lt_of_lt_of_le h₁ (pow_le_pow_right₀ (by norm_num) h)
  simp [bit, Int.ediv_eq_zero_of_lt h₀ this]

/-- Dropping the lower `k` bits moves the others down. -/
theorem bit_div (v : Int) (k n : Nat) : bit (v / 2 ^ k) n = bit v (k + n) := by
  unfold bit
  rw [Int.ediv_ediv_of_nonneg (two_pow_pos k).le, pow_add]

/-- Multiplying by `2^k` moves the bits up. -/
theorem bit_mul_pow (v : Int) (k n : Nat) : bit (v * 2 ^ k) (k + n) = bit v n := by
  rw [← bit_div, Int.mul_ediv_cancel _ (two_pow_pos k).ne']

/-- Multiplying by `2^k` leaves zeros below `k`. -/
theorem bit_mul_pow_of_lt (v : Int) {k n : Nat} (h : n < k) : bit (v * 2 ^ k) n = 0 := by
  have := bit_add_mul (v := 0) (q := v) h
  rw [zero_add, mul_comm] at this
  rw [this]; simp [bit]

/-! ## Words (R8) -/

/-- The word of `n` bits of any number, read as unsigned. -/
theorem toNat_ofInt (n : Nat) (x : Int) : ((BitVec.ofInt n x).toNat : Int) = low x n := by
  rw [BitVec.toNat_ofInt, low]
  push_cast
  exact Int.toNat_of_nonneg (Int.emod_nonneg _ (two_pow_pos n).ne')

/-- The bits of the word of any number. -/
theorem ofInt_bit (n : Nat) (x : Int) (i : Nat) : (BitVec.ofInt n x).getLsbD i = decide (i < n ∧ bit x i = 1) := by
  by_cases hi : i < n
  · have h := bit_natCast (BitVec.ofInt n x).toNat i
    rw [toNat_ofInt, bit_low hi, BitVec.testBit_toNat] at h
    cases hb : (BitVec.ofInt n x).getLsbD i <;> simp [hb] at h <;> simp [h, hi]
  · rw [BitVec.getLsbD_of_ge _ _ (by omega)]; simp [hi]

/-- The bits of `u(v)`. -/
theorem bit_uword (n : Nat) (x : Int) (i : Nat) :
    bit (uword n x) i = if (BitVec.ofInt n x).getLsbD i then 1 else 0 := by
  rw [uword, ← toNat_ofInt, bit_natCast, BitVec.testBit_toNat]

theorem uword_nonneg (n : Nat) (x : Int) : 0 ≤ uword n x := low_nonneg _ _

theorem uword_lt (n : Nat) (x : Int) : uword n x < 2 ^ n := low_lt _ _

/-- `raw(x)` is the word of `x` read as a signed number. -/
theorem raw_eq (n : Nat) (x : Int) : raw n x = (BitVec.ofInt n x).toInt := by
  rw [raw, ← toNat_ofInt]
  generalize BitVec.ofInt n x = p
  rcases n with _ | k
  · obtain rfl : p = 0#0 := BitVec.eq_of_getLsbD_eq (by simp)
    rfl
  · rw [sext, BitVec.toInt_eq_toNat_cond]
    have e : (2 : Nat) ^ (k + 1) = 2 * 2 ^ k := by rw [pow_succ, mul_comm]
    have c : (2 : Int) ^ (k + 1 - 1) = ((2 ^ k : Nat) : Int) := by push_cast; rfl
    rw [c]
    split <;> split <;> push_cast <;> omega

/-- Only the low `n` bits of a number reach a port. -/
theorem raw_congr {n : Nat} {x y : Int} (h : low x n = low y n) : raw n x = raw n y := by
  rw [raw, h, raw]

/-- A port gives back every number of RAW. -/
theorem raw_of_isRaw {n : Nat} (hn : 1 ≤ n) {x : Int} (h : IsRaw n x) : raw n x = x := by
  obtain ⟨k, rfl⟩ : ∃ k, n = k + 1 := ⟨n - 1, by omega⟩
  obtain ⟨h₀, h₁⟩ := h
  rw [Nat.add_sub_cancel] at h₀ h₁
  have hp := two_pow_pos k
  rw [raw, low, sext, Nat.add_sub_cancel, pow_succ]
  rcases lt_or_ge x 0 with hx | hx
  · rw [Int.emod_eq_add_self_emod, Int.emod_eq_of_lt (by omega) (by omega), if_pos (by omega)]; omega
  · rw [Int.emod_eq_of_lt hx (by omega), if_neg (by omega)]

/-- What a port carries is a number of RAW. -/
theorem raw_isRaw {n : Nat} (hn : 1 ≤ n) (x : Int) : IsRaw n (raw n x) := by
  obtain ⟨k, rfl⟩ : ∃ k, n = k + 1 := ⟨n - 1, by omega⟩
  have h₀ := low_nonneg x (k + 1)
  have h₁ := low_lt x (k + 1)
  rw [pow_succ] at h₁
  rw [IsRaw, raw, sext, Nat.add_sub_cancel, pow_succ]
  split <;> omega

/-- A number reaches a port as the word with its bits. -/
theorem raw_eq_of_bits {n : Nat} {v : Int} {x : BitVec n} (h : ∀ i < n, bit v i = if x.getLsbD i then 1 else 0) :
    raw n v = x.toInt := by
  rw [raw_eq]
  congr 1
  apply BitVec.eq_of_getLsbD_eq
  intro i hi
  rw [ofInt_bit, h i hi]
  cases x.getLsbD i <;> simp [hi]

/-! ## Single bits -/

/-- Changing bit `n` alone: what is added at `2^n` shows in bit `n` and nowhere else. -/
theorem bit_add_at {v c : Int} {n : Nat} (h : bit v n + c = 0 ∨ bit v n + c = 1) (i : Nat) :
    bit (v + c * 2 ^ n) i = if i = n then bit v n + c else bit v i := by
  have hx : v + c * 2 ^ n = v % 2 ^ n + 2 ^ n * (v / 2 ^ n + c) := by
    conv_lhs => rw [← Int.emod_add_mul_ediv v (2 ^ n)]
    ring
  have hd : (v + c * 2 ^ n) / 2 ^ n = v / 2 ^ n + c := Int.add_mul_ediv_right _ _ (two_pow_pos n).ne'
  split
  · next e => subst e; unfold bit at h ⊢; rw [hd]; omega
  · next e =>
    rcases Nat.lt_or_gt_of_ne e with hlt | hgt
    · rw [mul_comm, bit_add_mul hlt]
    · obtain ⟨j, rfl⟩ : ∃ j, i = n + (1 + j) := ⟨i - (n + 1), by omega⟩
      rw [← bit_div, ← bit_div v, hd, ← bit_div, ← bit_div (v / 2 ^ n)]
      congr 1
      unfold bit at h
      omega

theorem bit_setBitAt (v : Int) (n i : Nat) : bit (setBitAt v n) i = if i = n then 1 else bit v i := by
  unfold setBitAt
  rw [bit_add_at (by omega)]
  simp

theorem bit_clrBitAt (v : Int) (n i : Nat) : bit (clrBitAt v n) i = if i = n then 0 else bit v i := by
  have e : clrBitAt v n = v + (-bit v n) * 2 ^ n := by unfold clrBitAt; ring
  rw [e, bit_add_at (by omega)]
  simp

theorem bit_togBitAt (v : Int) (n i : Nat) : bit (togBitAt v n) i = if i = n then 1 - bit v n else bit v i := by
  unfold togBitAt
  rcases bit_eq_zero_or_one v n with h | h
  · have := bit_add_at (v := v) (c := 1) (n := n) (by omega) i
    simp only [one_mul] at this
    simp [h, this]
  · have := bit_add_at (v := v) (c := -1) (n := n) (by omega) i
    simp only [neg_mul, one_mul, ← sub_eq_add_neg] at this
    simp [h, this]

theorem setBitAt_eq (v : Int) (n : Nat) : setBitAt v n = if bit v n = 1 then v else v + 2 ^ n := by
  unfold setBitAt
  rcases bit_eq_zero_or_one v n with h | h <;> simp [h]

theorem clrBitAt_eq (v : Int) (n : Nat) : clrBitAt v n = if bit v n = 1 then v - 2 ^ n else v := by
  unfold clrBitAt
  rcases bit_eq_zero_or_one v n with h | h <;> simp [h]

/-! ## Numbers from their bits -/

/-- Two numbers of `w` bits with the same bits are equal. -/
theorem eq_of_bits {w : Nat} {x y : Int} (hx₀ : 0 ≤ x) (hx₁ : x < 2 ^ w) (hy₀ : 0 ≤ y) (hy₁ : y < 2 ^ w)
    (h : ∀ i < w, bit x i = bit y i) : x = y := by
  obtain ⟨m, rfl⟩ := Int.eq_ofNat_of_zero_le hx₀
  obtain ⟨n, rfl⟩ := Int.eq_ofNat_of_zero_le hy₀
  congr 1
  apply Nat.eq_of_testBit_eq
  intro i
  by_cases hi : i < w
  · have := h i hi
    rw [bit_natCast, bit_natCast] at this
    rcases Bool.eq_false_or_eq_true (m.testBit i) with a | a <;>
      rcases Bool.eq_false_or_eq_true (n.testBit i) with b | b <;> simp [a, b] at this ⊢
  · have pm : m < 2 ^ i := lt_of_lt_of_le (by exact_mod_cast hx₁) (Nat.pow_le_pow_right (by norm_num) (by omega))
    have pn : n < 2 ^ i := lt_of_lt_of_le (by exact_mod_cast hy₁) (Nat.pow_le_pow_right (by norm_num) (by omega))
    rw [Nat.testBit_lt_two_pow pm, Nat.testBit_lt_two_pow pn]

/-! ## Fields (R12) -/

/-- A chunk's bits: bit `i` of the field is bit `left - size + 1 + i` of the number. -/
theorem bit_chunk (v : Int) (left size i : Nat) :
    bit (chunk v left size) i = if i < size then bit v (left + 1 - size + i) else 0 := by
  unfold chunk
  split
  · next h => rw [show v / 2 ^ (left + 1 - size) % 2 ^ size = low (v / 2 ^ (left + 1 - size)) size from rfl,
      bit_low h, bit_div]
  · next h => exact bit_eq_zero (low_nonneg _ _) (low_lt _ _) (by omega)

theorem chunk_nonneg (v : Int) (left size : Nat) : 0 ≤ chunk v left size := low_nonneg _ _

theorem chunk_lt (v : Int) (left size : Nat) : chunk v left size < 2 ^ size := low_lt _ _

/-- A sum of a low part and a multiple of `2^k` has the low part's bits below `k` and the multiple's from `k` on. -/
theorem bit_add_high {l h : Int} {k : Nat} (h₀ : 0 ≤ l) (h₁ : l < 2 ^ k) (i : Nat) :
    bit (l + h * 2 ^ k) i = if i < k then bit l i else bit h (i - k) := by
  split
  · next hi => rw [mul_comm, bit_add_mul hi]
  · next hi =>
    obtain ⟨j, rfl⟩ : ∃ j, i = k + j := ⟨i - k, by omega⟩
    rw [← bit_div, Int.add_mul_ediv_right _ _ (two_pow_pos k).ne', Int.ediv_eq_zero_of_lt h₀ h₁]
    simp

/-- Overwriting a range: inside it the bits of the replacement, outside it the old bits (R121). -/
theorem bit_replaceBits (v x : Int) {left right : Nat} (h : right ≤ left) (i : Nat) :
    bit (replaceBits v left right x) i =
      if right ≤ i ∧ i ≤ left then bit x (i - right) else bit v i := by
  have hsplit : replaceBits v left right x =
      low v right + (low x (left + 1 - right) + v / 2 ^ (left + 1) * 2 ^ (left + 1 - right)) * 2 ^ right := by
    have e : (2 : Int) ^ (left + 1) = 2 ^ right * 2 ^ (left + 1 - right) := by
      rw [← pow_add]; congr 1; omega
    have hv : v = low v right + 2 ^ right * (v / 2 ^ right) := (Int.emod_add_mul_ediv _ _).symm
    have hq : v / 2 ^ right = chunk v left (left + 1 - right) + 2 ^ (left + 1 - right) * (v / 2 ^ (left + 1)) := by
      unfold chunk
      rw [e, ← Int.ediv_ediv_of_nonneg (two_pow_pos right).le, show left + 1 - (left + 1 - right) = right by omega]
      exact (Int.emod_add_mul_ediv _ _).symm
    unfold replaceBits
    simp only
    linear_combination hv + 2 ^ right * hq
  rw [hsplit, bit_add_high (low_nonneg _ _) (low_lt _ _)]
  by_cases h₁ : i < right
  · simp [h₁, bit_low h₁, show ¬ (right ≤ i ∧ i ≤ left) by omega]
  · rw [if_neg h₁, bit_add_high (low_nonneg _ _) (low_lt _ _)]
    by_cases h₂ : i ≤ left
    · rw [if_pos (by omega), bit_low (by omega), if_pos (by omega)]
    · rw [if_neg (by omega), if_neg (by omega), bit_div]
      congr 1; omega

end Sys2Proof.Machine.Laws
end

