-- ==== Sys2Proof/Laws/Bits.lean ====
section
/-! SUPPORT. Rotations, sign extension, counts and runs, bit by bit (spec/00_scope.md R12, spec/40_raw_bitops.md R118,
R124, spec/43_descriptor_bitops.md R174 to R179). -/

namespace Sys2Proof.Machine.Laws

/-! ## Rotations -/

/-- The two parts of a number of `w` bits, exchanged: its top `k` bits come below the others. -/
theorem bit_exchange {p : Int} {w k : Nat} (h₀ : 0 ≤ p) (h₁ : p < 2 ^ w) (hk : k ≤ w) (i : Nat) :
    bit (p / 2 ^ (w - k) + p % 2 ^ (w - k) * 2 ^ k) i =
      if i < k then bit p (w - k + i) else if i < w then bit p (i - k) else 0 := by
  have e : (2 : Int) ^ w = 2 ^ (w - k) * 2 ^ k := by rw [← pow_add]; congr 1; omega
  have hh₀ : 0 ≤ p / 2 ^ (w - k) := Int.ediv_nonneg h₀ (two_pow_pos _).le
  have hh₁ : p / 2 ^ (w - k) < 2 ^ k := by
    apply Int.ediv_lt_of_lt_mul (two_pow_pos _)
    rw [mul_comm, ← e]; exact h₁
  rw [bit_add_high hh₀ hh₁]
  by_cases h : i < k
  · rw [if_pos h, if_pos h, bit_div]
  · rw [if_neg h, if_neg h]
    by_cases h' : i < w
    · rw [if_pos h', show p % 2 ^ (w - k) = low p (w - k) from rfl, bit_low (by omega)]
    · rw [if_neg h', show p % 2 ^ (w - k) = low p (w - k) from rfl]
      exact bit_eq_zero (low_nonneg _ _) (low_lt _ _) (by omega)

theorem rotl_eq {p : Int} {w : Nat} (n : Nat) :
    rotl w p n = p / 2 ^ (w - n % w) + p * 2 ^ (n % w) % 2 ^ w := by
  unfold rotl
  simp only
  rw [add_comm]

/-- Shifting up inside `w` bits drops the top bits first. -/
theorem mul_pow_emod {p : Int} {w k : Nat} (hk : k ≤ w) : p * 2 ^ k % 2 ^ w = p % 2 ^ (w - k) * 2 ^ k := by
  have e : (2 : Int) ^ w = 2 ^ (w - k) * 2 ^ k := by rw [← pow_add]; congr 1; omega
  rw [e, mul_comm p, mul_comm (2 ^ (w - k)), Int.mul_emod_mul_of_pos _ _ (two_pow_pos k), mul_comm]

theorem bit_rotl {p : Int} {w : Nat} (hw : 1 ≤ w) (h₀ : 0 ≤ p) (h₁ : p < 2 ^ w) (n i : Nat) :
    bit (rotl w p n) i = if i < w then bit p ((i + (w - n % w)) % w) else 0 := by
  have hk : n % w < w := Nat.mod_lt _ hw
  rw [rotl_eq, mul_pow_emod hk.le, bit_exchange h₀ h₁ hk.le]
  generalize n % w = k at hk
  by_cases hi : i < w
  · simp only [if_pos hi]
    by_cases h : i < k
    · rw [if_pos h, Nat.mod_eq_of_lt (by omega)]
      exact congrArg _ (by omega)
    · rw [if_neg h, Nat.mod_eq_sub_mod (by omega), Nat.mod_eq_of_lt (by omega)]
      congr 1; omega
  · rw [if_neg (by omega), if_neg hi, if_neg hi]

theorem bit_rotr {p : Int} {w : Nat} (hw : 1 ≤ w) (h₀ : 0 ≤ p) (h₁ : p < 2 ^ w) (n i : Nat) :
    bit (rotr w p n) i = if i < w then bit p ((i + n) % w) else 0 := by
  have hk : n % w < w := Nat.mod_lt _ hw
  have e : rotr w p n = p / 2 ^ (w - (w - n % w)) + p % 2 ^ (w - (w - n % w)) * 2 ^ (w - n % w) := by
    rw [show w - (w - n % w) = n % w by omega]; rfl
  rw [e, bit_exchange h₀ h₁ (by omega), ← Nat.add_mod_mod i n w]
  generalize n % w = k at hk
  by_cases hi : i < w
  · simp only [if_pos hi]
    by_cases h : i < w - k
    · rw [if_pos h, Nat.mod_eq_of_lt (by omega)]
      exact congrArg _ (by omega)
    · rw [if_neg h, Nat.mod_eq_sub_mod (by omega), Nat.mod_eq_of_lt (by omega)]
      congr 1; omega
  · rw [if_neg (by omega), if_neg hi, if_neg hi]

theorem rotl_bounds {p : Int} {w : Nat} (hw : 1 ≤ w) (h₀ : 0 ≤ p) (h₁ : p < 2 ^ w) (n : Nat) :
    0 ≤ rotl w p n ∧ rotl w p n < 2 ^ w := by
  have hk : n % w < w := Nat.mod_lt _ hw
  rw [rotl_eq, mul_pow_emod hk.le]
  generalize n % w = k at hk
  have e : (2 : Int) ^ w = 2 ^ (w - k) * 2 ^ k := by rw [← pow_add]; congr 1; omega
  have a₀ := Int.ediv_nonneg h₀ (two_pow_pos (w - k)).le
  have a₁ : p / 2 ^ (w - k) < 2 ^ k := by
    apply Int.ediv_lt_of_lt_mul (two_pow_pos _); rw [mul_comm, ← e]; exact h₁
  have b₀ := low_nonneg p (w - k)
  have b₁ := low_lt p (w - k)
  unfold low at b₀ b₁
  have := two_pow_pos k
  constructor
  · positivity
  · rw [e]; nlinarith

theorem rotr_bounds {p : Int} {w : Nat} (hw : 1 ≤ w) (h₀ : 0 ≤ p) (h₁ : p < 2 ^ w) (n : Nat) :
    0 ≤ rotr w p n ∧ rotr w p n < 2 ^ w := by
  have hk : n % w < w := Nat.mod_lt _ hw
  unfold rotr
  simp only
  generalize n % w = k at hk
  have e : (2 : Int) ^ w = 2 ^ k * 2 ^ (w - k) := by rw [← pow_add]; congr 1; omega
  have a₀ := Int.ediv_nonneg h₀ (two_pow_pos k).le
  have a₁ : p / 2 ^ k < 2 ^ (w - k) := by
    apply Int.ediv_lt_of_lt_mul (two_pow_pos _); rw [mul_comm, ← e]; exact h₁
  have b₀ := low_nonneg p k
  have b₁ := low_lt p k
  unfold low at b₀ b₁
  have := two_pow_pos (w - k)
  constructor
  · positivity
  · rw [e]; nlinarith

/-! ## Windows -/

/-- The part of a number above its window, with another number of `w` bits in the window. -/
theorem bit_window {v q : Int} {w : Nat} (h₀ : 0 ≤ q) (h₁ : q < 2 ^ w) (i : Nat) :
    bit (v - low v w + q) i = if i < w then bit q i else bit v i := by
  have e : v - low v w + q = q + v / 2 ^ w * 2 ^ w := by
    have := Int.emod_add_mul_ediv v (2 ^ w)
    unfold low
    linear_combination -this
  rw [e, bit_add_high h₀ h₁]
  split
  · rfl
  · rw [bit_div]; congr 1; omega

/-! ## Sign extension -/

/-- The bits of `2^n - 1`. -/
theorem bit_allOnes (n i : Nat) : bit (2 ^ n - 1) i = if i < n then 1 else 0 := by
  have h : (2 : Int) ^ n - 1 = ((2 ^ n - 1 : Nat) : Int) := by
    have := Nat.two_pow_pos n
    push_cast [Nat.cast_sub this]; rfl
  rw [h, bit_natCast, Nat.testBit_two_pow_sub_one]
  simp

/-- SEXT: the bits `b .. c-1` are copies of bit `b-1`, the others stay (R124). -/
theorem bit_signExtendBits (v : Int) {b c : Nat} (h : b ≤ c) (i : Nat) :
    bit (signExtendBits v b c) i = if b ≤ i ∧ i < c then bit v (b - 1) else bit v i := by
  have e : (2 : Int) ^ c = 2 ^ (c - b) * 2 ^ b := by rw [← pow_add]; congr 1; omega
  set m : Int := if bit v (b - 1) = 1 then 2 ^ (c - b) - 1 else 0 with hm
  have hp := two_pow_pos (c - b)
  have hm₀ : 0 ≤ m := by rw [hm]; split <;> omega
  have hm₁ : m < 2 ^ (c - b) := by rw [hm]; split <;> omega
  have hs : signExtendBits v b c = low v b + (m + v / 2 ^ c * 2 ^ (c - b)) * 2 ^ b := by
    unfold signExtendBits
    rw [← hm]
    linear_combination v / 2 ^ c * e
  rw [hs, bit_add_high (low_nonneg _ _) (low_lt _ _)]
  by_cases h₁ : i < b
  · rw [if_pos h₁, bit_low h₁, if_neg (by omega)]
  · rw [if_neg h₁, bit_add_high hm₀ hm₁]
    by_cases h₂ : i < c
    · rw [if_pos (by omega), if_pos (by omega), hm]
      rcases bit_eq_zero_or_one v (b - 1) with h₃ | h₃
      · rw [h₃]; simp [bit]
      · rw [if_pos h₃, bit_allOnes, if_pos (by omega), h₃]
    · rw [if_neg (by omega), if_neg (by omega), bit_div]
      congr 1; omega

/-! ## Counts and runs -/

/-- The population count as a count of positions (R7). -/
theorem popcount_eq (n : Nat) (u : Int) : popcount n u = ((List.range n).countP fun i => decide (bit u i = 1) : Nat) := by
  induction n with
  | zero => rfl
  | succ n ih =>
    rw [popcount, ih, List.range_succ, List.countP_append]
    rcases bit_eq_zero_or_one u n with h | h <;> simp [h]

theorem popcount_congr {n : Nat} {u v : Int} (h : ∀ i < n, bit u i = bit v i) : popcount n u = popcount n v := by
  induction n with
  | zero => rfl
  | succ n ih => rw [popcount, popcount, ih fun i hi => h i (by omega), h n (by omega)]

theorem popcount_bounds (n : Nat) (u : Int) : 0 ≤ popcount n u ∧ popcount n u ≤ n := by
  induction n with
  | zero => simp [popcount]
  | succ n ih =>
    rw [popcount]
    rcases bit_eq_zero_or_one u n with h | h <;> rw [h] <;> push_cast <;> omega

/-- The leading run: `k` bits from the top equal `b`, and the next, if there is one, does not (R176, R177). -/
theorem leadingRun_spec (b : Int) (w : Nat) (p : Int) :
    ∃ k : Nat, leadingRun b w p = k ∧ k ≤ w ∧ (∀ j < k, bit p (w - 1 - j) = b) ∧ (k < w → bit p (w - 1 - k) ≠ b) := by
  induction w with
  | zero => exact ⟨0, rfl, le_rfl, by simp, by simp⟩
  | succ w ih =>
    obtain ⟨k, hk, hle, hall, hstop⟩ := ih
    rw [leadingRun]
    by_cases h : bit p w = b
    · refine ⟨k + 1, by rw [if_pos h, hk]; push_cast; ring, by omega, ?_, ?_⟩
      · intro j hj
        rcases j with _ | j
        · simpa using h
        · rw [show w + 1 - 1 - (j + 1) = w - 1 - j by omega]; exact hall j (by omega)
      · intro hlt
        rw [show w + 1 - 1 - (k + 1) = w - 1 - k by omega]; exact hstop (by omega)
    · exact ⟨0, by rw [if_neg h]; rfl, by omega, by simp, fun _ => by simpa using h⟩

/-- The trailing run: `k` bits from the bottom equal `b`, and the next, if there is one, does not (R178, R179). -/
theorem trailingRun_spec (b : Int) (w : Nat) (p : Int) :
    ∃ k : Nat, trailingRun b w p = k ∧ k ≤ w ∧ (∀ j < k, bit p j = b) ∧ (k < w → bit p k ≠ b) := by
  induction w generalizing p with
  | zero => exact ⟨0, rfl, le_rfl, by simp, by simp⟩
  | succ w ih =>
    have hb : ∀ j, bit (p / 2) j = bit p (j + 1) := fun j => by
      have := bit_div p 1 j; rw [pow_one] at this; rw [this, add_comm]
    obtain ⟨k, hk, hle, hall, hstop⟩ := ih (p / 2)
    rw [trailingRun]
    by_cases h : bit p 0 = b
    · refine ⟨k + 1, by rw [if_pos h, hk]; push_cast; ring, by omega, ?_, ?_⟩
      · intro j hj
        rcases j with _ | j
        · exact h
        · rw [← hb]; exact hall j (by omega)
      · intro hlt
        rw [← hb]; exact hstop (by omega)
    · exact ⟨0, by rw [if_neg h]; rfl, by omega, by simp, fun _ => h⟩

end Sys2Proof.Machine.Laws
end

