-- ==== Sys2Proof/Laws/Encoding.lean ====
section
/-! SUPPORT. Command words and their fields (spec/30_encoding.md R81): cutting and laying out are inverse, and a word is
the number that its fields add up to. -/

namespace Sys2Proof.Laws

open Sys2Proof.Safety

/-- Laying out the fields of a word gives the word back. -/
theorem toWord_ofWord (x : CommandWord) : (Fields.ofWord x).toWord = x := by
  apply BitVec.eq_of_getLsbD_eq
  intro i hi
  simp only [Fields.toWord, Fields.ofWord, BitVec.getLsbD_append, BitVec.getLsbD_extractLsb', BitVec.getLsbD_ofBool]
  by_cases h₁ : i < 12
  · simp [h₁]
  by_cases h₂ : i < 19
  · simp [h₁, show i - 12 < 7 by omega, show 12 + (i - 12) = i by omega]
  by_cases h₃ : i < 20
  · have : i = 19 := by omega
    subst this; simp
  by_cases h₄ : i < 21
  · have : i = 20 := by omega
    subst this; simp
  by_cases h₅ : i < 24
  · simp [h₁, show ¬ i - 12 < 7 by omega, show ¬ i - 12 - 7 < 1 by omega, show ¬ i - 12 - 7 - 1 < 1 by omega,
      show i - 12 - 7 - 1 - 1 < 3 by omega, show 21 + (i - 12 - 7 - 1 - 1) = i by omega]
  · simp [h₁, show ¬ i - 12 < 7 by omega, show ¬ i - 12 - 7 < 1 by omega, show ¬ i - 12 - 7 - 1 < 1 by omega,
      show ¬ i - 12 - 7 - 1 - 1 < 3 by omega, show i - 12 - 7 - 1 - 1 - 3 < 8 by omega,
      show 24 + (i - 12 - 7 - 1 - 1 - 3) = i by omega]

/-- A word as the sum of its fields at their places. -/
theorem toWord_toNat (f : Fields) :
    f.toWord.toNat = f.opc.toNat * 2 ^ 24 + f.pol.toNat * 2 ^ 21 + f.s.toNat * 2 ^ 20 + f.u.toNat * 2 ^ 19 +
      f.w.toNat * 2 ^ 12 + f.imm.toNat := by
  have h₁ := f.imm.isLt
  have h₂ := f.w.isLt
  have h₃ := f.pol.isLt
  simp only [Fields.toWord, BitVec.toNat_append, BitVec.toNat_ofBool]
  rw [← Nat.shiftLeft_add_eq_or_of_lt h₁, ← Nat.shiftLeft_add_eq_or_of_lt h₂,
    ← Nat.shiftLeft_add_eq_or_of_lt (show f.u.toNat < 2 ^ 1 by cases f.u <;> decide),
    ← Nat.shiftLeft_add_eq_or_of_lt (show f.s.toNat < 2 ^ 1 by cases f.s <;> decide),
    ← Nat.shiftLeft_add_eq_or_of_lt h₃]
  simp only [Nat.shiftLeft_eq]
  ring

/-- The fields of a laid-out word are the fields. -/
theorem ofWord_toWord (f : Fields) : Fields.ofWord f.toWord = f := by
  have h := toWord_toNat f
  have h₁ := f.imm.isLt
  have h₂ := f.w.isLt
  have h₃ := f.pol.isLt
  have h₄ := f.opc.isLt
  have hs : f.s.toNat ≤ 1 := Bool.toNat_le f.s
  have hu : f.u.toNat ≤ 1 := Bool.toNat_le f.u
  have e₁ : (Fields.ofWord f.toWord).opc = f.opc := by
    apply BitVec.eq_of_toNat_eq
    simp only [Fields.ofWord, BitVec.extractLsb'_toNat, Nat.shiftRight_eq_div_pow]; omega
  have e₂ : (Fields.ofWord f.toWord).pol = f.pol := by
    apply BitVec.eq_of_toNat_eq
    simp only [Fields.ofWord, BitVec.extractLsb'_toNat, Nat.shiftRight_eq_div_pow]; omega
  have e₃ : (Fields.ofWord f.toWord).w = f.w := by
    apply BitVec.eq_of_toNat_eq
    simp only [Fields.ofWord, BitVec.extractLsb'_toNat, Nat.shiftRight_eq_div_pow]; omega
  have e₄ : (Fields.ofWord f.toWord).imm = f.imm := by
    apply BitVec.eq_of_toNat_eq
    simp only [Fields.ofWord, BitVec.extractLsb'_toNat, Nat.shiftRight_eq_div_pow]; omega
  have e₅ : (Fields.ofWord f.toWord).s = f.s := by
    simp only [Fields.ofWord, BitVec.getLsbD, Nat.testBit_eq_decide_div_mod_eq]
    cases hh : f.s <;> rw [hh] at h hs <;> simp only [Bool.toNat_true, Bool.toNat_false] at h <;> simp <;> omega
  have e₆ : (Fields.ofWord f.toWord).u = f.u := by
    simp only [Fields.ofWord, BitVec.getLsbD, Nat.testBit_eq_decide_div_mod_eq]
    cases hh : f.u <;> rw [hh] at h hu <;> simp only [Bool.toNat_true, Bool.toNat_false] at h <;> simp <;> omega
  cases f
  simp_all [Fields.ofWord]

/-- A word as the number its fields add up to. -/
theorem word_fields (x : CommandWord) :
    (Fields.ofWord x).opc.toNat = x.toNat / 2 ^ 24 ∧ (Fields.ofWord x).pol.toNat = x.toNat / 2 ^ 21 % 2 ^ 3 ∧
    (Fields.ofWord x).s.toNat = x.toNat / 2 ^ 20 % 2 ∧ (Fields.ofWord x).u.toNat = x.toNat / 2 ^ 19 % 2 ∧
    (Fields.ofWord x).w.toNat = x.toNat / 2 ^ 12 % 2 ^ 7 ∧ (Fields.ofWord x).imm.toNat = x.toNat % 2 ^ 12 := by
  have := x.isLt
  refine ⟨?_, ?_, ?_, ?_, ?_, ?_⟩
  · simp only [Fields.ofWord, BitVec.extractLsb'_toNat, Nat.shiftRight_eq_div_pow]; omega
  · simp only [Fields.ofWord, BitVec.extractLsb'_toNat, Nat.shiftRight_eq_div_pow]
  · simp only [Fields.ofWord, BitVec.getLsbD, Nat.testBit_eq_decide_div_mod_eq]
    rcases Nat.mod_two_eq_zero_or_one (x.toNat / 2 ^ 20) with h | h <;> rw [h] <;> rfl
  · simp only [Fields.ofWord, BitVec.getLsbD, Nat.testBit_eq_decide_div_mod_eq]
    rcases Nat.mod_two_eq_zero_or_one (x.toNat / 2 ^ 19) with h | h <;> rw [h] <;> rfl
  · simp only [Fields.ofWord, BitVec.extractLsb'_toNat, Nat.shiftRight_eq_div_pow]
  · simp only [Fields.ofWord, BitVec.extractLsb'_toNat, Nat.shiftRight_eq_div_pow]; omega

/-- The width field of a legal descriptor holds the width. -/
theorem width_field {wMax : Nat} {d : Desc} (h : d.wf wMax = true) : (BitVec.ofNat 7 d.width).toNat = d.width := by
  simp only [Desc.wf, decide_eq_true_eq] at h
  rw [BitVec.toNat_ofNat]; omega

/-- The policy field names the policy. -/
theorem policy_field (p : Policy) : Policy.ofBits p.bits = some p ∧ p.bits.toNat = policyCode p := by
  cases p <;> decide

/-- Only a policy's own code names it. -/
theorem policy_ofBits {b : BitVec 3} {p : Policy} (h : Policy.ofBits b = some p) : b = p.bits := by
  revert h; revert p; revert b; decide

end Sys2Proof.Laws
end

