-- ==== Sys2Proof/Laws/Ops.lean ====
section
/-! SUPPORT. The shared operations of Machine/Ops.lean, each said once: what a port carries, what answering does, what
reading a slot can give, what a table holds after a write. -/

namespace Sys2Proof.Machine.Laws

open Sys2Proof.Safety

/-! ## Ports (R8, R84, R85) -/

/-- What a port carries, both ways. -/
theorem onPort_eq (p : Params) (x : Int) : onPort p x = raw p.rawBits x := (raw_eq _ _).symm

theorem carried_eq (p : Params) (r : Results) : carried p r = r.onPorts p := by
  have e : onPort p = raw p.rawBits := funext (onPort_eq p)
  simp only [carried, Results.onPorts, e]

/-- The bits of a result that is the word `x`. -/
theorem onPort_of_bits {p : Params} {v : Int} {x : BitVec p.rawBits}
    (h : ∀ i < p.rawBits, bit v i = if x.getLsbD i then 1 else 0) : onPort p v = onPort p x.toInt := by
  rw [onPort_eq, onPort, BitVec.ofInt_toInt, raw_eq_of_bits h]

theorem onPort_of_raw {p : Params} (h : 1 ≤ p.rawBits) {x : Int} (hx : Raw p x) : onPort p x = x := by
  rw [onPort_eq, raw_of_isRaw h hx]

theorem onPort_raw {p : Params} (h : 1 ≤ p.rawBits) (x : Int) : Raw p (onPort p x) := by
  rw [onPort_eq]; exact raw_isRaw h x

/-- A command whose two answers look the same on the ports ends in the same way. -/
theorem ends_value {s : State} {o : Result} {x y : Int} (h : onPort s.params x = onPort s.params y)
    (he : Ends s o (.ok { r0 := x })) : Ends s o (.ok { r0 := y }) := by
  unfold Ends carried at he ⊢
  simp only [← h]
  exact he

/-- The bits of the word `u(v)` of a port. -/
theorem bit_word (s : State) (x : Int) (i : Nat) :
    bit (uword s.params.rawBits x) i = if (word s x).getLsbD i then 1 else 0 := bit_uword _ _ _

theorem flag_eq (b : Bool) : flag b = if b then 1 else 0 := rfl

theorem wordOf_bit {n : Nat} (f : Nat → Bool) (i : Nat) : (wordOf f : BitVec n).getLsbD i = (decide (i < n) && f i) := by
  unfold wordOf
  by_cases h : i < n
  · rw [BitVec.getLsbD_ofFnLE]; simp [h]
  · rw [BitVec.getLsbD_of_ge _ _ (by omega)]; simp [h]

/-! ## Answering -/

/-- Every answer is a next state. -/
theorem answer_next (s : State) (a : Answer) : answer s a = .next (s.answered a) := rfl

/-- A command that answers `a` ends as `a` says. -/
theorem ends_answer (s : State) (a : Answer) : Ends s (answer s a) a := by
  cases a with
  | ok r => exact congrArg Host.Outcome.next (by rw [carried_eq]; rfl)
  | novalue => rfl
  | raise k => rfl
  | unspecified => exact ⟨_, _, rfl⟩

/-- Every answer but the unspecified one says which state is next. -/
theorem ends_determines {s : State} {o : Result} {a : Answer} (ha : a ≠ .unspecified) (h : Ends s o a) :
    o = answer s a := by
  cases a with
  | ok r => rw [show o = _ from h, carried_eq]; rfl
  | novalue => exact h
  | raise k => exact h
  | unspecified => exact absurd rfl ha

/-- Answering writes the response and, for a free one, the model's counter. -/
theorem answered_frame (s : State) (a : Answer) :
    SameUnit s (s.answered a) ∧ SameInputs s (s.answered a) := by
  cases a <;> exact ⟨⟨rfl, rfl, rfl, rfl, rfl, rfl⟩, rfl, rfl⟩

/-- The response an answer leaves, and whether it is a free one. -/
theorem answered_response (s : State) (a : Answer) :
    (∃ r, a = .ok r ∧ (s.answered a).response = some ⟨.ok, r.onPorts s.params⟩ ∧ Determined s (s.answered a)) ∨
    (a = .novalue ∧ (s.answered a).response = some ⟨.novalue, {}⟩ ∧ Determined s (s.answered a)) ∨
    (∃ k, a = .raise k ∧ (s.answered a).response = some ⟨.fault k, {}⟩ ∧ Determined s (s.answered a)) ∨
    (a = .unspecified ∧ (s.answered a).response = some s.freeResponse ∧ ¬ Determined s (s.answered a)) := by
  cases a with
  | ok r => exact .inl ⟨r, rfl, rfl, rfl⟩
  | novalue => exact .inr (.inl ⟨rfl, rfl, rfl⟩)
  | raise k => exact .inr (.inr (.inl ⟨k, rfl, rfl, rfl⟩))
  | unspecified => exact .inr (.inr (.inr ⟨rfl, rfl, Nat.succ_ne_self _⟩))

/-- Results on the ports are raw values; strings and lists keep their lengths (R85). -/
theorem onPorts_ok {p : Params} (h : 1 ≤ p.rawBits) {r : Results} (hs : ∀ cs, r.rs = some cs → cs.length ≤ p.sMax)
    (hv : ∀ xs, r.rv = some xs → xs.length ≤ max p.gMax Config.patW) : ResultsOk p (r.onPorts p) where
  numbers := ⟨raw_isRaw h _, raw_isRaw h _, raw_isRaw h _, raw_isRaw h _⟩
  string := hs
  list := by
    intro xs hx
    obtain ⟨ys, hy, rfl⟩ := Option.map_eq_some_iff.mp hx
    refine ⟨by rw [List.length_map]; exact hv ys hy, fun y hm => ?_⟩
    obtain ⟨z, -, rfl⟩ := List.mem_map.mp hm
    exact raw_isRaw h _

/-- A free response fits its ports (R85). -/
theorem freeResponse_ok {s : State} (h : 1 ≤ s.params.rawBits) : ResultsOk s.params s.freeResponse.results := by
  apply onPorts_ok h
  · intro cs hx
    obtain ⟨y, -, rfl⟩ := Option.map_eq_some_iff.mp hx
    exact List.length_take_le _ _
  · intro xs hx
    obtain ⟨y, -, rfl⟩ := Option.map_eq_some_iff.mp hx
    exact (List.length_take_le _ _).trans (le_max_left _ _)

/-! ## Slots (R62) -/

/-- What a slot holds, both ways. -/
theorem slotGet_eq {α : Type} (table : Table α) (k : Nat) : slotGet table k = recordAt table k := by
  induction table with
  | nil => rfl
  | cons row rest ih =>
    obtain ⟨j, x⟩ := row
    unfold recordAt at ih ⊢
    rw [slotGet, List.find?_cons]
    by_cases h : k = j
    · subst h; simp
    · rw [if_neg h, ih, show ((j, x).1 == k) = false by simpa using Ne.symm h]

theorem slotOf_some {n : Nat} {x : Int} {k : Nat} (h : slotOf n x = some k) : 0 ≤ x ∧ x < n ∧ k = x.toNat ∧ k < n := by
  unfold slotOf at h
  split at h
  · next hx => cases h; exact ⟨hx.1, hx.2, rfl, by omega⟩
  · cases h

/-- What the port's slot holds, through `slotOf`. -/
theorem slotAt_eq {α : Type} (n : Nat) (table : Table α) (x : Int) :
    slotAt n table x = (slotOf n x).map (slotGet table) := by
  unfold slotAt slotOf
  split
  · simp [slotGet_eq]
  · rfl

/-- What reading a slot gives. -/
theorem readSlot_eq {α : Type} (n : Nat) (table : Table α) (x : Int) :
    readSlot n table x =
      match slotAt n table x with
      | none => .error .range
      | some none => .error .state
      | some (some r) => .ok r := by
  rw [slotAt_eq]
  unfold readSlot
  rcases slotOf n x with _ | k
  · rfl
  · simp only [Option.map_some]
    rcases slotGet table k with _ | r <;> rfl

/-- A command that reads one pattern slot ends with RANGE, STATE or what it makes of the record. -/
theorem onPattern_eq (s : State) (x : Int) (f : Pattern → Answer) :
    onPattern s x f = slotOutcome s.params.nPat s.pt x f := by
  unfold onPattern slotOutcome State.readPattern
  rw [readSlot_eq]
  rcases slotAt s.params.nPat s.pt x with _ | _ | p <;> rfl

/-- A table after a write: the slot written holds the record, every other slot what it held. -/
theorem slotGet_slotPut {α : Type} (table : Table α) (k : Nat) (r : α) (j : Nat) :
    slotGet (slotPut table k r) j = if j = k then some r else slotGet table j := by
  induction table with
  | nil => simp [slotPut, slotGet]
  | cons row rest ih =>
    obtain ⟨i, y⟩ := row
    rw [slotPut]
    split
    · simp only [slotGet]
    · split
      · next hk => subst hk; simp only [slotGet]; split <;> rfl
      · next h₁ h₂ =>
        simp only [slotGet, ih]
        split
        · next hj => subst hj; rw [if_neg (Ne.symm h₂)]
        · rfl

/-- The rows of a table after a write. -/
theorem mem_slotPut {α : Type} {table : Table α} {k : Nat} {r : α} {row : Nat × α} (h : row ∈ slotPut table k r) :
    row = (k, r) ∨ row ∈ table := by
  induction table with
  | nil => simpa [slotPut] using h
  | cons first rest ih =>
    obtain ⟨i, y⟩ := first
    rw [slotPut] at h
    split at h
    · simpa using h
    · split at h
      · rcases List.mem_cons.mp h with h | h
        · exact .inl h
        · exact .inr (List.mem_cons_of_mem _ h)
      · rcases List.mem_cons.mp h with h | h
        · exact .inr (h ▸ List.mem_cons_self)
        · exact (ih h).imp_right (List.mem_cons_of_mem _)

/-- A write keeps the form of a table (R43, R45). -/
theorem slotPut_ok {α : Type} {n : Nat} {table : Table α} (h : TableOk n table) {k : Nat} (hk : k < n) (r : α) :
    TableOk n (slotPut table k r) where
  inside row hm := by
    rcases mem_slotPut hm with rfl | hm
    · exact hk
    · exact h.inside row hm
  rising := by
    have hr := h.rising
    clear h
    induction table with
    | nil => simp [slotPut]
    | cons first rest ih =>
      obtain ⟨i, y⟩ := first
      obtain ⟨h₁, h₂⟩ := List.pairwise_cons.mp hr
      rw [slotPut]
      split
      · next hlt =>
        refine List.pairwise_cons.mpr ⟨fun row hm => ?_, hr⟩
        rcases List.mem_cons.mp hm with rfl | hm
        · exact hlt
        · exact lt_trans hlt (h₁ row hm)
      · split
        · next he => subst he; exact List.pairwise_cons.mpr ⟨h₁, h₂⟩
        · refine List.pairwise_cons.mpr ⟨fun row hm => ?_, ih h₂⟩
          rcases mem_slotPut hm with rfl | hm
          · show i < k; omega
          · exact h₁ row hm

/-- A write to a table, as the statements say it. -/
theorem writtenAt_slotPut {α : Type} (table : Table α) (k : Nat) (r : α) : WrittenAt table (slotPut table k r) k r :=
  fun j => by rw [← slotGet_eq, ← slotGet_eq, slotGet_slotPut]

end Sys2Proof.Machine.Laws
end

