-- ==== Sys2Proof/Laws/Patterns.lean ====
section
/-! SUPPORT. The pattern engine's shared operations, each said once: compiling a list of parts agrees with what the
parts say of each bit (spec/46_pattern_engine.md R232), a compiled record meets the invariants of a slot (R44), the
sort of a group's members is a stable one by specificity (R242). -/

namespace Sys2Proof.Machine.Laws

open Sys2Proof.Safety

/-! ## What a list of parts says -/

theorem bitsOf_cons (p : BitPart) (ps : List BitPart) : bitsOf (p :: ps) = partBits p ++ bitsOf ps := rfl

theorem partBits_length (p : BitPart) : (partBits p).length = p.width := by
  cases p <;> simp [partBits, BitPart.width]

/-- The total width is the number of bits the parts speak of (R42). -/
theorem totalWidth_eq (ps : List BitPart) : totalWidth ps = (bitsOf ps).length := by
  induction ps with
  | nil => rfl
  | cons p ps ih => rw [totalWidth, bitsOf_cons, List.length_append, partBits_length, ih]

/-- The first part stands above all the others. -/
theorem literalAt_cons (p : BitPart) (ps : List BitPart) (i : Nat) :
    literalAt (p :: ps) i =
      if i < totalWidth ps then literalAt ps i else ((partBits p).reverse[i - totalWidth ps]?).join := by
  unfold literalAt
  rw [bitsOf_cons, List.reverse_append, totalWidth_eq]
  split
  · next h => rw [List.getElem?_append_left (by simpa using h)]
  · next h => rw [List.getElem?_append_right (by simpa using h), List.length_reverse]

theorem literalAt_fixed (b : Bool) (ps : List BitPart) (i : Nat) :
    literalAt (.fixed b :: ps) i =
      if i < totalWidth ps then literalAt ps i else if i = totalWidth ps then some b else none := by
  rw [literalAt_cons]
  split
  · rfl
  · next h =>
    by_cases e : i = totalWidth ps
    · simp [e, partBits]
    · rw [if_neg e, List.getElem?_eq_none (by simp [partBits]; omega)]; rfl

theorem literalAt_var (n : Nat) (name : PartName) (ps : List BitPart) (i : Nat) :
    literalAt (.var n name :: ps) i = if i < totalWidth ps then literalAt ps i else none := by
  rw [literalAt_cons]
  split
  · rfl
  · rw [partBits, List.reverse_replicate, List.getElem?_replicate]
    split <;> rfl

/-- No part speaks of a bit at or above the total width. -/
theorem literalAt_above {ps : List BitPart} {i : Nat} (h : totalWidth ps ≤ i) : literalAt ps i = none := by
  unfold literalAt
  rw [List.getElem?_eq_none (by rw [List.length_reverse, ← totalWidth_eq]; exact h)]
  rfl

/-! ## Compiling (R232) -/

/-- The captures of `compile`. -/
theorem layout_caps (ps : List BitPart) : (layout ps (totalWidth ps)).caps = capturesOf ps := by
  induction ps with
  | nil => rfl
  | cons p ps ih =>
    cases p with
    | fixed b =>
      have e : totalWidth (.fixed b :: ps) - 1 = totalWidth ps := by simp [totalWidth, BitPart.width]
      simp only [layout, e, ih, capturesOf]
    | var n name =>
      have e : totalWidth (.var n name :: ps) = n + totalWidth ps := rfl
      simp only [layout, e, capturesOf, ← totalWidth_eq, Nat.add_comm n, Nat.add_sub_cancel, ih]

theorem bit_over {t m : Nat} (h : m < 2 ^ t) (b : Bool) (i : Nat) :
    ((if b then 1 else 0) * 2 ^ t + m).testBit i = if i < t then m.testBit i else decide (i = t) && b := by
  rw [mul_comm, Nat.testBit_two_pow_mul_add _ h]
  split
  · rfl
  · next hi =>
    cases b
    · simp
    · by_cases e : i = t
      · simp [e]
      · have : ¬ (i - t = 0) := by omega
        rw [if_pos rfl, Nat.testBit_one_eq_true_iff_self_eq_zero.not.mpr this |> Bool.eq_false_iff.mpr]
        simp [e]

theorem add_over_lt {t m : Nat} (h : m < 2 ^ t) (b : Bool) : (if b then 1 else 0) * 2 ^ t + m < 2 ^ (t + 1) := by
  rw [pow_succ]; split <;> omega

/-- The mask and the compare value of `compile`, bit by bit. -/
theorem layout_bits (ps : List BitPart) :
    ((layout ps (totalWidth ps)).mask < 2 ^ totalWidth ps ∧ (layout ps (totalWidth ps)).cmp < 2 ^ totalWidth ps) ∧
    ∀ i, (layout ps (totalWidth ps)).mask.testBit i = (literalAt ps i).isSome ∧
      (layout ps (totalWidth ps)).cmp.testBit i = decide (literalAt ps i = some true) := by
  induction ps with
  | nil => exact ⟨⟨Nat.one_pos, Nat.one_pos⟩, fun i => ⟨by simp [layout, literalAt, bitsOf], by simp [layout, literalAt, bitsOf]⟩⟩
  | cons p ps ih =>
    obtain ⟨⟨hm, hc⟩, hb⟩ := ih
    cases p with
    | fixed b =>
      have e : totalWidth (.fixed b :: ps) = totalWidth ps + 1 := by simp [totalWidth, BitPart.width, Nat.add_comm]
      have hm' : (layout (.fixed b :: ps) (totalWidth ps + 1)).mask
          = (if true then 1 else 0) * 2 ^ totalWidth ps + (layout ps (totalWidth ps)).mask := by simp [layout]
      have hc' : (layout (.fixed b :: ps) (totalWidth ps + 1)).cmp
          = (if b then 1 else 0) * 2 ^ totalWidth ps + (layout ps (totalWidth ps)).cmp := by simp [layout]
      rw [e, hm', hc']
      refine ⟨⟨add_over_lt hm _, add_over_lt hc _⟩, fun i => ?_⟩
      rw [bit_over hm, bit_over hc, literalAt_fixed]
      split
      · exact hb i
      · split <;> simp [*]
    | var n name =>
      have e : totalWidth (.var n name :: ps) = n + totalWidth ps := rfl
      have hl : (layout (.var n name :: ps) (n + totalWidth ps)).mask = (layout ps (totalWidth ps)).mask ∧
          (layout (.var n name :: ps) (n + totalWidth ps)).cmp = (layout ps (totalWidth ps)).cmp := by
        simp [layout]
      have hp : 2 ^ totalWidth ps ≤ 2 ^ (n + totalWidth ps) := Nat.pow_le_pow_right (by norm_num) (by omega)
      rw [e, hl.1, hl.2]
      refine ⟨⟨by omega, by omega⟩, fun i => ?_⟩
      rw [literalAt_var]
      split
      · exact hb i
      · next h =>
        have := hb i
        rw [literalAt_above (not_lt.mp h)] at this
        exact this

/-- The record that `compile` makes of a list of parts. -/
theorem compile_spec (ps : List BitPart) (name : PartName) :
    (∀ i < 32, (compile ps name).mask.getLsbD i = (literalAt ps i).isSome ∧
      (compile ps name).cmp.getLsbD i = decide (literalAt ps i = some true)) ∧
    (compile ps name).tw = (bitsOf ps).length ∧ (compile ps name).caps = capturesOf ps ∧
    (compile ps name).name = name := by
  refine ⟨fun i hi => ?_, totalWidth_eq ps, layout_caps ps, rfl⟩
  have hb := (layout_bits ps).2 i
  simp only [compile, BitVec.getLsbD_ofNat, hi, decide_true, Bool.true_and]
  exact hb

/-! ## Captures (R43, R44) -/

/-- Each capture is a field inside the total width of which no fixed part speaks. -/
theorem capturesOf_spec {n : Nat} {ps : List BitPart} (h : ∀ p ∈ ps, PartOk n p) :
    ∀ c ∈ capturesOf ps, 1 ≤ c.size ∧ c.size ≤ c.left + 1 ∧ c.left < totalWidth ps ∧ NameOk n c.name ∧
      ∀ i, Capture.Covers c i → literalAt ps i = none := by
  induction ps with
  | nil => simp [capturesOf]
  | cons p ps ih =>
    have ih := ih fun q hq => h q (List.mem_cons_of_mem _ hq)
    have hp := h p List.mem_cons_self
    intro c hc
    cases p with
    | fixed b =>
      obtain ⟨h₁, h₂, h₃, h₄, h₅⟩ := ih c hc
      refine ⟨h₁, h₂, ?_, h₄, fun i hi => ?_⟩
      · simp only [totalWidth]; omega
      · rw [literalAt_fixed, if_pos (by unfold Capture.Covers at hi; omega)]; exact h₅ i hi
    | var n name =>
      obtain ⟨hn, hname⟩ := hp
      rcases List.mem_cons.mp hc with rfl | hc
      · rw [← totalWidth_eq]
        refine ⟨hn, ?_, ?_, hname, fun i hi => ?_⟩
        · show n ≤ totalWidth ps + n - 1 + 1; omega
        · show totalWidth ps + n - 1 < n + totalWidth ps; omega
        · obtain ⟨hi, -⟩ : totalWidth ps + n - 1 + 1 - n ≤ i ∧ _ := hi
          rw [literalAt_var, if_neg (by omega)]
      · obtain ⟨h₁, h₂, h₃, h₄, h₅⟩ := ih c hc
        refine ⟨h₁, h₂, ?_, h₄, fun i hi => ?_⟩
        · simp only [totalWidth]; omega
        · rw [literalAt_var, if_pos (by unfold Capture.Covers at hi; omega)]; exact h₅ i hi

/-- No bit lies in two captures. -/
theorem capturesOf_disjoint {n : Nat} {ps : List BitPart} (h : ∀ p ∈ ps, PartOk n p) :
    (capturesOf ps).Pairwise fun c e => ∀ i, ¬ (Capture.Covers c i ∧ Capture.Covers e i) := by
  induction ps with
  | nil => exact List.Pairwise.nil
  | cons p ps ih =>
    have hps : ∀ q ∈ ps, PartOk n q := fun q hq => h q (List.mem_cons_of_mem _ hq)
    cases p with
    | fixed b => exact ih hps
    | var n name =>
      refine List.Pairwise.cons (fun e he i hi => ?_) (ih hps)
      have := (capturesOf_spec hps e he).2.2.1
      rw [← totalWidth_eq] at hi
      obtain ⟨⟨h₁, -⟩, -, h₂⟩ : (totalWidth ps + n - 1 + 1 - n ≤ i ∧ _) ∧ _ ∧ i ≤ e.left := hi
      omega

/-- Every bit below the total width is fixed or lies in a capture. -/
theorem parts_cover (ps : List BitPart) {i : Nat} (h : i < totalWidth ps) :
    (literalAt ps i).isSome = true ∨ ∃ c ∈ capturesOf ps, Capture.Covers c i := by
  induction ps with
  | nil => simp [totalWidth] at h
  | cons p ps ih =>
    by_cases hi : i < totalWidth ps
    · rcases ih hi with h' | ⟨c, hc, hci⟩
      · left
        cases p with
        | fixed b => rw [literalAt_fixed, if_pos hi]; exact h'
        | var n name => rw [literalAt_var, if_pos hi]; exact h'
      · right
        refine ⟨c, ?_, hci⟩
        cases p with
        | fixed b => exact hc
        | var n name => exact List.mem_cons_of_mem _ hc
    · cases p with
      | fixed b =>
        left
        simp only [totalWidth, BitPart.width] at h
        rw [literalAt_fixed, if_neg hi, if_pos (by omega)]; rfl
      | var n name =>
        right
        simp only [totalWidth, BitPart.width] at h
        refine ⟨_, List.mem_cons_self, ?_⟩
        rw [← totalWidth_eq]
        exact ⟨show totalWidth ps + n - 1 + 1 - n ≤ i by omega, show i ≤ totalWidth ps + n - 1 by omega⟩

/-- Counting through positions. -/
theorem countP_range_getElem? (l : List (Option Bool)) {n : Nat} (h : l.length ≤ n) :
    ((List.range n).countP fun i => ((l[i]?).join).isSome) = l.countP Option.isSome := by
  induction l generalizing n with
  | nil => simp
  | cons x l ih =>
    obtain ⟨n, rfl⟩ : ∃ k, n = k + 1 := ⟨n - 1, by simp at h; omega⟩
    rw [List.range_succ_eq_map, List.countP_cons, List.countP_map, List.countP_cons, ← ih (by simpa using h)]
    cases x <;> simp [Function.comp_def]

/-- The widths add up. -/
theorem widths_add (ps : List BitPart) :
    (bitsOf ps).countP Option.isSome + ((capturesOf ps).map Capture.size).sum = totalWidth ps := by
  induction ps with
  | nil => rfl
  | cons p ps ih =>
    rw [bitsOf_cons, List.countP_append]
    cases p with
    | fixed b => simp only [partBits, capturesOf, totalWidth, BitPart.width]; simp; omega
    | var n name =>
      have : (partBits (.var n name)).countP Option.isSome = 0 := by
        rw [List.countP_eq_zero]; intro x hx; simp [List.eq_of_mem_replicate hx]
      rw [this]
      simp only [capturesOf, totalWidth, BitPart.width, List.map_cons, List.sum_cons]; omega

/-- The number of fixed bits, both ways (R43). -/
theorem spec_eq (p : Pattern) : p.spec = (specificity p : Int) := by
  unfold Pattern.spec specificity
  rw [popcount_eq]
  congr 1
  apply List.countP_congr
  intro i _
  rw [bit_natCast, BitVec.testBit_toNat]
  simp

/-- A compiled record meets the invariants of a slot (R44). -/
theorem compile_ok {n : Nat} {ps : List BitPart} (h : ∀ p ∈ ps, PartOk n p) (ht : totalWidth ps ≤ 32)
    {name : PartName} (hn : NameOk n name) : PatternOk n (compile ps name) := by
  obtain ⟨hb, htw, hcaps, hname⟩ := compile_spec ps name
  obtain ⟨⟨hm, hc⟩, -⟩ := layout_bits ps
  have hp : 2 ^ totalWidth ps ≤ 2 ^ 32 := Nat.pow_le_pow_right (by norm_num) ht
  have hmask : (compile ps name).mask.toNat = (layout ps (totalWidth ps)).mask := by
    simp only [compile, BitVec.toNat_ofNat]; exact Nat.mod_eq_of_lt (by omega)
  have hcmp : (compile ps name).cmp.toNat = (layout ps (totalWidth ps)).cmp := by
    simp only [compile, BitVec.toNat_ofNat]; exact Nat.mod_eq_of_lt (by omega)
  rw [← totalWidth_eq] at htw
  have clear : ∀ i, literalAt ps i = none → (compile ps name).mask.getLsbD i = false := by
    intro i hi
    by_cases h32 : i < 32
    · rw [(hb i h32).1, hi]; rfl
    · exact BitVec.getLsbD_of_ge _ _ (by omega)
  constructor
  · apply BitVec.eq_of_getLsbD_eq
    intro i hi
    rw [BitVec.getLsbD_and, BitVec.getLsbD_not, (hb i hi).1, (hb i hi).2]
    rcases literalAt ps i with _ | _ | _ <;> simp
  · rw [htw, hmask, hcmp]; exact ⟨ht, hm, hc⟩
  · rw [hcaps, htw]
    intro c hc
    obtain ⟨h₁, h₂, h₃, h₄, h₅⟩ := capturesOf_spec h c hc
    exact ⟨h₁, h₂, h₃, h₄, fun i hi => clear i (h₅ i hi)⟩
  · rw [hcaps]; exact capturesOf_disjoint h
  · rw [htw, hcaps]
    intro i hi
    rcases parts_cover ps hi with h' | h'
    · exact .inl (by rw [(hb i (by omega)).1]; exact h')
    · exact .inr h'
  · rw [htw, hcaps, ← widths_add ps]
    congr 1
    unfold specificity
    rw [← List.countP_reverse (l := bitsOf ps), ← countP_range_getElem? (bitsOf ps).reverse (n := 32)
      (by rw [List.length_reverse, ← totalWidth_eq]; exact ht)]
    apply List.countP_congr
    intro i hi
    rw [(hb i (List.mem_range.mp hi)).1]; rfl
  · rw [hname]; exact hn

/-! ## Matching and capturing (R231, R237, R238) -/

/-- The candidate's bits are the low bits of the word on port B (R231). -/
theorem candidate_bit (s : State) {i : Nat} (h : i < 32) :
    s.candidate.getLsbD i = (word s s.ports.b).getLsbD i := by
  rw [State.candidate, ofInt_bit, State.uB, bit_word]
  cases (word s s.ports.b).getLsbD i <;> simp [h]

theorem candidate_eq (s : State) : s.candidate = (word s s.ports.b).setWidth 32 := by
  apply BitVec.eq_of_getLsbD_eq
  intro i hi
  rw [candidate_bit s hi, BitVec.getLsbD_setWidth]; simp [hi]

/-- The comparison under the mask, bit by bit. -/
theorem matches_iff (s : State) (p : Pattern) : p.matches s.candidate = true ↔ Matches p (word s s.ports.b) := by
  unfold Pattern.matches Matches
  rw [beq_iff_eq]
  constructor
  · intro h i hi
    rw [← h, BitVec.getLsbD_and, candidate_bit s hi]
  · intro h
    apply BitVec.eq_of_getLsbD_eq
    intro i hi
    rw [← h i hi, BitVec.getLsbD_and, candidate_bit s hi]

/-- A pattern compiled from parts matches exactly the words that agree with every literal. -/
theorem compile_matches {ps : List BitPart} (h : totalWidth ps ≤ 32) (name : PartName) {n : Nat} (x : BitVec n) :
    Matches (compile ps name) x ↔ ∀ i b, literalAt ps i = some b → x.getLsbD i = b := by
  have hb := (compile_spec ps name).1
  constructor
  · intro hm i b hi
    have h32 : i < 32 := by
      by_contra hc
      rw [literalAt_above (by omega)] at hi; cases hi
    have := hm i h32
    rw [(hb i h32).1, (hb i h32).2, hi] at this
    cases b <;> simpa using this
  · intro hl i hi
    rw [(hb i hi).1, (hb i hi).2]
    cases e : literalAt ps i with
    | none => simp
    | some b => rw [hl i b e]; cases b <;> simp

/-! ## Groups (R242) -/

/-- The rank of a member, both ways (R43, R46). -/
theorem specOf_eq {s : State} {m : Nat} {p : Pattern} (h : recordAt s.pt m = some p) : s.specOf m = specificity p := by
  rw [State.specOf, slotGet_eq, h]; exact spec_eq p

theorem sortMembers_perm (s : State) (ms : List Nat) : (s.sortMembers ms).Perm ms :=
  List.perm_insertionSort _ _

/-- Specificity never rises along the members. -/
theorem sortMembers_sorted (s : State) (ms : List Nat) :
    (s.sortMembers ms).Pairwise fun m n => s.specOf n ≤ s.specOf m := by
  have : Std.Total (fun m n : Nat => s.specOf n ≤ s.specOf m) := ⟨fun m n => le_total _ _⟩
  have : IsTrans Nat (fun m n : Nat => s.specOf n ≤ s.specOf m) := ⟨fun a b c h₁ h₂ => h₂.trans h₁⟩
  exact List.pairwise_insertionSort _ _

theorem filter_orderedInsert {α : Type} (key : α → Int) (k : Int) (a : α) (l : List α) :
    (l.orderedInsert (fun m n => key n ≤ key m) a).filter (fun x => key x = k) =
      (a :: l).filter (fun x => key x = k) := by
  induction l with
  | nil => rfl
  | cons b l ih =>
    rw [List.orderedInsert]
    split
    · rfl
    · next h =>
      rw [List.filter_cons, ih]
      simp only [List.filter_cons]
      by_cases ha : key a = k <;> by_cases hb : key b = k <;> simp [ha, hb]
      omega

/-- Members of equal specificity keep their order. -/
theorem sortMembers_stable (s : State) (ms : List Nat) (k : Int) :
    (s.sortMembers ms).filter (fun m => s.specOf m = k) = ms.filter (fun m => s.specOf m = k) := by
  unfold State.sortMembers
  induction ms with
  | nil => rfl
  | cons m ms ih =>
    rw [List.insertionSort_cons, filter_orderedInsert]
    simp only [List.filter_cons, ih]

end Sys2Proof.Machine.Laws
end

