-- ==== Sys2Proof/Laws/Exec.lean ====
section
/-! SUPPORT. Everything an instruction can do, said once: which of them write the unit and what they write, and what
else they leave alone; proofs about all instructions cite these lemmas instead of unfolding the meanings. -/

namespace Sys2Proof.Machine.Laws

open Sys2Proof.Safety

/-! ## The writing commands -/

/-- `PBFIX` answers, or appends a fixed part to a builder that is building and not full (R234). -/
theorem execPbfix_cases (s : State) : (∃ a, execPbfix s = answer s a) ∨
    s.phase = .building ∧ s.parts.length ≠ s.params.pbMax ∧ ∃ b, execPbfix s = appendAnswer s (.fixed b) := by
  unfold execPbfix
  split
  · exact .inl ⟨_, rfl⟩
  · next h =>
    split
    · exact .inl ⟨_, rfl⟩
    · split
      · exact .inl ⟨_, rfl⟩
      · next h' => exact .inr ⟨not_not.mp h, h', _, rfl⟩

/-- `PBVAR` answers, or appends a variable part of at least one bit (R235). -/
theorem execPbvar_cases (s : State) : (∃ a, execPbvar s = answer s a) ∨
    s.phase = .building ∧ s.parts.length ≠ s.params.pbMax ∧ 1 ≤ s.A.toNat ∧
      execPbvar s = appendAnswer s (.var s.A.toNat s.ports.sIn) := by
  unfold execPbvar
  split
  · exact .inl ⟨_, rfl⟩
  · next h =>
    split
    · exact .inl ⟨_, rfl⟩
    · next hA =>
      split
      · exact .inl ⟨_, rfl⟩
      · next h' => exact .inr ⟨not_not.mp h, h', by omega, rfl⟩

/-- What `PBBUILD` answers on success (R236). -/
def builtAnswer (p : Pattern) : Answer :=
  .ok { r0 := p.mask.toNat, r1 := p.cmp.toNat, r2 := p.spec }

/-- `PBBUILD` answers, or writes the compiled pattern to an invalid slot and ends the builder (R236). -/
theorem execPbbuild_cases (s : State) : (∃ k, execPbbuild s = answer s (.raise k)) ∨
    s.phase = .building ∧ totalWidth s.parts ≤ 32 ∧ ∃ m, slotOf s.params.nPat s.A = some m ∧ slotGet s.pt m = none ∧
      execPbbuild s = answer (s.storePattern m (compile s.parts s.ports.sIn)) (builtAnswer (compile s.parts s.ports.sIn)) := by
  unfold execPbbuild
  split
  · exact .inl ⟨_, rfl⟩
  · next h =>
    split
    · exact .inl ⟨_, rfl⟩
    · next m hm =>
      split
      · exact .inl ⟨_, rfl⟩
      · next ht =>
        split
        · exact .inl ⟨_, rfl⟩
        · next hv => exact .inr ⟨not_not.mp h, not_lt.mp ht, m, hm, by simpa using hv, rfl⟩

/-- The members that `checkMembers` lets through: one valid slot for each item of the list (R242). -/
theorem checkMembers_ok {s : State} : ∀ {xs : List Int} {ms : List Nat}, s.checkMembers xs = .ok ms →
    ms = xs.map Int.toNat ∧
    ∀ x ∈ xs, 0 ≤ x ∧ x.toNat < s.params.nPat ∧ ∃ p, recordAt s.pt x.toNat = some p
  | [], ms, h => by cases h; exact ⟨rfl, by simp⟩
  | x :: xs, ms, h => by
    unfold State.checkMembers at h
    split at h
    · cases h
    · next p hp =>
      split at h
      · cases h
      · next ns hns =>
        cases h
        obtain ⟨h₁, h₂⟩ := checkMembers_ok hns
        refine ⟨by rw [h₁, List.map_cons], fun y hy => ?_⟩
        rcases List.mem_cons.mp hy with rfl | hy
        · unfold State.readPattern readSlot at hp
          split at hp
          · cases hp
          · next k hk =>
            obtain ⟨h₀, -, rfl, hlt⟩ := slotOf_some hk
            split at hp
            · cases hp
            · next r hr => exact ⟨h₀, hlt, r, by rw [← slotGet_eq]; exact hr⟩
        · exact h₂ y hy

/-- `TIE_ORDER` only reorders (R5, U9). -/
theorem arrange_perm {p : Params} (h : ParamsOk p) (given : List Nat) : (p.tieOrder.arrange given).Perm given := by
  unfold TieOrder.arrange
  split
  · exact List.Perm.refl _
  · next rows hr =>
    split
    · next ms hms =>
      obtain ⟨before, after, rfl, -⟩ := List.lookup_eq_some_iff.mp hms
      exact h.ties _ hr (_, ms) List.mem_append_cons_self
    · exact List.Perm.refl _

theorem groupOf_perm {s : State} (h : ParamsOk s.params) (given : List Nat) : (s.groupOf given).Perm given :=
  (sortMembers_perm s _).trans (arrange_perm h given)

/-- `PGMAKE` answers, or writes a group of between 1 and GMAX valid members to an invalid slot (R242). -/
theorem execPgmake_cases (s : State) : (∃ k, execPgmake s = answer s (.raise k)) ∨
    ∃ g xs ms, slotOf s.params.nGrp s.A = some g ∧ s.ports.v = some xs ∧ 1 ≤ xs.length ∧ xs.length ≤ s.params.gMax ∧
      s.checkMembers xs = .ok ms ∧ slotGet s.gt g = none ∧
      execPgmake s = answer (s.storeGroup g ⟨s.groupOf ms⟩) (membersAnswer (s.groupOf ms)) := by
  unfold execPgmake
  split
  · exact .inl ⟨_, rfl⟩
  · exact .inl ⟨_, rfl⟩
  · exact .inl ⟨_, rfl⟩
  · next g x xs hg hv =>
    split
    · exact .inl ⟨_, rfl⟩
    · next hl =>
      split
      · exact .inl ⟨_, rfl⟩
      · next ms hms =>
        split
        · exact .inl ⟨_, rfl⟩
        · next hn =>
          exact .inr ⟨g, x :: xs, ms, hg, hv, by simp, not_lt.mp hl, hms, by simpa using hn, rfl⟩

/-! ## All commands -/

/-- What the unit's state is when an instruction answers, before the response is written. -/
inductive Writes (s : State) : Instr → State → Prop where
  | nothing (i : Instr) : Writes s i s
  | control (imm : BitVec 12) : Writes s (.csrw imm) (s.setDbgctl s.uA)
  | fresh : Writes s .pbnew s.newBuilder
  | fixed (b : Bool) : s.phase = .building → s.parts.length ≠ s.params.pbMax → Writes s .pbfix (s.appendPart (.fixed b))
  | var : s.phase = .building → s.parts.length ≠ s.params.pbMax → 1 ≤ s.A.toNat →
      Writes s .pbvar (s.appendPart (.var s.A.toNat s.ports.sIn))
  | pattern (m : Nat) : s.phase = .building → totalWidth s.parts ≤ 32 → slotOf s.params.nPat s.A = some m → slotGet s.pt m = none →
      Writes s .pbbuild (s.storePattern m (compile s.parts s.ports.sIn))
  | group (g : Nat) (xs : List Int) (ms : List Nat) : slotOf s.params.nGrp s.A = some g → s.ports.v = some xs →
      1 ≤ xs.length → xs.length ≤ s.params.gMax → s.checkMembers xs = .ok ms → slotGet s.gt g = none →
      Writes s .pgmake (s.storeGroup g ⟨s.groupOf ms⟩)

/-- Every instruction answers, in a state that it has written as `Writes` says; one that does not answer OK has written
nothing. -/
theorem exec_writes (i : Instr) (s : State) :
    ∃ u a, exec i s = answer u a ∧ Writes s i u ∧ (u = s ∨ ∃ r, a = .ok r) := by
  have plain {a : Answer} (h : exec i s = answer s a) :
      ∃ u a, exec i s = answer u a ∧ Writes s i u ∧ (u = s ∨ ∃ r, a = .ok r) := ⟨s, a, h, .nothing i, .inl rfl⟩
  cases i with
  | csrw imm =>
    by_cases h : imm = 0
    · exact ⟨_, _, if_neg (not_not.mpr (show imm = 0x000#12 from h)), .control imm, .inr ⟨_, rfl⟩⟩
    · exact plain (a := .raise .illegal) (if_pos (show imm ≠ 0x000#12 from h))
  | pbnew => exact ⟨_, _, rfl, .fresh, .inr ⟨_, rfl⟩⟩
  | pbfix =>
    rcases execPbfix_cases s with ⟨a, h⟩ | ⟨h₁, h₂, b, h⟩
    · exact plain h
    · exact ⟨_, _, h, .fixed b h₁ h₂, .inr ⟨_, rfl⟩⟩
  | pbvar =>
    rcases execPbvar_cases s with ⟨a, h⟩ | ⟨h₁, h₂, h₃, h⟩
    · exact plain h
    · exact ⟨_, _, h, .var h₁ h₂ h₃, .inr ⟨_, rfl⟩⟩
  | pbbuild =>
    rcases execPbbuild_cases s with ⟨a, h⟩ | ⟨h₁, h₂, m, h₃, h₄, h⟩
    · exact plain h
    · exact ⟨_, _, h, .pattern m h₁ h₂ h₃ h₄, .inr ⟨_, rfl⟩⟩
  | pgmake =>
    rcases execPgmake_cases s with ⟨a, h⟩ | ⟨g, xs, ms, h₁, h₂, h₃, h₄, h₅, h₆, h⟩
    · exact plain h
    · exact ⟨_, _, h, .group g xs ms h₁ h₂ h₃ h₄ h₅ h₆, .inr ⟨_, rfl⟩⟩
  | _ => exact plain rfl

end Sys2Proof.Machine.Laws
end

