-- ==== Sys2Proof/Laws/PerInstr.lean ====
section
/-! SUPPORT. The per-instruction family `OpcodeRow`: the word of an instruction carries the fixed bits that its row of
spec/opcode_table.json gives it. The rows are transcribed here a second time, as masks and matches, from the table. -/

namespace Sys2Proof.Laws

/-- The `mask` and `match` of an instruction's row of spec/opcode_table.json. -/
def OpcodeRow.row : Instr → BitVec 32 × BitVec 32
  | .csrr _ => (0xFFFFF000#32, 0x01000000#32)
  | .csrw _ => (0xFFFFF000#32, 0x02000000#32)
  | .getbit => (0xFFFFFFFF#32, 0x10000000#32)
  | .setbit => (0xFFFFFFFF#32, 0x11000000#32)
  | .clrbit => (0xFFFFFFFF#32, 0x12000000#32)
  | .togbit => (0xFFFFFFFF#32, 0x13000000#32)
  | .togbitx => (0xFFFFFFFF#32, 0x14000000#32)
  | .isset => (0xFFFFFFFF#32, 0x15000000#32)
  | .isclr => (0xFFFFFFFF#32, 0x16000000#32)
  | .msb => (0xFFFFFFFF#32, 0x17000000#32)
  | .cntset => (0xFFFFFFFF#32, 0x18000000#32)
  | .bitchunk => (0xFFFFFFFF#32, 0x19000000#32)
  | .bitrange => (0xFFFFFFFF#32, 0x1A000000#32)
  | .replrange => (0xFFFFFFFF#32, 0x1B000000#32)
  | .rotl => (0xFFFFFFFF#32, 0x1C000000#32)
  | .rotr => (0xFFFFFFFF#32, 0x1D000000#32)
  | .sext => (0xFFFFFFFF#32, 0x1E000000#32)
  | .shrl => (0xFFFFFFFF#32, 0x1F000000#32)
  | .shra => (0xFFFFFFFF#32, 0x20000000#32)
  | .rotrsh => (0xFFFFFFFF#32, 0x21000000#32)
  | .parseb => (0xFFFFFFFF#32, 0x22000000#32)
  | .renderb => (0xFFFFFFFF#32, 0x23000000#32)
  | .lhilo => (0xFFFFFFFF#32, 0x28000000#32)
  | .lgetbit => (0xFFFFFFFF#32, 0x29000000#32)
  | .lsetbit => (0xFFFFFFFF#32, 0x2A000000#32)
  | .lclrbit => (0xFFFFFFFF#32, 0x2B000000#32)
  | .lchunk => (0xFFFFFFFF#32, 0x2C000000#32)
  | .fit _ _ => (0xFF080FFF#32, 0x30000000#32)
  | .add _ _ => (0xFF080FFF#32, 0x31000000#32)
  | .sub _ _ => (0xFF080FFF#32, 0x32000000#32)
  | .mul _ _ => (0xFF080FFF#32, 0x33000000#32)
  | .pow _ _ => (0xFF080FFF#32, 0x34000000#32)
  | .neg _ _ => (0xFF180FFF#32, 0x35100000#32)
  | .npow2 _ _ => (0xFF080FFF#32, 0x36000000#32)
  | .nmult _ _ => (0xFF080FFF#32, 0x37000000#32)
  | .shl _ _ => (0xFF080FFF#32, 0x38000000#32)
  | .bits _ => (0xFFE80FFF#32, 0x40000000#32)
  | .nthbit _ _ => (0xFFE00FFF#32, 0x41000000#32)
  | .setnth _ _ => (0xFFE00FFF#32, 0x42000000#32)
  | .tognth _ _ => (0xFFE00FFF#32, 0x43000000#32)
  | .cnt1 _ => (0xFFE80FFF#32, 0x44000000#32)
  | .cnt0 _ => (0xFFE80FFF#32, 0x45000000#32)
  | .clo _ => (0xFFE80FFF#32, 0x46000000#32)
  | .clz _ => (0xFFE80FFF#32, 0x47000000#32)
  | .cto _ => (0xFFE80FFF#32, 0x48000000#32)
  | .ctz _ => (0xFFE80FFF#32, 0x49000000#32)
  | .dchunk _ _ => (0xFFE00FFF#32, 0x4A000000#32)
  | .dslice _ _ => (0xFFE00FFF#32, 0x4B000000#32)
  | .drepl _ _ => (0xFFE00FFF#32, 0x4C000000#32)
  | .drotl _ => (0xFFE80FFF#32, 0x4D000000#32)
  | .drotr _ => (0xFFE80FFF#32, 0x4E000000#32)
  | .dsext _ => (0xFFE80FFF#32, 0x4F000000#32)
  | .hilo _ => (0xFFE80FFF#32, 0x50000000#32)
  | .fromhilo _ => (0xFFE80FFF#32, 0x51000000#32)
  | .sqrt _ => (0xFFE80FFF#32, 0x52000000#32)
  | .log _ => (0xFFE80FFF#32, 0x53000000#32)
  | .log2 _ => (0xFFE80FFF#32, 0x54000000#32)
  | .log10 _ => (0xFFE80FFF#32, 0x55000000#32)
  | .midpt _ => (0xFFE80FFF#32, 0x56000000#32)
  | .clamp _ => (0xFFE80FFF#32, 0x57000000#32)
  | .rem _ => (0xFFE80FFF#32, 0x58000000#32)
  | .mod _ => (0xFFE80FFF#32, 0x59000000#32)
  | .cmplt _ => (0xFFE80FFF#32, 0x60000000#32)
  | .cmple _ => (0xFFE80FFF#32, 0x61000000#32)
  | .cmpgt _ => (0xFFE80FFF#32, 0x62000000#32)
  | .cmpge _ => (0xFFE80FFF#32, 0x63000000#32)
  | .and _ => (0xFFE80FFF#32, 0x64000000#32)
  | .or _ => (0xFFE80FFF#32, 0x65000000#32)
  | .xor _ => (0xFFE80FFF#32, 0x66000000#32)
  | .not _ => (0xFFE80FFF#32, 0x67000000#32)
  | .oshl _ => (0xFFE80FFF#32, 0x68000000#32)
  | .oshr _ => (0xFFE80FFF#32, 0x69000000#32)
  | .oshru _ => (0xFFE80FFF#32, 0x6A000000#32)
  | .pbnew => (0xFFFFFFFF#32, 0x70000000#32)
  | .pbfix => (0xFFFFFFFF#32, 0x71000000#32)
  | .pbvar => (0xFFFFFFFF#32, 0x72000000#32)
  | .pbbuild => (0xFFFFFFFF#32, 0x73000000#32)
  | .ptmatch => (0xFFFFFFFF#32, 0x74000000#32)
  | .ptcapt => (0xFFFFFFFF#32, 0x75000000#32)
  | .ptinfo => (0xFFFFFFFF#32, 0x76000000#32)
  | .ptcspec => (0xFFFFFFFF#32, 0x77000000#32)
  | .ptcmp => (0xFFFFFFFF#32, 0x78000000#32)
  | .pgmake => (0xFFFFFFFF#32, 0x79000000#32)
  | .pgmatch => (0xFFFFFFFF#32, 0x7A000000#32)
  | .pginfo => (0xFFFFFFFF#32, 0x7B000000#32)

/-- The fixed bits of an instruction's word are those of its row. -/
def OpcodeRow.Statement (i : Instr) : Prop := encode i &&& (OpcodeRow.row i).1 = (OpcodeRow.row i).2

/-! ## The fixed bits of each format (R83) -/

theorem fixedBits_c (opc : BitVec 8) (imm : BitVec 12) :
    (Fields.ofC opc imm).toWord &&& 0xFFFFF000#32 = opc ++ 0#24 := by
  apply BitVec.eq_of_getLsbD_eq
  intro i hi
  simp only [Fields.toWord, Fields.ofC, BitVec.getLsbD_and, BitVec.getLsbD_append]
  interval_cases i <;> simp

theorem fixedBits_p (opc : BitVec 8) (pol : Policy) (d : Desc) :
    (Fields.ofP opc pol d).toWord &&& 0xFF080FFF#32 = opc ++ 0#24 := by
  apply BitVec.eq_of_getLsbD_eq
  intro i hi
  simp only [Fields.toWord, Fields.ofP, BitVec.getLsbD_and, BitVec.getLsbD_append]
  interval_cases i <;> simp

theorem fixedBits_pSigned (opc : BitVec 8) (pol : Policy) (w : Nat) :
    (Fields.ofP opc pol ⟨w, true⟩).toWord &&& 0xFF180FFF#32 = opc ++ 0x100000#24 := by
  apply BitVec.eq_of_getLsbD_eq
  intro i hi
  simp only [Fields.toWord, Fields.ofP, BitVec.getLsbD_and, BitVec.getLsbD_append]
  interval_cases i <;> simp

theorem fixedBits_d (opc : BitVec 8) (d : Desc) :
    (Fields.ofD opc d).toWord &&& 0xFFE80FFF#32 = opc ++ 0#24 := by
  apply BitVec.eq_of_getLsbD_eq
  intro i hi
  simp only [Fields.toWord, Fields.ofD, BitVec.getLsbD_and, BitVec.getLsbD_append]
  interval_cases i <;> simp

theorem fixedBits_e (opc : BitVec 8) (d : Desc) (u : Bool) :
    (Fields.ofE opc d u).toWord &&& 0xFFE00FFF#32 = opc ++ 0#24 := by
  apply BitVec.eq_of_getLsbD_eq
  intro i hi
  simp only [Fields.toWord, Fields.ofE, BitVec.getLsbD_and, BitVec.getLsbD_append]
  interval_cases i <;> simp

/-! ## The rows -/

theorem OpcodeRow.csrr (imm : BitVec 12) : OpcodeRow.Statement (.csrr imm) := fixedBits_c _ _
theorem OpcodeRow.csrw (imm : BitVec 12) : OpcodeRow.Statement (.csrw imm) := fixedBits_c _ _
theorem OpcodeRow.getbit : OpcodeRow.Statement .getbit := rfl
theorem OpcodeRow.setbit : OpcodeRow.Statement .setbit := rfl
theorem OpcodeRow.clrbit : OpcodeRow.Statement .clrbit := rfl
theorem OpcodeRow.togbit : OpcodeRow.Statement .togbit := rfl
theorem OpcodeRow.togbitx : OpcodeRow.Statement .togbitx := rfl
theorem OpcodeRow.isset : OpcodeRow.Statement .isset := rfl
theorem OpcodeRow.isclr : OpcodeRow.Statement .isclr := rfl
theorem OpcodeRow.msb : OpcodeRow.Statement .msb := rfl
theorem OpcodeRow.cntset : OpcodeRow.Statement .cntset := rfl
theorem OpcodeRow.bitchunk : OpcodeRow.Statement .bitchunk := rfl
theorem OpcodeRow.bitrange : OpcodeRow.Statement .bitrange := rfl
theorem OpcodeRow.replrange : OpcodeRow.Statement .replrange := rfl
theorem OpcodeRow.rotl : OpcodeRow.Statement .rotl := rfl
theorem OpcodeRow.rotr : OpcodeRow.Statement .rotr := rfl
theorem OpcodeRow.sext : OpcodeRow.Statement .sext := rfl
theorem OpcodeRow.shrl : OpcodeRow.Statement .shrl := rfl
theorem OpcodeRow.shra : OpcodeRow.Statement .shra := rfl
theorem OpcodeRow.rotrsh : OpcodeRow.Statement .rotrsh := rfl
theorem OpcodeRow.parseb : OpcodeRow.Statement .parseb := rfl
theorem OpcodeRow.renderb : OpcodeRow.Statement .renderb := rfl
theorem OpcodeRow.lhilo : OpcodeRow.Statement .lhilo := rfl
theorem OpcodeRow.lgetbit : OpcodeRow.Statement .lgetbit := rfl
theorem OpcodeRow.lsetbit : OpcodeRow.Statement .lsetbit := rfl
theorem OpcodeRow.lclrbit : OpcodeRow.Statement .lclrbit := rfl
theorem OpcodeRow.lchunk : OpcodeRow.Statement .lchunk := rfl
theorem OpcodeRow.fit (pol : Policy) (d : Desc) : OpcodeRow.Statement (.fit pol d) := fixedBits_p _ _ _
theorem OpcodeRow.add (pol : Policy) (d : Desc) : OpcodeRow.Statement (.add pol d) := fixedBits_p _ _ _
theorem OpcodeRow.sub (pol : Policy) (d : Desc) : OpcodeRow.Statement (.sub pol d) := fixedBits_p _ _ _
theorem OpcodeRow.mul (pol : Policy) (d : Desc) : OpcodeRow.Statement (.mul pol d) := fixedBits_p _ _ _
theorem OpcodeRow.pow (pol : Policy) (d : Desc) : OpcodeRow.Statement (.pow pol d) := fixedBits_p _ _ _
theorem OpcodeRow.neg (pol : Policy) (w : Nat) : OpcodeRow.Statement (.neg pol w) := fixedBits_pSigned _ _ _
theorem OpcodeRow.npow2 (pol : Policy) (d : Desc) : OpcodeRow.Statement (.npow2 pol d) := fixedBits_p _ _ _
theorem OpcodeRow.nmult (pol : Policy) (d : Desc) : OpcodeRow.Statement (.nmult pol d) := fixedBits_p _ _ _
theorem OpcodeRow.shl (pol : Policy) (d : Desc) : OpcodeRow.Statement (.shl pol d) := fixedBits_p _ _ _
theorem OpcodeRow.bits (d : Desc) : OpcodeRow.Statement (.bits d) := fixedBits_d _ _
theorem OpcodeRow.nthbit (d : Desc) (u : Bool) : OpcodeRow.Statement (.nthbit d u) := fixedBits_e _ _ _
theorem OpcodeRow.setnth (d : Desc) (u : Bool) : OpcodeRow.Statement (.setnth d u) := fixedBits_e _ _ _
theorem OpcodeRow.tognth (d : Desc) (u : Bool) : OpcodeRow.Statement (.tognth d u) := fixedBits_e _ _ _
theorem OpcodeRow.cnt1 (d : Desc) : OpcodeRow.Statement (.cnt1 d) := fixedBits_d _ _
theorem OpcodeRow.cnt0 (d : Desc) : OpcodeRow.Statement (.cnt0 d) := fixedBits_d _ _
theorem OpcodeRow.clo (d : Desc) : OpcodeRow.Statement (.clo d) := fixedBits_d _ _
theorem OpcodeRow.clz (d : Desc) : OpcodeRow.Statement (.clz d) := fixedBits_d _ _
theorem OpcodeRow.cto (d : Desc) : OpcodeRow.Statement (.cto d) := fixedBits_d _ _
theorem OpcodeRow.ctz (d : Desc) : OpcodeRow.Statement (.ctz d) := fixedBits_d _ _
theorem OpcodeRow.dchunk (d : Desc) (u : Bool) : OpcodeRow.Statement (.dchunk d u) := fixedBits_e _ _ _
theorem OpcodeRow.dslice (d : Desc) (u : Bool) : OpcodeRow.Statement (.dslice d u) := fixedBits_e _ _ _
theorem OpcodeRow.drepl (d : Desc) (u : Bool) : OpcodeRow.Statement (.drepl d u) := fixedBits_e _ _ _
theorem OpcodeRow.drotl (d : Desc) : OpcodeRow.Statement (.drotl d) := fixedBits_d _ _
theorem OpcodeRow.drotr (d : Desc) : OpcodeRow.Statement (.drotr d) := fixedBits_d _ _
theorem OpcodeRow.dsext (d : Desc) : OpcodeRow.Statement (.dsext d) := fixedBits_d _ _
theorem OpcodeRow.hilo (d : Desc) : OpcodeRow.Statement (.hilo d) := fixedBits_d _ _
theorem OpcodeRow.fromhilo (d : Desc) : OpcodeRow.Statement (.fromhilo d) := fixedBits_d _ _
theorem OpcodeRow.sqrt (d : Desc) : OpcodeRow.Statement (.sqrt d) := fixedBits_d _ _
theorem OpcodeRow.log (d : Desc) : OpcodeRow.Statement (.log d) := fixedBits_d _ _
theorem OpcodeRow.log2 (d : Desc) : OpcodeRow.Statement (.log2 d) := fixedBits_d _ _
theorem OpcodeRow.log10 (d : Desc) : OpcodeRow.Statement (.log10 d) := fixedBits_d _ _
theorem OpcodeRow.midpt (d : Desc) : OpcodeRow.Statement (.midpt d) := fixedBits_d _ _
theorem OpcodeRow.clamp (d : Desc) : OpcodeRow.Statement (.clamp d) := fixedBits_d _ _
theorem OpcodeRow.rem (d : Desc) : OpcodeRow.Statement (.rem d) := fixedBits_d _ _
theorem OpcodeRow.mod (d : Desc) : OpcodeRow.Statement (.mod d) := fixedBits_d _ _
theorem OpcodeRow.cmplt (d : Desc) : OpcodeRow.Statement (.cmplt d) := fixedBits_d _ _
theorem OpcodeRow.cmple (d : Desc) : OpcodeRow.Statement (.cmple d) := fixedBits_d _ _
theorem OpcodeRow.cmpgt (d : Desc) : OpcodeRow.Statement (.cmpgt d) := fixedBits_d _ _
theorem OpcodeRow.cmpge (d : Desc) : OpcodeRow.Statement (.cmpge d) := fixedBits_d _ _
theorem OpcodeRow.and (d : Desc) : OpcodeRow.Statement (.and d) := fixedBits_d _ _
theorem OpcodeRow.or (d : Desc) : OpcodeRow.Statement (.or d) := fixedBits_d _ _
theorem OpcodeRow.xor (d : Desc) : OpcodeRow.Statement (.xor d) := fixedBits_d _ _
theorem OpcodeRow.not (d : Desc) : OpcodeRow.Statement (.not d) := fixedBits_d _ _
theorem OpcodeRow.oshl (d : Desc) : OpcodeRow.Statement (.oshl d) := fixedBits_d _ _
theorem OpcodeRow.oshr (d : Desc) : OpcodeRow.Statement (.oshr d) := fixedBits_d _ _
theorem OpcodeRow.oshru (d : Desc) : OpcodeRow.Statement (.oshru d) := fixedBits_d _ _
theorem OpcodeRow.pbnew : OpcodeRow.Statement .pbnew := rfl
theorem OpcodeRow.pbfix : OpcodeRow.Statement .pbfix := rfl
theorem OpcodeRow.pbvar : OpcodeRow.Statement .pbvar := rfl
theorem OpcodeRow.pbbuild : OpcodeRow.Statement .pbbuild := rfl
theorem OpcodeRow.ptmatch : OpcodeRow.Statement .ptmatch := rfl
theorem OpcodeRow.ptcapt : OpcodeRow.Statement .ptcapt := rfl
theorem OpcodeRow.ptinfo : OpcodeRow.Statement .ptinfo := rfl
theorem OpcodeRow.ptcspec : OpcodeRow.Statement .ptcspec := rfl
theorem OpcodeRow.ptcmp : OpcodeRow.Statement .ptcmp := rfl
theorem OpcodeRow.pgmake : OpcodeRow.Statement .pgmake := rfl
theorem OpcodeRow.pgmatch : OpcodeRow.Statement .pgmatch := rfl
theorem OpcodeRow.pginfo : OpcodeRow.Statement .pginfo := rfl

end Sys2Proof.Laws
end

