-- ==== Sys2Proof/Laws/Searches.lean ====
section
/-! SUPPORT. The specification of each search of Machine/Numbers.lean: square root, logarithm, next power of two, next
multiple, and the folded power. -/

namespace Sys2Proof.Machine.Laws

/-! ## Square root (R200) -/

theorem sqrtFrom_spec (a : Int) : ∀ (i : Nat) (r : Int), 0 ≤ r → r * r ≤ a → a < (r + 2 ^ i) * (r + 2 ^ i) →
    0 ≤ sqrtFrom a i r ∧ sqrtFrom a i r * sqrtFrom a i r ≤ a ∧ a < (sqrtFrom a i r + 1) * (sqrtFrom a i r + 1)
  | 0, r, h₀, h₁, h₂ => ⟨h₀, h₁, by simpa [sqrtFrom] using h₂⟩
  | i + 1, r, h₀, h₁, h₂ => by
    have hp := two_pow_pos i
    unfold sqrtFrom
    split
    · next h => exact sqrtFrom_spec a i _ (by omega) h (by rw [pow_succ] at h₂; convert h₂ using 1; ring)
    · next h => exact sqrtFrom_spec a i _ h₀ h₁ (by omega)

/-- The floor square root. -/
theorem sqrtFloor_spec {w : Nat} {a : Int} (h₀ : 0 ≤ a) (h₁ : a < 2 ^ w) :
    0 ≤ sqrtFloor w a ∧ sqrtFloor w a * sqrtFloor w a ≤ a ∧ a < (sqrtFloor w a + 1) * (sqrtFloor w a + 1) :=
  sqrtFrom_spec a w 0 le_rfl (by simpa using h₀) (by nlinarith [two_pow_pos w])

/-! ## Logarithm (R201) -/

theorem logFrom_spec {base : Int} (hb : 2 ≤ base) : ∀ (fuel : Nat) (a : Int), 1 ≤ a → a < 2 ^ fuel →
    ∃ k : Nat, logFrom base fuel a = k ∧ base ^ k ≤ a ∧ a < base ^ (k + 1)
  | 0, a, h₀, h₁ => by simp at h₁; omega
  | fuel + 1, a, h₀, h₁ => by
    unfold logFrom
    split
    · next h => exact ⟨0, by simp, by simpa using h₀, by simpa using h⟩
    · next h =>
      have hq : 1 ≤ a / base := by rw [Int.le_ediv_iff_mul_le (by omega)]; omega
      have hl : a / base < 2 ^ fuel := by
        rw [Int.ediv_lt_iff_lt_mul (by omega)]
        rw [pow_succ] at h₁
        nlinarith [two_pow_pos fuel]
      obtain ⟨k, e, h₂, h₃⟩ := logFrom_spec hb fuel _ hq hl
      refine ⟨k + 1, by rw [e]; push_cast; ring, ?_, ?_⟩
      · rw [Int.le_ediv_iff_mul_le (by omega)] at h₂
        rw [pow_succ]; exact h₂
      · rw [Int.ediv_lt_iff_lt_mul (by omega)] at h₃
        rw [pow_succ]; exact h₃

/-- The floor logarithm. -/
theorem logFloor_spec {w : Nat} {base a : Int} (hb : 2 ≤ base) (h₀ : 1 ≤ a) (h₁ : a < 2 ^ w) :
    ∃ k : Nat, logFloor w base a = k ∧ base ^ k ≤ a ∧ a < base ^ (k + 1) := logFrom_spec hb w a h₀ h₁

/-! ## Next power of two, next multiple (R158, R159) -/

theorem powerFrom_spec (a : Int) : ∀ (fuel k : Nat), a ≤ 2 ^ (k + fuel) →
    ∃ j : Nat, powerFrom a fuel k = 2 ^ j ∧ a ≤ 2 ^ j ∧ ∀ i : Nat, k ≤ i → i < j → (2 : Int) ^ i < a
  | 0, k, h => ⟨k, rfl, by simpa using h, fun i h₁ h₂ => by omega⟩
  | fuel + 1, k, h => by
    unfold powerFrom
    split
    · next h' => exact ⟨k, rfl, h', fun i h₁ h₂ => by omega⟩
    · next h' =>
      obtain ⟨j, e, h₁, h₂⟩ := powerFrom_spec a fuel (k + 1) (by rw [show k + 1 + fuel = k + (fuel + 1) by omega]; exact h)
      refine ⟨j, e, h₁, fun i hi hj => ?_⟩
      rcases Nat.eq_or_lt_of_le hi with rfl | hi
      · omega
      · exact h₂ i hi hj

/-- The least power of two at or above `a`. -/
theorem nextPowerOf2_spec {w : Nat} {a : Int} (h : a ≤ 2 ^ w) :
    ∃ j : Nat, nextPowerOf2 w a = 2 ^ j ∧ a ≤ 2 ^ j ∧ ∀ i : Nat, i < j → (2 : Int) ^ i < a := by
  obtain ⟨j, e, h₁, h₂⟩ := powerFrom_spec a w 0 (by simpa using h)
  exact ⟨j, e, h₁, fun i hi => h₂ i (Nat.zero_le _) hi⟩

/-- The least multiple of `m` at or above `a`. -/
theorem nextMultipleOf_spec (a : Int) {m : Int} (hm : 0 < m) :
    nextMultipleOf a m % m = 0 ∧ a ≤ nextMultipleOf a m ∧ nextMultipleOf a m < a + m := by
  have h₁ := Int.emod_nonneg (a + m - 1) hm.ne'
  have h₂ := Int.emod_lt_of_pos (a + m - 1) hm
  have h₃ := Int.emod_add_mul_ediv (a + m - 1) m
  have e : nextMultipleOf a m = a + m - 1 - (a + m - 1) % m := by
    unfold nextMultipleOf; rw [mul_comm]; omega
  refine ⟨by unfold nextMultipleOf; exact Int.mul_emod_left _ _, by omega, by omega⟩

/-! ## Folded products (R150) -/

variable (w : Nat)

theorem fold_of_small {e : Int} (h : |e| < 2 ^ w) : fold w e = e := by
  unfold fold; rw [abs_lt] at h; rw [if_pos h]

/-- A large number folds to a large number of the same sign and residue. -/
theorem fold_of_large {e : Int} (h : 2 ^ w ≤ |e|) :
    2 ^ w ≤ |fold w e| ∧ (0 < fold w e ↔ 0 < e) ∧ fold w e % 2 ^ w = e % 2 ^ w := by
  have hp := two_pow_pos w
  have h₁ := Int.emod_nonneg e hp.ne'
  have h₂ := Int.emod_lt_of_pos e hp
  have hn : ¬ (-2 ^ w < e ∧ e < 2 ^ w) := by rw [le_abs] at h; omega
  unfold fold
  rw [if_neg hn]
  split
  · refine ⟨by rw [le_abs]; omega, by omega, by simp⟩
  · refine ⟨by rw [le_abs, pow_succ]; omega, by rw [pow_succ]; omega, ?_⟩
    rw [pow_succ, Int.sub_mul_emod_self_left, Int.emod_emod_of_dvd _ (dvd_refl _)]

/-- Folding forgets of large numbers all but the sign and the residue. -/
theorem fold_congr {x y : Int} (hx : 2 ^ w ≤ |x|) (hy : 2 ^ w ≤ |y|) (hs : 0 < x ↔ 0 < y)
    (hm : x % 2 ^ w = y % 2 ^ w) : fold w x = fold w y := by
  have nx : ¬ (-2 ^ w < x ∧ x < 2 ^ w) := by rw [le_abs] at hx; omega
  have ny : ¬ (-2 ^ w < y ∧ y < 2 ^ w) := by rw [le_abs] at hy; omega
  unfold fold
  simp only [if_neg nx, if_neg ny, hs, hm]

theorem fold_ne_zero {e : Int} (h : e ≠ 0) : fold w e ≠ 0 := by
  rcases lt_or_ge |e| (2 ^ w) with hs | hl
  · rw [fold_of_small w hs]; exact h
  · intro hz
    have := (fold_of_large w hl).1
    rw [hz, abs_zero] at this
    exact absurd (two_pow_pos w) (not_lt.mpr this)

theorem fold_pos_iff (e : Int) : 0 < fold w e ↔ 0 < e := by
  rcases lt_or_ge |e| (2 ^ w) with hs | hl
  · rw [fold_of_small w hs]
  · exact (fold_of_large w hl).2.1

theorem fold_emod (e : Int) : fold w e % 2 ^ w = e % 2 ^ w := by
  rcases lt_or_ge |e| (2 ^ w) with hs | hl
  · rw [fold_of_small w hs]
  · exact (fold_of_large w hl).2.2

theorem large_mul {x y : Int} (hx : 2 ^ w ≤ |x|) (hy : y ≠ 0) : 2 ^ w ≤ |x * y| := by
  rw [abs_mul]
  have : 1 ≤ |y| := Int.one_le_abs hy
  nlinarith [abs_nonneg x]

theorem pos_mul_iff {x y x' y' : Int} (hx : x ≠ 0) (hy : y ≠ 0) (hx' : x' ≠ 0) (hy' : y' ≠ 0)
    (h₁ : 0 < x' ↔ 0 < x) (h₂ : 0 < y' ↔ 0 < y) : 0 < x' * y' ↔ 0 < x * y := by
  simp only [mul_pos_iff]
  omega

/-- Folding the factors changes nothing that folding the product would not forget. -/
theorem fold_mul (x y : Int) : fold w (fold w x * fold w y) = fold w (x * y) := by
  have hp := two_pow_pos w
  by_cases hx : x = 0
  · simp [hx, fold, hp]
  by_cases hy : y = 0
  · simp [hy, fold, hp]
  have hx' := fold_ne_zero w hx
  have hy' := fold_ne_zero w hy
  have hs := pos_mul_iff hx hy hx' hy' (fold_pos_iff w x) (fold_pos_iff w y)
  have hm : fold w x * fold w y % 2 ^ w = x * y % 2 ^ w := by
    rw [Int.mul_emod, fold_emod, fold_emod, ← Int.mul_emod]
  rcases lt_or_ge |x| (2 ^ w) with sx | lx
  · rcases lt_or_ge |y| (2 ^ w) with sy | ly
    · rw [fold_of_small w sx, fold_of_small w sy]
    · refine fold_congr w ?_ ?_ hs hm
      · rw [mul_comm]; exact large_mul w (fold_of_large w ly).1 hx'
      · rw [mul_comm]; exact large_mul w ly hx
  · exact fold_congr w (large_mul w (fold_of_large w lx).1 hy') (large_mul w lx hy) hs hm

theorem fold_fold (x : Int) : fold w (fold w x) = fold w x := by
  rcases lt_or_ge |x| (2 ^ w) with hs | hl
  · rw [fold_of_small w hs, fold_of_small w hs]
  · have h := fold_of_large w hl
    exact fold_congr w h.1 hl h.2.1 h.2.2

theorem fold_mul_left (x y : Int) : fold w (fold w x * y) = fold w (x * y) := by
  rw [← fold_mul, fold_fold, fold_mul]

theorem fold_mul_right (x y : Int) : fold w (x * fold w y) = fold w (x * y) := by
  rw [mul_comm, fold_mul_left, mul_comm]

/-- Folding the base changes nothing that folding the power would not forget. -/
theorem fold_pow (x : Int) (n : Nat) : fold w (fold w x ^ n) = fold w (x ^ n) := by
  induction n with
  | zero => simp
  | succ n ih => rw [pow_succ, ← fold_mul_left, ih, fold_mul_left, fold_mul_right, ← pow_succ]

/-- Squaring computes the exact power, as far as folding sees it. -/
theorem fold_powFrom : ∀ (fuel : Nat) (a : Int) (n : Nat), n < 2 ^ fuel →
    fold w (powFrom w fuel a n) = fold w (a ^ n)
  | 0, a, n, h => by
    have : n = 0 := by simpa using h
    subst this; simp [powFrom]
  | fuel + 1, a, n, h => by
    have hh : fold w (powFrom w fuel (fold w (a * a)) (n / 2)) = fold w (a ^ (2 * (n / 2))) := by
      rw [fold_powFrom fuel _ _ (by rw [pow_succ] at h; omega), fold_pow, pow_mul, pow_two]
    unfold powFrom
    simp only
    split
    · next ho =>
      rw [fold_fold, ← fold_mul_right, hh, fold_mul_right, ← pow_succ']
      congr 2; omega
    · next he =>
      rw [hh]
      congr 2; omega

/-- What `POW` computes folds to what the exact power folds to (R156). -/
theorem fold_powFold (a : Int) (n : Nat) : fold w (powFold w a n) = fold w (a ^ n) :=
  fold_powFrom w _ a n Nat.lt_log2_self

end Sys2Proof.Machine.Laws
end

