-- ==== Sys2Proof/Laws/Policy.lean ====
section
/-! SUPPORT. Descriptors and the policy function: wrapped and clamped values are valid (R10), the pattern of a value and
the value of a pattern are inverse (R11), and every policy sees of an exact result no more than its folded form. -/

namespace Sys2Proof.Machine.Laws

/-! ## Descriptors (R9 to R11) -/

/-- What a well-formed descriptor is. -/
theorem width_of_wf {wMax : Nat} {d : Desc} (h : d.wf wMax = true) :
    1 ≤ d.width ∧ d.width ≤ wMax ∧ d.width < 2 ^ 7 := by simpa [Desc.wf] using h

/-- A width of at least 1 as a successor. -/
theorem width_succ {d : Desc} (h : 1 ≤ d.width) : ∃ k, d.width = k + 1 := ⟨d.width - 1, by omega⟩

/-- `max - min + 1 = 2^W` (R9). -/
theorem max_sub_min {d : Desc} (h : 1 ≤ d.width) : maxOf d - minOf d + 1 = 2 ^ d.width := by
  obtain ⟨k, hk⟩ := width_succ h
  unfold maxOf minOf
  rw [hk, Nat.add_sub_cancel, pow_succ]
  split <;> ring

theorem min_le_max {d : Desc} (h : 1 ≤ d.width) : minOf d ≤ maxOf d := by
  have := max_sub_min h
  have := two_pow_pos d.width
  omega

/-- Every bound of a descriptor lies strictly between `-2^W` and `2^W`. -/
theorem bounds_lt {d : Desc} (h : 1 ≤ d.width) : -2 ^ d.width < minOf d ∧ maxOf d < 2 ^ d.width := by
  obtain ⟨k, hk⟩ := width_succ h
  have := two_pow_pos k
  unfold maxOf minOf
  rw [hk, Nat.add_sub_cancel, pow_succ]
  constructor <;> split <;> omega

/-- A valid value of a descriptor of fewer than `n` bits is a number of RAW. -/
theorem isRaw_of_inRange {d : Desc} {n : Nat} (h : 1 ≤ d.width) (hn : d.width ≤ n - 1) {v : Int} (hv : InRange d v) :
    IsRaw n v := by
  have h₁ : (2 : Int) ^ d.width ≤ 2 ^ (n - 1) := pow_le_pow_right₀ (by norm_num) hn
  have h₂ := bounds_lt h
  exact ⟨by omega, by omega⟩

/-- Wrapping keeps the residue modulo `2^W`. -/
theorem wrap_emod {d : Desc} (e : Int) : wrap d e % 2 ^ d.width = e % 2 ^ d.width := by
  unfold wrap sext low
  split
  · split
    · simp
    · simp
  · simp

/-- A wrapped result is valid (R10). -/
theorem wrap_inRange {d : Desc} (h : 1 ≤ d.width) (e : Int) : InRange d (wrap d e) := by
  obtain ⟨k, hk⟩ := width_succ h
  have h₀ := low_nonneg e d.width
  have h₁ := low_lt e d.width
  have h₂ := two_pow_pos k
  unfold InRange wrap sext minOf maxOf
  rw [hk, Nat.add_sub_cancel] at *
  rw [pow_succ] at *
  split
  · split <;> omega
  · omega

/-- Two valid values with the same residue are equal. -/
theorem eq_of_emod_eq {d : Desc} (h : 1 ≤ d.width) {x y : Int} (hx : InRange d x) (hy : InRange d y)
    (hm : x % 2 ^ d.width = y % 2 ^ d.width) : x = y := by
  have h₁ := max_sub_min h
  have h₂ : (2 : Int) ^ d.width ∣ x - y := Int.ModEq.dvd hm.symm
  obtain ⟨c, hc⟩ := h₂
  have h₃ := two_pow_pos d.width
  have h₄ := hx.1; have h₅ := hx.2; have h₆ := hy.1; have h₇ := hy.2
  have : c = 0 := by
    have a₁ : 2 ^ d.width * c < 2 ^ d.width * 1 := by omega
    have a₂ : 2 ^ d.width * (-1) < 2 ^ d.width * c := by omega
    have b₁ := lt_of_mul_lt_mul_left a₁ h₃.le
    have b₂ := lt_of_mul_lt_mul_left a₂ h₃.le
    omega
  subst this
  omega

/-- Wrapping returns a valid value itself (R10). -/
theorem wrap_eq_self {d : Desc} (h : 1 ≤ d.width) {v : Int} (hv : InRange d v) : wrap d v = v :=
  eq_of_emod_eq h (wrap_inRange h v) hv (wrap_emod v)

/-- The value of the pattern of a valid value is the value (R11). -/
theorem patVal_pat {d : Desc} (h : 1 ≤ d.width) {v : Int} (hv : InRange d v) : patVal d (pat d v) = v :=
  eq_of_emod_eq h (wrap_inRange h _) hv (by rw [patVal, wrap_emod, pat, low, Int.emod_emod_of_dvd _ (dvd_refl _)])

/-- The pattern of the value of a pattern is the pattern (R11). -/
theorem pat_patVal {d : Desc} {p : Int} (h₀ : 0 ≤ p) (h₁ : p < 2 ^ d.width) : pat d (patVal d p) = p := by
  rw [pat, low, patVal, wrap_emod, Int.emod_eq_of_lt h₀ h₁]

/-- A clamped result is valid (R10). -/
theorem clampv_inRange {d : Desc} (h : 1 ≤ d.width) (e : Int) : InRange d (clampv d e) := by
  have := min_le_max h
  unfold InRange clampv
  omega

/-- Clamping returns a valid value itself (R10). -/
theorem clampv_eq_self {d : Desc} {v : Int} (hv : InRange d v) : clampv d v = v := by
  have := hv.1; have := hv.2
  unfold clampv
  omega

/-! ## The policy function (R150) -/

/-- Wrapping sees the residue only. -/
theorem wrap_congr {d : Desc} {x y : Int} (h : x % 2 ^ d.width = y % 2 ^ d.width) : wrap d x = wrap d y := by
  unfold wrap low
  rw [h]

/-- What a policy can see of an exact result: its residue, and on which side of the bounds it lies. -/
theorem applyPolicy_congr {d : Desc} (h : 1 ≤ d.width) (en : Bool) (pol : Policy) {x y : Int}
    (hm : x % 2 ^ d.width = y % 2 ^ d.width) (hlo : minOf d ≤ x ↔ minOf d ≤ y) (hhi : x ≤ maxOf d ↔ y ≤ maxOf d) :
    applyPolicy en pol d x = applyPolicy en pol d y := by
  have hr : InRange d x ↔ InRange d y := by unfold InRange; rw [hlo, hhi]
  by_cases hx : InRange d x
  · rw [eq_of_emod_eq h hx (hr.mp hx) hm]
  · have hy : ¬ InRange d y := fun c => hx (hr.mpr c)
    have hc : clampv d x = clampv d y := by
      have := min_le_max h
      unfold InRange at hx hy
      unfold clampv
      omega
    simp only [applyPolicy, if_neg hx, if_neg hy, wrap_congr hm, hc]

/-- No policy tells an exact result from its folded form. -/
theorem applyPolicy_fold {d : Desc} (h : 1 ≤ d.width) (en : Bool) (pol : Policy) (e : Int) :
    applyPolicy en pol d (fold d.width e) = applyPolicy en pol d e := by
  rcases lt_or_ge |e| (2 ^ d.width) with he | he
  · rw [fold_of_small _ he]
  · have hb := bounds_lt h
    have hs := fold_pos_iff d.width e
    have hl := (fold_of_large _ he).1
    have hmm := min_le_max h
    apply applyPolicy_congr h en pol (fold_emod _ e)
    · rcases abs_cases e with ⟨_, _⟩ | ⟨_, _⟩ <;> rcases abs_cases (fold d.width e) with ⟨_, _⟩ | ⟨_, _⟩ <;>
        constructor <;> intro _ <;> omega
    · rcases abs_cases e with ⟨_, _⟩ | ⟨_, _⟩ <;> rcases abs_cases (fold d.width e) with ⟨_, _⟩ | ⟨_, _⟩ <;>
        constructor <;> intro _ <;> omega

/-- `POW`: the policy of `powFold` is the policy of the exact power (R156). -/
theorem applyPolicy_powFold {d : Desc} (h : 1 ≤ d.width) (en : Bool) (pol : Policy) (a : Int) (n : Nat) :
    applyPolicy en pol d (powFold d.width a n) = applyPolicy en pol d (a ^ n) := by
  rw [← applyPolicy_fold h, fold_powFold, applyPolicy_fold h]

/-- Past the width the count makes no difference to the residue. -/
theorem timesPow2_emod (w : Nat) (a : Int) (n : Nat) : timesPow2 w a n % 2 ^ w = a * 2 ^ n % 2 ^ w := by
  unfold timesPow2
  rcases le_or_gt n w with hn | hn
  · rw [min_eq_left hn]
  · rw [min_eq_right hn.le, Int.emod_eq_zero_of_dvd, Int.emod_eq_zero_of_dvd]
    · exact Dvd.dvd.mul_left (pow_dvd_pow 2 hn.le) a
    · exact Dvd.dvd.mul_left dvd_rfl a

/-- `OSHL`: wrapping `timesPow2` is wrapping the exact product (R225). -/
theorem wrap_timesPow2 (d : Desc) (a : Int) (n : Nat) : wrap d (timesPow2 d.width a n) = wrap d (a * 2 ^ n) :=
  wrap_congr (timesPow2_emod d.width a n)

/-- `SHL`: the policy of `timesPow2` is the policy of the exact product (R160). -/
theorem applyPolicy_timesPow2 {d : Desc} (h : 1 ≤ d.width) (en : Bool) (pol : Policy) (a : Int) (n : Nat) :
    applyPolicy en pol d (timesPow2 d.width a n) = applyPolicy en pol d (a * 2 ^ n) := by
  rcases le_or_gt n d.width with hn | hn
  · rw [timesPow2, min_eq_left hn]
  · have hb := bounds_lt h
    have h₁ : (2 : Int) ^ d.width ≤ 2 ^ n := pow_le_pow_right₀ (by norm_num) hn.le
    have h₂ : timesPow2 d.width a n = a * 2 ^ d.width := by rw [timesPow2, min_eq_right hn.le]
    have h₃ := timesPow2_emod d.width a n
    have hp := two_pow_pos d.width
    rw [h₂] at h₃ ⊢
    have := min_le_max h
    rcases lt_trichotomy a 0 with ha | rfl | ha
    · have h₄ : a * 2 ^ n ≤ a * 2 ^ d.width := mul_le_mul_of_nonpos_left h₁ ha.le
      have h₅ : a * 2 ^ d.width ≤ -2 ^ d.width := by nlinarith
      apply applyPolicy_congr h en pol h₃ <;> constructor <;> intro _ <;> omega
    · simp
    · have h₄ : a * 2 ^ d.width ≤ a * 2 ^ n := mul_le_mul_of_nonneg_left h₁ ha.le
      have h₅ : 2 ^ d.width ≤ a * 2 ^ d.width := by nlinarith
      apply applyPolicy_congr h en pol h₃ <;> constructor <;> intro _ <;> omega

end Sys2Proof.Machine.Laws
end

