-- ==== Sys2Proof/Laws/State.lean ====
section
/-! SUPPORT. What each update of the state does to each field, one lemma per field and update. -/

namespace Sys2Proof.Machine

/-! ### `respond OK` -/

@[simp] theorem State.reply_params (s : State) (r : Results) : (s.reply r).params = s.params := rfl
@[simp] theorem State.reply_assertEn (s : State) (r : Results) : (s.reply r).assertEn = s.assertEn := rfl
@[simp] theorem State.reply_phase (s : State) (r : Results) : (s.reply r).phase = s.phase := rfl
@[simp] theorem State.reply_parts (s : State) (r : Results) : (s.reply r).parts = s.parts := rfl
@[simp] theorem State.reply_pt (s : State) (r : Results) : (s.reply r).pt = s.pt := rfl
@[simp] theorem State.reply_gt (s : State) (r : Results) : (s.reply r).gt = s.gt := rfl
@[simp] theorem State.reply_ports (s : State) (r : Results) : (s.reply r).ports = s.ports := rfl
@[simp] theorem State.reply_pending (s : State) (r : Results) : (s.reply r).pending = s.pending := rfl
@[simp] theorem State.reply_response (s : State) (r : Results) :
    (s.reply r).response = some ⟨.ok, r.onPorts s.params⟩ := rfl
@[simp] theorem State.reply_freeCount (s : State) (r : Results) : (s.reply r).freeCount = s.freeCount := rfl

/-! ### `respond NOVALUE` -/

@[simp] theorem State.noValue_params (s : State) : s.noValue.params = s.params := rfl
@[simp] theorem State.noValue_assertEn (s : State) : s.noValue.assertEn = s.assertEn := rfl
@[simp] theorem State.noValue_phase (s : State) : s.noValue.phase = s.phase := rfl
@[simp] theorem State.noValue_parts (s : State) : s.noValue.parts = s.parts := rfl
@[simp] theorem State.noValue_pt (s : State) : s.noValue.pt = s.pt := rfl
@[simp] theorem State.noValue_gt (s : State) : s.noValue.gt = s.gt := rfl
@[simp] theorem State.noValue_ports (s : State) : s.noValue.ports = s.ports := rfl
@[simp] theorem State.noValue_pending (s : State) : s.noValue.pending = s.pending := rfl
@[simp] theorem State.noValue_response (s : State) : s.noValue.response = some ⟨.novalue, {}⟩ := rfl
@[simp] theorem State.noValue_freeCount (s : State) : s.noValue.freeCount = s.freeCount := rfl

/-! ### `raise` -/

@[simp] theorem State.raise_params (s : State) (k : Kind) : (s.raise k).params = s.params := rfl
@[simp] theorem State.raise_assertEn (s : State) (k : Kind) : (s.raise k).assertEn = s.assertEn := rfl
@[simp] theorem State.raise_phase (s : State) (k : Kind) : (s.raise k).phase = s.phase := rfl
@[simp] theorem State.raise_parts (s : State) (k : Kind) : (s.raise k).parts = s.parts := rfl
@[simp] theorem State.raise_pt (s : State) (k : Kind) : (s.raise k).pt = s.pt := rfl
@[simp] theorem State.raise_gt (s : State) (k : Kind) : (s.raise k).gt = s.gt := rfl
@[simp] theorem State.raise_ports (s : State) (k : Kind) : (s.raise k).ports = s.ports := rfl
@[simp] theorem State.raise_pending (s : State) (k : Kind) : (s.raise k).pending = s.pending := rfl
@[simp] theorem State.raise_response (s : State) (k : Kind) : (s.raise k).response = some ⟨.fault k, {}⟩ := rfl
@[simp] theorem State.raise_freeCount (s : State) (k : Kind) : (s.raise k).freeCount = s.freeCount := rfl

/-! ### an UNSPECIFIED case -/

@[simp] theorem State.unspecified_params (s : State) : s.unspecified.params = s.params := rfl
@[simp] theorem State.unspecified_assertEn (s : State) : s.unspecified.assertEn = s.assertEn := rfl
@[simp] theorem State.unspecified_phase (s : State) : s.unspecified.phase = s.phase := rfl
@[simp] theorem State.unspecified_parts (s : State) : s.unspecified.parts = s.parts := rfl
@[simp] theorem State.unspecified_pt (s : State) : s.unspecified.pt = s.pt := rfl
@[simp] theorem State.unspecified_gt (s : State) : s.unspecified.gt = s.gt := rfl
@[simp] theorem State.unspecified_ports (s : State) : s.unspecified.ports = s.ports := rfl
@[simp] theorem State.unspecified_pending (s : State) : s.unspecified.pending = s.pending := rfl
@[simp] theorem State.unspecified_response (s : State) : s.unspecified.response = some s.freeResponse := rfl
@[simp] theorem State.unspecified_freeCount (s : State) : s.unspecified.freeCount = s.freeCount + 1 := rfl

/-! ### a write of DBGCTL -/

@[simp] theorem State.setDbgctl_params (s : State) (v : Int) : (s.setDbgctl v).params = s.params := rfl
@[simp] theorem State.setDbgctl_assertEn (s : State) (v : Int) : (s.setDbgctl v).assertEn = decide (bit v 0 = 1) := rfl
@[simp] theorem State.setDbgctl_phase (s : State) (v : Int) : (s.setDbgctl v).phase = s.phase := rfl
@[simp] theorem State.setDbgctl_parts (s : State) (v : Int) : (s.setDbgctl v).parts = s.parts := rfl
@[simp] theorem State.setDbgctl_pt (s : State) (v : Int) : (s.setDbgctl v).pt = s.pt := rfl
@[simp] theorem State.setDbgctl_gt (s : State) (v : Int) : (s.setDbgctl v).gt = s.gt := rfl
@[simp] theorem State.setDbgctl_ports (s : State) (v : Int) : (s.setDbgctl v).ports = s.ports := rfl
@[simp] theorem State.setDbgctl_pending (s : State) (v : Int) : (s.setDbgctl v).pending = s.pending := rfl
@[simp] theorem State.setDbgctl_response (s : State) (v : Int) : (s.setDbgctl v).response = s.response := rfl
@[simp] theorem State.setDbgctl_freeCount (s : State) (v : Int) : (s.setDbgctl v).freeCount = s.freeCount := rfl

/-! ### a fresh builder -/

@[simp] theorem State.newBuilder_params (s : State) : s.newBuilder.params = s.params := rfl
@[simp] theorem State.newBuilder_assertEn (s : State) : s.newBuilder.assertEn = s.assertEn := rfl
@[simp] theorem State.newBuilder_phase (s : State) : s.newBuilder.phase = .building := rfl
@[simp] theorem State.newBuilder_parts (s : State) : s.newBuilder.parts = [] := rfl
@[simp] theorem State.newBuilder_pt (s : State) : s.newBuilder.pt = s.pt := rfl
@[simp] theorem State.newBuilder_gt (s : State) : s.newBuilder.gt = s.gt := rfl
@[simp] theorem State.newBuilder_ports (s : State) : s.newBuilder.ports = s.ports := rfl
@[simp] theorem State.newBuilder_pending (s : State) : s.newBuilder.pending = s.pending := rfl
@[simp] theorem State.newBuilder_response (s : State) : s.newBuilder.response = s.response := rfl
@[simp] theorem State.newBuilder_freeCount (s : State) : s.newBuilder.freeCount = s.freeCount := rfl

/-! ### a part appended -/

@[simp] theorem State.appendPart_params (s : State) (p : BitPart) : (s.appendPart p).params = s.params := rfl
@[simp] theorem State.appendPart_assertEn (s : State) (p : BitPart) : (s.appendPart p).assertEn = s.assertEn := rfl
@[simp] theorem State.appendPart_phase (s : State) (p : BitPart) : (s.appendPart p).phase = s.phase := rfl
@[simp] theorem State.appendPart_parts (s : State) (p : BitPart) : (s.appendPart p).parts = s.parts ++ [p] := rfl
@[simp] theorem State.appendPart_pt (s : State) (p : BitPart) : (s.appendPart p).pt = s.pt := rfl
@[simp] theorem State.appendPart_gt (s : State) (p : BitPart) : (s.appendPart p).gt = s.gt := rfl
@[simp] theorem State.appendPart_ports (s : State) (p : BitPart) : (s.appendPart p).ports = s.ports := rfl
@[simp] theorem State.appendPart_pending (s : State) (p : BitPart) : (s.appendPart p).pending = s.pending := rfl
@[simp] theorem State.appendPart_response (s : State) (p : BitPart) : (s.appendPart p).response = s.response := rfl
@[simp] theorem State.appendPart_freeCount (s : State) (p : BitPart) : (s.appendPart p).freeCount = s.freeCount := rfl

/-! ### a pattern slot written -/

@[simp] theorem State.storePattern_params (s : State) (m : Nat) (p : Pattern) : (s.storePattern m p).params = s.params := rfl
@[simp] theorem State.storePattern_assertEn (s : State) (m : Nat) (p : Pattern) : (s.storePattern m p).assertEn = s.assertEn := rfl
@[simp] theorem State.storePattern_phase (s : State) (m : Nat) (p : Pattern) : (s.storePattern m p).phase = .built := rfl
@[simp] theorem State.storePattern_parts (s : State) (m : Nat) (p : Pattern) : (s.storePattern m p).parts = s.parts := rfl
@[simp] theorem State.storePattern_pt (s : State) (m : Nat) (p : Pattern) : (s.storePattern m p).pt = slotPut s.pt m p := rfl
@[simp] theorem State.storePattern_gt (s : State) (m : Nat) (p : Pattern) : (s.storePattern m p).gt = s.gt := rfl
@[simp] theorem State.storePattern_ports (s : State) (m : Nat) (p : Pattern) : (s.storePattern m p).ports = s.ports := rfl
@[simp] theorem State.storePattern_pending (s : State) (m : Nat) (p : Pattern) : (s.storePattern m p).pending = s.pending := rfl
@[simp] theorem State.storePattern_response (s : State) (m : Nat) (p : Pattern) : (s.storePattern m p).response = s.response := rfl
@[simp] theorem State.storePattern_freeCount (s : State) (m : Nat) (p : Pattern) : (s.storePattern m p).freeCount = s.freeCount := rfl

/-! ### a group slot written -/

@[simp] theorem State.storeGroup_params (s : State) (g : Nat) (r : GroupRecord) : (s.storeGroup g r).params = s.params := rfl
@[simp] theorem State.storeGroup_assertEn (s : State) (g : Nat) (r : GroupRecord) : (s.storeGroup g r).assertEn = s.assertEn := rfl
@[simp] theorem State.storeGroup_phase (s : State) (g : Nat) (r : GroupRecord) : (s.storeGroup g r).phase = s.phase := rfl
@[simp] theorem State.storeGroup_parts (s : State) (g : Nat) (r : GroupRecord) : (s.storeGroup g r).parts = s.parts := rfl
@[simp] theorem State.storeGroup_pt (s : State) (g : Nat) (r : GroupRecord) : (s.storeGroup g r).pt = s.pt := rfl
@[simp] theorem State.storeGroup_gt (s : State) (g : Nat) (r : GroupRecord) : (s.storeGroup g r).gt = slotPut s.gt g r := rfl
@[simp] theorem State.storeGroup_ports (s : State) (g : Nat) (r : GroupRecord) : (s.storeGroup g r).ports = s.ports := rfl
@[simp] theorem State.storeGroup_pending (s : State) (g : Nat) (r : GroupRecord) : (s.storeGroup g r).pending = s.pending := rfl
@[simp] theorem State.storeGroup_response (s : State) (g : Nat) (r : GroupRecord) : (s.storeGroup g r).response = s.response := rfl
@[simp] theorem State.storeGroup_freeCount (s : State) (g : Nat) (r : GroupRecord) : (s.storeGroup g r).freeCount = s.freeCount := rfl

/-! ### a command presented -/

@[simp] theorem State.present_params (s : State) (c : Command) (rest : List Input) : (s.present c rest).params = s.params := rfl
@[simp] theorem State.present_assertEn (s : State) (c : Command) (rest : List Input) : (s.present c rest).assertEn = s.assertEn := rfl
@[simp] theorem State.present_phase (s : State) (c : Command) (rest : List Input) : (s.present c rest).phase = s.phase := rfl
@[simp] theorem State.present_parts (s : State) (c : Command) (rest : List Input) : (s.present c rest).parts = s.parts := rfl
@[simp] theorem State.present_pt (s : State) (c : Command) (rest : List Input) : (s.present c rest).pt = s.pt := rfl
@[simp] theorem State.present_gt (s : State) (c : Command) (rest : List Input) : (s.present c rest).gt = s.gt := rfl
@[simp] theorem State.present_ports (s : State) (c : Command) (rest : List Input) : (s.present c rest).ports = c.ports := rfl
@[simp] theorem State.present_pending (s : State) (c : Command) (rest : List Input) : (s.present c rest).pending = rest := rfl
@[simp] theorem State.present_response (s : State) (c : Command) (rest : List Input) : (s.present c rest).response = s.response := rfl
@[simp] theorem State.present_freeCount (s : State) (c : Command) (rest : List Input) : (s.present c rest).freeCount = s.freeCount := rfl

/-! ### reset as an input -/

@[simp] theorem State.applyReset_params (s : State) (rest : List Input) : (s.applyReset rest).params = s.params := rfl
@[simp] theorem State.applyReset_assertEn (s : State) (rest : List Input) : (s.applyReset rest).assertEn = true := rfl
@[simp] theorem State.applyReset_phase (s : State) (rest : List Input) : (s.applyReset rest).phase = .building := rfl
@[simp] theorem State.applyReset_parts (s : State) (rest : List Input) : (s.applyReset rest).parts = [] := rfl
@[simp] theorem State.applyReset_pt (s : State) (rest : List Input) : (s.applyReset rest).pt = [] := rfl
@[simp] theorem State.applyReset_gt (s : State) (rest : List Input) : (s.applyReset rest).gt = [] := rfl
@[simp] theorem State.applyReset_ports (s : State) (rest : List Input) : (s.applyReset rest).ports = {} := rfl
@[simp] theorem State.applyReset_pending (s : State) (rest : List Input) : (s.applyReset rest).pending = rest := rfl
@[simp] theorem State.applyReset_response (s : State) (rest : List Input) : (s.applyReset rest).response = none := rfl
@[simp] theorem State.applyReset_freeCount (s : State) (rest : List Input) : (s.applyReset rest).freeCount = s.freeCount := rfl

/-! ### the reset state (R50) -/

@[simp] theorem State.atReset_params (p : Params) : (State.atReset p).params = p := rfl
@[simp] theorem State.atReset_assertEn (p : Params) : (State.atReset p).assertEn = true := rfl
@[simp] theorem State.atReset_phase (p : Params) : (State.atReset p).phase = .building := rfl
@[simp] theorem State.atReset_parts (p : Params) : (State.atReset p).parts = [] := rfl
@[simp] theorem State.atReset_pt (p : Params) : (State.atReset p).pt = [] := rfl
@[simp] theorem State.atReset_gt (p : Params) : (State.atReset p).gt = [] := rfl
@[simp] theorem State.atReset_ports (p : Params) : (State.atReset p).ports = {} := rfl
@[simp] theorem State.atReset_pending (p : Params) : (State.atReset p).pending = [] := rfl
@[simp] theorem State.atReset_response (p : Params) : (State.atReset p).response = none := rfl
@[simp] theorem State.atReset_freeCount (p : Params) : (State.atReset p).freeCount = 0 := rfl
@[simp] theorem State.reset_eq : State.reset = State.atReset {} := rfl

/-! ### a command lined up -/

@[simp] theorem State.lineUp_none (s : State) : s.lineUp none = s := rfl
@[simp] theorem State.lineUp_some (s : State) (x : CommandWord) :
    s.lineUp (some x) = { s with pending := .command ⟨x, s.ports⟩ :: s.pending } := rfl

/-- Presenting the very command that was lined up with the ports as they stand gives the state back. -/
@[simp] theorem State.present_self (s : State) (x : CommandWord) :
    ({ s with pending := .command ⟨x, s.ports⟩ :: s.pending } : State).present ⟨x, s.ports⟩ s.pending = s := rfl

end Sys2Proof.Machine
end

