-- ==== Sys2Proof/Laws/Strings.lean ====
section
/-! SUPPORT. Binary strings: what the parsing loop gives for any list of characters, and what the rendered digits stand
for (spec/40_raw_bitops.md R128, R129). -/

namespace Sys2Proof.Machine.Laws

open Sys2Proof.Safety

/-- One more digit in front adds its weight. -/
theorem binaryValue_cons (c : Char8) (cs : Str) :
    binaryValue (c :: cs) = (if c = 0x31#8 then 1 else 0) * 2 ^ cs.length + binaryValue cs := by
  unfold binaryValue
  rw [List.reverse_cons, List.map_append, Nat.ofDigits_append]
  simp [Nat.ofDigits_singleton, mul_comm, add_comm]

theorem binaryValue_lt (cs : Str) : binaryValue cs < 2 ^ cs.length := by
  induction cs with
  | nil => simp [binaryValue]
  | cons c cs ih =>
    rw [binaryValue_cons, List.length_cons, pow_succ]
    split <;> omega

theorem binary_cons {c : Char8} {cs : Str} : Binary (c :: cs) ↔ (c = 0x30#8 ∨ c = 0x31#8) ∧ Binary cs := by
  simp [Binary]

/-- The parsing loop reads a list of binary digits as its value. -/
theorem parseFrom_binary (v : Int) (cs : Str) (h : Binary cs) :
    parseFrom v cs = some (v * 2 ^ cs.length + binaryValue cs) := by
  induction cs generalizing v with
  | nil => simp [parseFrom, binaryValue]
  | cons c cs ih =>
    obtain ⟨hc, hcs⟩ := binary_cons.mp h
    rw [parseFrom, binaryValue_cons, List.length_cons, pow_succ]
    rcases hc with rfl | rfl
    · rw [if_pos (by decide), ih _ hcs]
      simp; ring
    · rw [if_neg (by decide), if_pos (by decide), ih _ hcs]
      simp; ring

/-- The parsing loop stops at any other character. -/
theorem parseFrom_not_binary (v : Int) (cs : Str) (h : ¬ Binary cs) : parseFrom v cs = none := by
  induction cs generalizing v with
  | nil => exact absurd (by simp [Binary]) h
  | cons c cs ih =>
    rw [parseFrom]
    rw [binary_cons, not_and_or] at h
    by_cases h₀ : c = charZero
    · rw [if_pos h₀]
      exact ih _ (h.resolve_left fun k => k (.inl h₀))
    · rw [if_neg h₀]
      by_cases h₁ : c = charOne
      · rw [if_pos h₁]
        exact ih _ (h.resolve_left fun k => k (.inr h₁))
      · rw [if_neg h₁]

theorem digits_length (a : Int) (n : Nat) : (digits a n).length = n := by
  induction n with
  | zero => rfl
  | succ n ih => rw [digits, List.length_cons, ih]

theorem digits_binary (a : Int) (n : Nat) : Binary (digits a n) := by
  induction n with
  | zero => simp [digits, Binary]
  | succ n ih =>
    rw [digits, binary_cons]
    refine ⟨?_, ih⟩
    split
    · exact .inr rfl
    · exact .inl rfl

/-- One more bit of a number. -/
theorem low_succ (a : Int) (n : Nat) : low a (n + 1) = low a n + 2 ^ n * bit a n := by
  have h₀ := low_nonneg a n
  have h₁ := low_lt a n
  have h₂ := two_pow_pos n
  have h₃ : a = low a n + 2 ^ n * (a / 2 ^ n) := (Int.emod_add_mul_ediv a (2 ^ n)).symm
  have h₄ : a / 2 ^ n = bit a n + 2 * (a / 2 ^ n / 2) := (Int.emod_add_mul_ediv (a / 2 ^ n) 2).symm
  have e : a = low a n + 2 ^ n * bit a n + 2 ^ (n + 1) * (a / 2 ^ n / 2) := by
    rw [pow_succ]; linear_combination h₃ + 2 ^ n * h₄
  conv_lhs => rw [e, low, Int.add_mul_emod_self_left]
  rw [pow_succ]
  apply Int.emod_eq_of_lt
  · rcases bit_eq_zero_or_one a n with h | h <;> rw [h] <;> omega
  · rcases bit_eq_zero_or_one a n with h | h <;> rw [h] <;> omega

/-- `n` digits stand for the low `n` bits. -/
theorem binaryValue_digits (a : Int) (n : Nat) : (binaryValue (digits a n) : Int) = low a n := by
  induction n with
  | zero => simp [digits, binaryValue, low]
  | succ n ih =>
    rw [digits, binaryValue_cons, digits_length]
    push_cast
    rw [ih]
    rw [low_succ]
    rcases bit_eq_zero_or_one a n with h | h
    · rw [h, if_neg (by decide)]; ring
    · rw [h, if_pos (by decide)]; ring

/-- Zeros in front change neither the value nor the alphabet. -/
theorem binaryValue_zeros (n : Nat) (cs : Str) : binaryValue (List.replicate n charZero ++ cs) = binaryValue cs := by
  induction n with
  | zero => rfl
  | succ n ih =>
    rw [List.replicate_succ, List.cons_append, binaryValue_cons, ih, if_neg (by decide)]
    simp

theorem binary_zeros (n : Nat) {cs : Str} (h : Binary cs) : Binary (List.replicate n charZero ++ cs) := by
  induction n with
  | zero => exact h
  | succ n ih => exact binary_cons.mpr ⟨.inl rfl, ih⟩

/-- The number of digits is the size of the number, at least one. -/
theorem digitCount_eq (a : Nat) : digitCount a = max 1 (Nat.size a) := by
  rw [digitCount, Int.toNat_natCast]
  rcases Nat.eq_zero_or_pos a with rfl | ha
  · simp
  · have s₁ := Nat.lt_size.mpr (Nat.log2_self_le ha.ne')
    have s₂ := Nat.size_le.mpr (Nat.lt_log2_self (n := a))
    omega

/-- RENDERB's digits: binary, with the value asked for, as long as asked for (R129). -/
theorem render_spec (a pad : Nat) :
    Binary (padZeros pad (render a)) ∧ binaryValue (padZeros pad (render a)) = a ∧
    (padZeros pad (render a)).length = max pad (max 1 (Nat.size a)) := by
  have hc := digitCount_eq a
  unfold padZeros render
  refine ⟨binary_zeros _ (digits_binary _ _), ?_, ?_⟩
  · rw [binaryValue_zeros]
    have hv := binaryValue_digits (a : Int) (digitCount a)
    have hs : a < 2 ^ (digitCount a) := by
      apply Nat.size_le.mp
      omega
    rw [low_eq_self (by positivity) (by exact_mod_cast hs)] at hv
    exact_mod_cast hv
  · rw [List.length_append, List.length_replicate, digits_length, hc]
    omega

end Sys2Proof.Machine.Laws
end

