-- ==== Sys2Proof/Laws/Values.lean ====
section
/-! SUPPORT. The two readings of a descriptor, on integers (Machine/Operands.lean) and on bit vectors (Safety.lean),
agree (spec/00_scope.md R9 to R11, spec/42_policy_arith.md R150, spec/43_descriptor_bitops.md R189). -/

namespace Sys2Proof.Machine.Laws

open Sys2Proof.Safety

theorem least_eq (d : Desc) : least d = minOf d := rfl

theorem greatest_eq (d : Desc) : greatest d = maxOf d := rfl

/-- A word of `w` bits read as a signed number. -/
theorem sext_toNat {w : Nat} (hw : 1 ≤ w) (p : BitVec w) : sext w (p.toNat : Int) = p.toInt := by
  rw [sext, BitVec.toInt_eq_toNat_cond]
  obtain ⟨k, rfl⟩ : ∃ k, w = k + 1 := ⟨w - 1, by omega⟩
  have e : (2 : Nat) ^ (k + 1) = 2 * 2 ^ k := by rw [pow_succ, mul_comm]
  have c : (2 : Int) ^ (k + 1 - 1) = ((2 ^ k : Nat) : Int) := by push_cast; rfl
  rw [c]
  split <;> split <;> push_cast <;> omega

/-- The value of a pattern, both ways (R11). -/
theorem valueOf_eq {d : Desc} (h : 1 ≤ d.width) (p : BitVec d.width) : valueOf d p = patVal d (p.toNat : Int) := by
  have hp : low (p.toNat : Int) d.width = p.toNat :=
    low_eq_self (by positivity) (by exact_mod_cast p.isLt)
  unfold valueOf patVal wrap
  rw [hp, sext_toNat h]

/-- The pattern of a number, both ways (R11). -/
theorem pat_eq (d : Desc) (x : Int) : pat d x = ((patternOf d x).toNat : Int) := (toNat_ofInt _ _).symm

/-- The value of a wrapped number, both ways (R10). -/
theorem valueOf_patternOf {d : Desc} (h : 1 ≤ d.width) (e : Int) : valueOf d (patternOf d e) = wrap d e := by
  rw [valueOf_eq h, ← pat_eq, patVal]
  exact wrap_congr (Int.emod_emod_of_dvd _ (dvd_refl _))

/-- The value of the pattern of a valid operand is the operand (R11). -/
theorem valueOf_of_valid {d : Desc} (h : 1 ≤ d.width) {x : Int} (hx : Valid d x) : valueOf d (patternOf d x) = x := by
  rw [valueOf_patternOf h, wrap_eq_self h hx]

/-- A value of the descriptor is valid (R189 d). -/
theorem valueOf_valid {d : Desc} (h : 1 ≤ d.width) (p : BitVec d.width) : Valid d (valueOf d p) := by
  rw [valueOf_eq h]; exact wrap_inRange h _

/-- The policy function, both ways (R150). -/
theorem policyOutcome_eq {d : Desc} (h : 1 ≤ d.width) (en : Bool) (pol : Policy) (e : Int) :
    applyPolicy en pol d e = policyOutcome en pol d e := by
  unfold applyPolicy policyOutcome
  by_cases hr : InRange d e
  · rw [if_pos hr, if_pos (show Fits d e from hr)]; rfl
  · rw [if_neg hr, if_neg (show ¬ Fits d e from hr)]
    cases pol with
    | checked => simp only [Answer.value, valueOf_patternOf h]
    | unchecked => rfl
    | attempt => rfl
    | wrapped => simp only [Answer.value, valueOf_patternOf h]
    | clamped =>
      have hm := min_le_max h
      have : clampv d e = if e < least d then least d else greatest d := by
        unfold clampv
        rw [least_eq, greatest_eq]
        unfold InRange at hr
        split <;> omega
      simp only [Answer.value, this]

/-- The bits of the pattern are the low bits of the number. -/
theorem bit_pat (d : Desc) (x : Int) (i : Nat) : bit (pat d x) i = if (patternOf d x).getLsbD i then 1 else 0 := by
  rw [pat_eq, bit_natCast, BitVec.testBit_toNat]

theorem pat_bounds (d : Desc) (v : Int) : 0 ≤ pat d v ∧ pat d v < 2 ^ d.width := ⟨low_nonneg _ _, low_lt _ _⟩

/-- A pattern is known by its bits: the value of a number with the low bits of `p` is the value of `p`. -/
theorem patVal_of_bits {d : Desc} (h : 1 ≤ d.width) {q : Int} {p : BitVec d.width}
    (hb : ∀ i < d.width, bit q i = if p.getLsbD i then 1 else 0) : patVal d q = valueOf d p := by
  rw [patVal, ← valueOf_patternOf h]
  congr 1
  apply BitVec.eq_of_getLsbD_eq
  intro i hi
  rw [patternOf, ofInt_bit, hb i hi]
  cases p.getLsbD i <;> simp [hi]

end Sys2Proof.Machine.Laws
end

