-- ==== Sys2Proof/Tests/Slice0.lean ====
section
/-! SUPPORT. The model's own tests. Expected values come from outside the model: words laid out from the encoding tables
of spec/30_encoding.md and spec/opcode_table.json, responses from spec/95_test_vectors.md and from the examples in the
rules. The last part shows, for every statement that has hypotheses, a state and operands that meet them. -/

namespace Sys2Proof.Tests

open Sys2Proof Sys2Proof.Machine Sys2Proof.Safety

/-! ## Well-formedness (R89 c to g, R90) -/

theorem test_wf_accepts : Desc.wf 63 ⟨1, true⟩ = true ∧ Desc.wf 63 ⟨63, false⟩ = true ∧ Instr.wf 63 (.csrr 1#12) = true ∧
    Instr.wf 63 (.csrw 0#12) = true ∧ Instr.wf 63 (.hilo ⟨62, true⟩) = true ∧ Instr.wf 63 (.neg .attempt 63) = true := by decide

theorem test_wf_refuses_width_zero : Instr.wf 63 (.bits ⟨0, false⟩) = false := by decide

theorem test_wf_refuses_width_above_63 : Instr.wf 63 (.add .checked ⟨64, true⟩) = false := by decide

theorem test_wf_refuses_negation_of_width_zero : Instr.wf 63 (.neg .checked 0) = false := by decide

theorem test_wf_refuses_unknown_csr : Instr.wf 63 (.csrr 2#12) = false := by decide

theorem test_wf_refuses_write_of_pbstat : Instr.wf 63 (.csrw 1#12) = false := by decide

theorem test_wf_refuses_odd_halves : Instr.wf 63 (.hilo ⟨7, false⟩) = false ∧ Instr.wf 63 (.fromhilo ⟨63, true⟩) = false := by
  decide

/-! ## Decoding: every constructor, words laid out from the tables (R81, R88) -/

theorem test_decode_system :
    decode 63 0x01000001#32 = .ok (.csrr 1#12) ∧
    decode 63 0x02000000#32 = .ok (.csrw 0#12) := by decide

theorem test_decode_raw_bits :
    decode 63 0x10000000#32 = .ok .getbit ∧
    decode 63 0x11000000#32 = .ok .setbit ∧
    decode 63 0x12000000#32 = .ok .clrbit ∧
    decode 63 0x13000000#32 = .ok .togbit ∧
    decode 63 0x14000000#32 = .ok .togbitx ∧
    decode 63 0x15000000#32 = .ok .isset ∧
    decode 63 0x16000000#32 = .ok .isclr ∧
    decode 63 0x17000000#32 = .ok .msb ∧
    decode 63 0x18000000#32 = .ok .cntset ∧
    decode 63 0x19000000#32 = .ok .bitchunk ∧
    decode 63 0x1A000000#32 = .ok .bitrange ∧
    decode 63 0x1B000000#32 = .ok .replrange ∧
    decode 63 0x1C000000#32 = .ok .rotl ∧
    decode 63 0x1D000000#32 = .ok .rotr ∧
    decode 63 0x1E000000#32 = .ok .sext ∧
    decode 63 0x1F000000#32 = .ok .shrl ∧
    decode 63 0x20000000#32 = .ok .shra ∧
    decode 63 0x21000000#32 = .ok .rotrsh ∧
    decode 63 0x22000000#32 = .ok .parseb ∧
    decode 63 0x23000000#32 = .ok .renderb := by decide

theorem test_decode_long_helper :
    decode 63 0x28000000#32 = .ok .lhilo ∧
    decode 63 0x29000000#32 = .ok .lgetbit ∧
    decode 63 0x2A000000#32 = .ok .lsetbit ∧
    decode 63 0x2B000000#32 = .ok .lclrbit ∧
    decode 63 0x2C000000#32 = .ok .lchunk := by decide

theorem test_decode_policy_arithmetic :
    decode 63 0x30008000#32 = .ok (.fit .checked ⟨8, false⟩) ∧
    decode 63 0x3133F000#32 = .ok (.add .unchecked ⟨63, true⟩) ∧
    decode 63 0x32401000#32 = .ok (.sub .attempt ⟨1, false⟩) ∧
    decode 63 0x33710000#32 = .ok (.mul .wrapped ⟨16, true⟩) ∧
    decode 63 0x34820000#32 = .ok (.pow .clamped ⟨32, false⟩) ∧
    decode 63 0x35105000#32 = .ok (.neg .checked 5) ∧
    decode 63 0x3623E000#32 = .ok (.npow2 .unchecked ⟨62, false⟩) ∧
    decode 63 0x37521000#32 = .ok (.nmult .attempt ⟨33, true⟩) ∧
    decode 63 0x38602000#32 = .ok (.shl .wrapped ⟨2, false⟩) := by decide

theorem test_decode_descriptor_bits :
    decode 63 0x40108000#32 = .ok (.bits ⟨8, true⟩) ∧
    decode 63 0x410BF000#32 = .ok (.nthbit ⟨63, false⟩ true) ∧
    decode 63 0x42181000#32 = .ok (.setnth ⟨1, true⟩ true) ∧
    decode 63 0x43010000#32 = .ok (.tognth ⟨16, false⟩ false) ∧
    decode 63 0x44120000#32 = .ok (.cnt1 ⟨32, true⟩) ∧
    decode 63 0x45005000#32 = .ok (.cnt0 ⟨5, false⟩) ∧
    decode 63 0x4613E000#32 = .ok (.clo ⟨62, true⟩) ∧
    decode 63 0x47021000#32 = .ok (.clz ⟨33, false⟩) ∧
    decode 63 0x48102000#32 = .ok (.cto ⟨2, true⟩) ∧
    decode 63 0x49008000#32 = .ok (.ctz ⟨8, false⟩) ∧
    decode 63 0x4A1BF000#32 = .ok (.dchunk ⟨63, true⟩ true) ∧
    decode 63 0x4B001000#32 = .ok (.dslice ⟨1, false⟩ false) ∧
    decode 63 0x4C110000#32 = .ok (.drepl ⟨16, true⟩ false) ∧
    decode 63 0x4D020000#32 = .ok (.drotl ⟨32, false⟩) ∧
    decode 63 0x4E105000#32 = .ok (.drotr ⟨5, true⟩) ∧
    decode 63 0x4F03E000#32 = .ok (.dsext ⟨62, false⟩) ∧
    decode 63 0x5013E000#32 = .ok (.hilo ⟨62, true⟩) ∧
    decode 63 0x51002000#32 = .ok (.fromhilo ⟨2, false⟩) := by decide

theorem test_decode_descriptor_math :
    decode 63 0x52108000#32 = .ok (.sqrt ⟨8, true⟩) ∧
    decode 63 0x5303F000#32 = .ok (.log ⟨63, false⟩) ∧
    decode 63 0x54101000#32 = .ok (.log2 ⟨1, true⟩) ∧
    decode 63 0x55010000#32 = .ok (.log10 ⟨16, false⟩) ∧
    decode 63 0x56120000#32 = .ok (.midpt ⟨32, true⟩) ∧
    decode 63 0x57005000#32 = .ok (.clamp ⟨5, false⟩) ∧
    decode 63 0x5813E000#32 = .ok (.rem ⟨62, true⟩) ∧
    decode 63 0x59021000#32 = .ok (.mod ⟨33, false⟩) ∧
    decode 63 0x60102000#32 = .ok (.cmplt ⟨2, true⟩) ∧
    decode 63 0x61008000#32 = .ok (.cmple ⟨8, false⟩) ∧
    decode 63 0x6213F000#32 = .ok (.cmpgt ⟨63, true⟩) ∧
    decode 63 0x63001000#32 = .ok (.cmpge ⟨1, false⟩) := by decide

theorem test_decode_bitwise :
    decode 63 0x64110000#32 = .ok (.and ⟨16, true⟩) ∧
    decode 63 0x65020000#32 = .ok (.or ⟨32, false⟩) ∧
    decode 63 0x66105000#32 = .ok (.xor ⟨5, true⟩) ∧
    decode 63 0x6703E000#32 = .ok (.not ⟨62, false⟩) ∧
    decode 63 0x68121000#32 = .ok (.oshl ⟨33, true⟩) ∧
    decode 63 0x69002000#32 = .ok (.oshr ⟨2, false⟩) ∧
    decode 63 0x6A108000#32 = .ok (.oshru ⟨8, true⟩) := by decide

theorem test_decode_pattern_engine :
    decode 63 0x70000000#32 = .ok .pbnew ∧
    decode 63 0x71000000#32 = .ok .pbfix ∧
    decode 63 0x72000000#32 = .ok .pbvar ∧
    decode 63 0x73000000#32 = .ok .pbbuild ∧
    decode 63 0x74000000#32 = .ok .ptmatch ∧
    decode 63 0x75000000#32 = .ok .ptcapt ∧
    decode 63 0x76000000#32 = .ok .ptinfo ∧
    decode 63 0x77000000#32 = .ok .ptcspec ∧
    decode 63 0x78000000#32 = .ok .ptcmp ∧
    decode 63 0x79000000#32 = .ok .pgmake ∧
    decode 63 0x7A000000#32 = .ok .pgmatch ∧
    decode 63 0x7B000000#32 = .ok .pginfo := by decide

/-- One word for each clause of R89, (a) to (g), each the fault ILLEGAL. -/
theorem test_decode_refuses_by_name :
    decode 63 0x24000000#32 = .error .unknownOpcode ∧ decode 63 0x10000001#32 = .error .unusedField ∧
    decode 63 0x31A08000#32 = .error .reservedPolicy ∧ decode 63 0x40000000#32 = .error .badWidth ∧
    decode 63 0x40040000#32 = .error .badWidth ∧ decode 63 0x35608000#32 = .error .unsignedNegate ∧
    decode 63 0x01000002#32 = .error .badCsr ∧ decode 63 0x02000001#32 = .error .badCsr ∧
    decode 63 0x50007000#32 = .error .oddWidth := by decide

theorem test_encode : encode (.add .wrapped ⟨8, false⟩) = 0x31608000#32 ∧
    encode (.drepl ⟨63, true⟩ true) = 0x4C1BF000#32 ∧ encode (.csrr 1#12) = 0x01000001#32 := by decide

theorem test_table_word : decodeTableWord 32 0x31608000 = some (.add .wrapped ⟨8, false⟩) ∧
    decodeTableWord 32 0x31000000 = none ∧ decodeTableWord 32 0x10000000 = some .getbit := by decide

/-! ## One step -/

/-- The response of one step that takes a command of that word on those ports. -/
def respond (s : State) (w : Nat) (ports : Ports) : Option Response :=
  match step (({ s with ports := ports } : State).withFetchWord 32 w) with
  | .next t => t.response
  | .fault _ => none
  | .refused _ => none

/-- Whether that step draws a free response and leaves the unit alone (R14). -/
def isFree (s : State) (w : Nat) (ports : Ports) : Bool :=
  match step (({ s with ports := ports } : State).withFetchWord 32 w) with
  | .next t => decide (t.freeCount = s.freeCount + 1 ∧ t.assertEn = s.assertEn ∧ t.phase = s.phase ∧
      t.parts = s.parts ∧ t.pt = s.pt ∧ t.gt = s.gt)
  | .fault _ => false
  | .refused _ => false

/-- The state after reset with assertions off. -/
def unasserted : State := { State.reset with assertEn := false }

/-- R110: `getbit 0b1010, 1`; `getbit -1, 63`. -/
theorem test_getbit :
    respond State.reset 0x10000000 { a := 10, b := 1 } = some ⟨.ok, { r0 := 1 }⟩ ∧
    respond State.reset 0x10000000 { a := -1, b := 63 } = some ⟨.ok, { r0 := 1 }⟩ := by decide

/-- R111: `setbit 0b1000, 1`; `setbit 10, 1`. -/
theorem test_setbit :
    respond State.reset 0x11000000 { a := 8, b := 1 } = some ⟨.ok, { r0 := 10 }⟩ ∧
    respond State.reset 0x11000000 { a := 10, b := 1 } = some ⟨.ok, { r0 := 10 }⟩ := by decide

/-- R112: `clrbit 0b1010, 1`; `clrbit -1, 63`. -/
theorem test_clrbit :
    respond State.reset 0x12000000 { a := 10, b := 1 } = some ⟨.ok, { r0 := 8 }⟩ ∧
    respond State.reset 0x12000000 { a := -1, b := 63 } = some ⟨.ok, { r0 := 9223372036854775807 }⟩ := by decide

/-- R113: `togbit 0b1010, 0`; `togbit 0b1010, 1`. -/
theorem test_togbit :
    respond State.reset 0x13000000 { a := 10 } = some ⟨.ok, { r0 := 11 }⟩ ∧
    respond State.reset 0x13000000 { a := 10, b := 1 } = some ⟨.ok, { r0 := 8 }⟩ := by decide

/-- R114: `togbitx 0b1010, 0, 1`; `togbitx 0b1010, 1, 0`. -/
theorem test_togbitx :
    respond State.reset 0x14000000 { a := 10, c := 1 } = some ⟨.ok, { r0 := 11 }⟩ ∧
    respond State.reset 0x14000000 { a := 10, b := 1 } = some ⟨.ok, { r0 := 8 }⟩ := by decide

/-- R115: `isset 0b1010, 3`; `isset 0b1010, 2`. -/
theorem test_isset :
    respond State.reset 0x15000000 { a := 10, b := 3 } = some ⟨.ok, { r0 := 1 }⟩ ∧
    respond State.reset 0x15000000 { a := 10, b := 2 } = some ⟨.ok, { r0 := 0 }⟩ := by decide

/-- R116: `isclr 0b1010, 3`; `isclr 0b1010, 2`. -/
theorem test_isclr :
    respond State.reset 0x16000000 { a := 10, b := 3 } = some ⟨.ok, { r0 := 0 }⟩ ∧
    respond State.reset 0x16000000 { a := 10, b := 2 } = some ⟨.ok, { r0 := 1 }⟩ := by decide

/-- R117: `msb 0b1000, 4`; `msb -1, 64`. -/
theorem test_msb :
    respond State.reset 0x17000000 { a := 8, b := 4 } = some ⟨.ok, { r0 := 1 }⟩ ∧
    respond State.reset 0x17000000 { a := -1, b := 64 } = some ⟨.ok, { r0 := 1 }⟩ := by decide

/-- R118: `cntset 0b10111010, 8`; `cntset -1, 64`. -/
theorem test_cntset :
    respond State.reset 0x18000000 { a := 186, b := 8 } = some ⟨.ok, { r0 := 5 }⟩ ∧
    respond State.reset 0x18000000 { a := -1, b := 64 } = some ⟨.ok, { r0 := 64 }⟩ := by decide

/-- R119: `bitchunk 0b10111010, 5, 4`; `bitchunk -1, 63, 64`. -/
theorem test_bitchunk :
    respond State.reset 0x19000000 { a := 186, b := 5, c := 4 } = some ⟨.ok, { r0 := 14 }⟩ ∧
    respond State.reset 0x19000000 { a := -1, b := 63, c := 64 } = some ⟨.ok, { r0 := -1 }⟩ := by decide

/-- R120: `bitrange 0b10111010, 5, 2`; `bitrange 0b10111010, 3, -1`. -/
theorem test_bitrange :
    respond State.reset 0x1A000000 { a := 186, b := 5, c := 2 } = some ⟨.ok, { r0 := 14 }⟩ ∧
    respond State.reset 0x1A000000 { a := 186, b := 3, c := -1 } = some ⟨.fault .range, {}⟩ := by decide

/-- R121: `replrange 0b10111010, 5, 2, 0b0101`; `replrange -1, 7, 0, 0`. -/
theorem test_replrange :
    respond State.reset 0x1B000000 { a := 186, b := 5, c := 2, d := 5 } = some ⟨.ok, { r0 := 150 }⟩ ∧
    respond State.reset 0x1B000000 { a := -1, b := 7 } = some ⟨.ok, { r0 := -256 }⟩ := by decide

/-- R122: `rotl 0b1001, 1, 4`; `rotl -1, 1, 64`. -/
theorem test_rotl :
    respond State.reset 0x1C000000 { a := 9, b := 1, c := 4 } = some ⟨.ok, { r0 := 3 }⟩ ∧
    respond State.reset 0x1C000000 { a := -1, b := 1, c := 64 } = some ⟨.ok, { r0 := -1 }⟩ := by decide

/-- R123: `rotr 0b0011, 1, 4`; `rotr 1, -1, 4`. -/
theorem test_rotr :
    respond State.reset 0x1D000000 { a := 3, b := 1, c := 4 } = some ⟨.ok, { r0 := 9 }⟩ ∧
    respond State.reset 0x1D000000 { a := 1, b := -1, c := 4 } = some ⟨.fault .range, {}⟩ := by decide

/-- R124: `sext 0b1010, 4, 8`; `sext 0b0101, 4, 8`. -/
theorem test_sext :
    respond State.reset 0x1E000000 { a := 10, b := 4, c := 8 } = some ⟨.ok, { r0 := 250 }⟩ ∧
    respond State.reset 0x1E000000 { a := 5, b := 4, c := 8 } = some ⟨.ok, { r0 := 5 }⟩ := by decide

/-- R125: `shrl -1, 4, 8`; `shrl -1, 0, 64`. -/
theorem test_shrl :
    respond State.reset 0x1F000000 { a := -1, b := 4, c := 8 } = some ⟨.ok, { r0 := 15 }⟩ ∧
    respond State.reset 0x1F000000 { a := -1, c := 64 } = some ⟨.ok, { r0 := -1 }⟩ := by decide

/-- R126: `shra 0b10111010, 2, 8`; `shra -8, 1, 64`. -/
theorem test_shra :
    respond State.reset 0x20000000 { a := 186, b := 2, c := 8 } = some ⟨.ok, { r0 := 238 }⟩ ∧
    respond State.reset 0x20000000 { a := -8, b := 1, c := 64 } = some ⟨.ok, { r0 := -4 }⟩ := by decide

/-- R127: `rotrsh 0b0011, 1, 4`. -/
theorem test_rotrsh :
    respond State.reset 0x21000000 { a := 3, b := 1, c := 4 } = some ⟨.ok, { r0 := 9 }⟩ := by decide

/-- R128: `parseb '10111010'`; `parseb '0110'`. -/
theorem test_parseb :
    respond State.reset 0x22000000 { sIn := (some [49#8, 48#8, 49#8, 49#8, 49#8, 48#8, 49#8, 48#8]) } = some ⟨.ok, { r0 := 186 }⟩ ∧
    respond State.reset 0x22000000 { sIn := (some [48#8, 49#8, 49#8, 48#8]) } = some ⟨.ok, { r0 := 6 }⟩ := by decide

/-- R129: `renderb 6, 0`; `renderb -1, 0`. -/
theorem test_renderb :
    respond State.reset 0x23000000 { a := 6 } = some ⟨.ok, { r0 := 3, rs := some [49#8, 49#8, 48#8] }⟩ ∧
    respond State.reset 0x23000000 { a := -1 } = some ⟨.fault .argument, {}⟩ := by decide

/-- R141: `lhilo 9007199254740991`; `lhilo -1`. -/
theorem test_lhilo :
    respond State.reset 0x28000000 { a := 9007199254740991 } = some ⟨.ok, { r0 := 2097151, r1 := 4294967295 }⟩ ∧
    respond State.reset 0x28000000 { a := -1 } = some ⟨.fault .range, {}⟩ := by decide

/-- R142: `lgetbit 1, 5, 32`; `lgetbit -1, 0, 0`. -/
theorem test_lgetbit :
    respond State.reset 0x29000000 { a := 1, b := 5, c := 32 } = some ⟨.ok, { r0 := 1 }⟩ ∧
    respond State.reset 0x29000000 { a := -1 } = some ⟨.fault .range, {}⟩ := by decide

/-- R143: `lsetbit 0, 5, 40`; `lsetbit 0, 5, 1`. -/
theorem test_lsetbit :
    respond State.reset 0x2A000000 { b := 5, c := 40 } = some ⟨.ok, { r0 := 256, r1 := 5 }⟩ ∧
    respond State.reset 0x2A000000 { b := 5, c := 1 } = some ⟨.ok, { r0 := 0, r1 := 7 }⟩ := by decide

/-- R144: `lclrbit 256, 5, 40`; `lclrbit 1, 5, 0`. -/
theorem test_lclrbit :
    respond State.reset 0x2B000000 { a := 256, b := 5, c := 40 } = some ⟨.ok, { r0 := 0, r1 := 5 }⟩ ∧
    respond State.reset 0x2B000000 { a := 1, b := 5 } = some ⟨.ok, { r0 := 1, r1 := 4 }⟩ := by decide

/-- R145: `lchunk 0b101, 0xC0000000, 34, 5`; `lchunk 0b101, 0xC0000000, 31, 2`. -/
theorem test_lchunk :
    respond State.reset 0x2C000000 { a := 5, b := 3221225472, c := 34, d := 5 } = some ⟨.ok, { r0 := 23 }⟩ ∧
    respond State.reset 0x2C000000 { a := 5, b := 3221225472, c := 31, d := 2 } = some ⟨.ok, { r0 := 3 }⟩ := by decide

/-- R152: `fit i8, 128 under wrapped`; `fit i8, 128 under clamped`. -/
theorem test_fit :
    respond State.reset 0x30708000 { a := 128 } = some ⟨.ok, { r0 := -128 }⟩ ∧
    respond State.reset 0x30908000 { a := 128 } = some ⟨.ok, { r0 := 127 }⟩ := by decide

/-- R153: `add i8, 127, 1 under wrapped`; `add i8, 127, 1 under clamped`. -/
theorem test_add :
    respond State.reset 0x31708000 { a := 127, b := 1 } = some ⟨.ok, { r0 := -128 }⟩ ∧
    respond State.reset 0x31908000 { a := 127, b := 1 } = some ⟨.ok, { r0 := 127 }⟩ := by decide

/-- R154: `sub i8, -128, 1 under wrapped`; `sub i8, -128, 1 under clamped`. -/
theorem test_sub :
    respond State.reset 0x32708000 { a := -128, b := 1 } = some ⟨.ok, { r0 := 127 }⟩ ∧
    respond State.reset 0x32908000 { a := -128, b := 1 } = some ⟨.ok, { r0 := -128 }⟩ := by decide

/-- R155: `mul i8, -128, -1 under wrapped`; `mul i8, -128, -1 under clamped`. -/
theorem test_mul :
    respond State.reset 0x33708000 { a := -128, b := -1 } = some ⟨.ok, { r0 := -128 }⟩ ∧
    respond State.reset 0x33908000 { a := -128, b := -1 } = some ⟨.ok, { r0 := 127 }⟩ := by decide

/-- R156: `pow i8, 2, 8 under wrapped`; `pow i8, 2, 8 under clamped`. -/
theorem test_pow :
    respond State.reset 0x34708000 { a := 2, b := 8 } = some ⟨.ok, { r0 := 0 }⟩ ∧
    respond State.reset 0x34908000 { a := 2, b := 8 } = some ⟨.ok, { r0 := 127 }⟩ := by decide

/-- R157: `neg i8, -128 under wrapped`; `neg i8, -128 under clamped`. -/
theorem test_neg :
    respond State.reset 0x35708000 { a := -128 } = some ⟨.ok, { r0 := -128 }⟩ ∧
    respond State.reset 0x35908000 { a := -128 } = some ⟨.ok, { r0 := 127 }⟩ := by decide

/-- R158: `npow2 i8, 65 under wrapped`; `npow2 i8, 65 under clamped`. -/
theorem test_npow2 :
    respond State.reset 0x36708000 { a := 65 } = some ⟨.ok, { r0 := -128 }⟩ ∧
    respond State.reset 0x36908000 { a := 65 } = some ⟨.ok, { r0 := 127 }⟩ := by decide

/-- R159: `nmult i8, 100, 64 under wrapped`; `nmult i8, 100, 64 under clamped`. -/
theorem test_nmult :
    respond State.reset 0x37708000 { a := 100, b := 64 } = some ⟨.ok, { r0 := -128 }⟩ ∧
    respond State.reset 0x37908000 { a := 100, b := 64 } = some ⟨.ok, { r0 := 127 }⟩ := by decide

/-- R160: `shl i8, -128, 1 under wrapped`; `shl i8, -128, 1 under clamped`. -/
theorem test_shl :
    respond State.reset 0x38708000 { a := -128, b := 1 } = some ⟨.ok, { r0 := 0 }⟩ ∧
    respond State.reset 0x38908000 { a := -128, b := 1 } = some ⟨.ok, { r0 := -128 }⟩ := by decide

/-- R170: `bits i8, -6`; `bits i1, -1`. -/
theorem test_bits :
    respond State.reset 0x40108000 { a := -6 } = some ⟨.ok, { r0 := 250 }⟩ ∧
    respond State.reset 0x40101000 { a := -1 } = some ⟨.ok, { r0 := 1 }⟩ := by decide

/-- R171: `nthbit u8, 0b10111010, 3`; `nthbit i8, -1, 7`. -/
theorem test_nthbit :
    respond State.reset 0x41008000 { a := 186, b := 3 } = some ⟨.ok, { r0 := 1 }⟩ ∧
    respond State.reset 0x41108000 { a := -1, b := 7 } = some ⟨.ok, { r0 := 1 }⟩ := by decide

/-- R172: `setnth u8, 0b1000, 1`; `setnth i8, 0, 7`. -/
theorem test_setnth :
    respond State.reset 0x42008000 { a := 8, b := 1 } = some ⟨.ok, { r0 := 10 }⟩ ∧
    respond State.reset 0x42108000 { b := 7 } = some ⟨.ok, { r0 := -128 }⟩ := by decide

/-- R173: `tognth u4, 0b1010, 0`; `tognth i8, -1, 7`. -/
theorem test_tognth :
    respond State.reset 0x43004000 { a := 10 } = some ⟨.ok, { r0 := 11 }⟩ ∧
    respond State.reset 0x43108000 { a := -1, b := 7 } = some ⟨.ok, { r0 := 127 }⟩ := by decide

/-- R174: `cnt1 u8, 0b10111010`; `cnt1 i8, -1`. -/
theorem test_cnt1 :
    respond State.reset 0x44008000 { a := 186 } = some ⟨.ok, { r0 := 5 }⟩ ∧
    respond State.reset 0x44108000 { a := -1 } = some ⟨.ok, { r0 := 8 }⟩ := by decide

/-- R175: `cnt0 u8, 0b10111010`; `cnt0 i8, -1`. -/
theorem test_cnt0 :
    respond State.reset 0x45008000 { a := 186 } = some ⟨.ok, { r0 := 3 }⟩ ∧
    respond State.reset 0x45108000 { a := -1 } = some ⟨.ok, { r0 := 0 }⟩ := by decide

/-- R176: `clo u8, 0b11100111`; `clo i8, -4`. -/
theorem test_clo :
    respond State.reset 0x46008000 { a := 231 } = some ⟨.ok, { r0 := 3 }⟩ ∧
    respond State.reset 0x46108000 { a := -4 } = some ⟨.ok, { r0 := 6 }⟩ := by decide

/-- R177: `clz u8, 0b00010100`; `clz i8, -1`. -/
theorem test_clz :
    respond State.reset 0x47008000 { a := 20 } = some ⟨.ok, { r0 := 3 }⟩ ∧
    respond State.reset 0x47108000 { a := -1 } = some ⟨.ok, { r0 := 0 }⟩ := by decide

/-- R178: `cto u8, 0b11100111`; `cto i8, -1`. -/
theorem test_cto :
    respond State.reset 0x48008000 { a := 231 } = some ⟨.ok, { r0 := 3 }⟩ ∧
    respond State.reset 0x48108000 { a := -1 } = some ⟨.ok, { r0 := 8 }⟩ := by decide

/-- R179: `ctz u8, 0b00010100`; `ctz i8, -4`. -/
theorem test_ctz :
    respond State.reset 0x49008000 { a := 20 } = some ⟨.ok, { r0 := 2 }⟩ ∧
    respond State.reset 0x49108000 { a := -4 } = some ⟨.ok, { r0 := 2 }⟩ := by decide

/-- R180: `dchunk u8, 0b10111010, 5, 4`; `dchunk i8, -70, 7, 4`. -/
theorem test_dchunk :
    respond State.reset 0x4A008000 { a := 186, b := 5, c := 4 } = some ⟨.ok, { r0 := 14 }⟩ ∧
    respond State.reset 0x4A108000 { a := -70, b := 7, c := 4 } = some ⟨.ok, { r0 := 11 }⟩ := by decide

/-- R181: `dslice u8, 0b10111010, 5, 2`; `dslice i8, -1, 7, 0`. -/
theorem test_dslice :
    respond State.reset 0x4B008000 { a := 186, b := 5, c := 2 } = some ⟨.ok, { r0 := 14 }⟩ ∧
    respond State.reset 0x4B108000 { a := -1, b := 7 } = some ⟨.ok, { r0 := 255 }⟩ := by decide

/-- R182: `drepl u8, 0b10111010, 5, 2, 0b0101`; `drepl i8, -70, 5, 2, 0b0101`. -/
theorem test_drepl :
    respond State.reset 0x4C008000 { a := 186, b := 5, c := 2, d := 5 } = some ⟨.ok, { r0 := 150 }⟩ ∧
    respond State.reset 0x4C108000 { a := -70, b := 5, c := 2, d := 5 } = some ⟨.ok, { r0 := -106 }⟩ := by decide

/-- R183: `drotl u4, 0b1001, 1`; `drotl i8, -127, 1`. -/
theorem test_drotl :
    respond State.reset 0x4D004000 { a := 9, b := 1 } = some ⟨.ok, { r0 := 3 }⟩ ∧
    respond State.reset 0x4D108000 { a := -127, b := 1 } = some ⟨.ok, { r0 := 3 }⟩ := by decide

/-- R184: `drotr i8, 3, 1`; `drotr u8, 3, -1`. -/
theorem test_drotr :
    respond State.reset 0x4E108000 { a := 3, b := 1 } = some ⟨.ok, { r0 := -127 }⟩ ∧
    respond State.reset 0x4E008000 { a := 3, b := -1 } = some ⟨.fault .range, {}⟩ := by decide

/-- R185: `dsext i8, 0b1010, 4`; `dsext u8, 0b1010, 4`. -/
theorem test_dsext :
    respond State.reset 0x4F108000 { a := 10, b := 4 } = some ⟨.ok, { r0 := -6 }⟩ ∧
    respond State.reset 0x4F008000 { a := 10, b := 4 } = some ⟨.ok, { r0 := 250 }⟩ := by decide

/-- R186: `hilo u8, 0b10111010`; `hilo i8, -128`. -/
theorem test_hilo :
    respond State.reset 0x50008000 { a := 186 } = some ⟨.ok, { r0 := 11, r1 := 10 }⟩ ∧
    respond State.reset 0x50108000 { a := -128 } = some ⟨.ok, { r0 := 8 }⟩ := by decide

/-- R187: `fromhilo u8, 11, 10`; `fromhilo u8, 0, -1`. -/
theorem test_fromhilo :
    respond State.reset 0x51008000 { a := 11, b := 10 } = some ⟨.ok, { r0 := 186 }⟩ ∧
    respond State.reset 0x51008000 { b := -1 } = some ⟨.fault .range, {}⟩ := by decide

/-- R200: `sqrt u8, 255`; `sqrt i8, -1`. -/
theorem test_sqrt :
    respond State.reset 0x52008000 { a := 255 } = some ⟨.ok, { r0 := 15 }⟩ ∧
    respond State.reset 0x52108000 { a := -1 } = some ⟨.fault .assertion, {}⟩ := by decide +kernel

/-- R201: `log u8, 243, 3`; `log i8, -5, 2`. -/
theorem test_log :
    respond State.reset 0x53008000 { a := 243, b := 3 } = some ⟨.ok, { r0 := 5 }⟩ ∧
    respond State.reset 0x53108000 { a := -5, b := 2 } = some ⟨.fault .assertion, {}⟩ := by decide

/-- R202: `log2 u8, 255`; `log2 u8, 1`. -/
theorem test_log2 :
    respond State.reset 0x54008000 { a := 255 } = some ⟨.ok, { r0 := 7 }⟩ ∧
    respond State.reset 0x54008000 { a := 1 } = some ⟨.ok, { r0 := 0 }⟩ := by decide

/-- R203: `log10 u8, 100`; `log10 i8, -1`. -/
theorem test_log10 :
    respond State.reset 0x55008000 { a := 100 } = some ⟨.ok, { r0 := 2 }⟩ ∧
    respond State.reset 0x55108000 { a := -1 } = some ⟨.fault .assertion, {}⟩ := by decide

/-- R204: `midpt u8, 250, 254`; `midpt i8, -3, -4`. -/
theorem test_midpt :
    respond State.reset 0x56008000 { a := 250, b := 254 } = some ⟨.ok, { r0 := 252 }⟩ ∧
    respond State.reset 0x56108000 { a := -3, b := -4 } = some ⟨.ok, { r0 := -4 }⟩ := by decide

/-- R205: `clamp u8, 200, 10, 100`; `clamp i8, -50, -10, 10`. -/
theorem test_clamp :
    respond State.reset 0x57008000 { a := 200, b := 10, c := 100 } = some ⟨.ok, { r0 := 100 }⟩ ∧
    respond State.reset 0x57108000 { a := -50, b := -10, c := 10 } = some ⟨.ok, { r0 := -10 }⟩ := by decide

/-- R206: `rem i8, -7, 3`; `rem i8, -128, -1`. -/
theorem test_rem :
    respond State.reset 0x58108000 { a := -7, b := 3 } = some ⟨.ok, { r0 := -1 }⟩ ∧
    respond State.reset 0x58108000 { a := -128, b := -1 } = some ⟨.ok, { r0 := 0 }⟩ := by decide

/-- R207: `mod i8, -7, 3`; `mod i8, -7, -3`. -/
theorem test_mod :
    respond State.reset 0x59108000 { a := -7, b := 3 } = some ⟨.ok, { r0 := 2 }⟩ ∧
    respond State.reset 0x59108000 { a := -7, b := -3 } = some ⟨.ok, { r0 := 2 }⟩ := by decide

/-- R208: `cmplt i8, -1, 0`; `cmplt u8, 255, 0`. -/
theorem test_cmplt :
    respond State.reset 0x60108000 { a := -1 } = some ⟨.ok, { r0 := 1 }⟩ ∧
    respond State.reset 0x60008000 { a := 255 } = some ⟨.ok, { r0 := 0 }⟩ := by decide

/-- R209: `cmple u8, 7, 7`; `cmple i8, 0, -1`. -/
theorem test_cmple :
    respond State.reset 0x61008000 { a := 7, b := 7 } = some ⟨.ok, { r0 := 1 }⟩ ∧
    respond State.reset 0x61108000 { b := -1 } = some ⟨.ok, { r0 := 0 }⟩ := by decide

/-- R210: `cmpgt i8, 0, -128`; `cmpgt u8, 7, 7`. -/
theorem test_cmpgt :
    respond State.reset 0x62108000 { b := -128 } = some ⟨.ok, { r0 := 1 }⟩ ∧
    respond State.reset 0x62008000 { a := 7, b := 7 } = some ⟨.ok, { r0 := 0 }⟩ := by decide

/-- R211: `cmpge u8, 7, 7`; `cmpge i8, -128, 127`. -/
theorem test_cmpge :
    respond State.reset 0x63008000 { a := 7, b := 7 } = some ⟨.ok, { r0 := 1 }⟩ ∧
    respond State.reset 0x63108000 { a := -128, b := 127 } = some ⟨.ok, { r0 := 0 }⟩ := by decide

/-- R221: `and u8, 0b1100, 0b1010`; `and i8, -128, -1`. -/
theorem test_and :
    respond State.reset 0x64008000 { a := 12, b := 10 } = some ⟨.ok, { r0 := 8 }⟩ ∧
    respond State.reset 0x64108000 { a := -128, b := -1 } = some ⟨.ok, { r0 := -128 }⟩ := by decide

/-- R222: `or u8, 0b1100, 0b1010`; `or i8, -128, 1`. -/
theorem test_or :
    respond State.reset 0x65008000 { a := 12, b := 10 } = some ⟨.ok, { r0 := 14 }⟩ ∧
    respond State.reset 0x65108000 { a := -128, b := 1 } = some ⟨.ok, { r0 := -127 }⟩ := by decide

/-- R223: `xor u8, 0b1100, 0b1010`; `xor i8, -1, 85`. -/
theorem test_xor :
    respond State.reset 0x66008000 { a := 12, b := 10 } = some ⟨.ok, { r0 := 6 }⟩ ∧
    respond State.reset 0x66108000 { a := -1, b := 85 } = some ⟨.ok, { r0 := -86 }⟩ := by decide

/-- R224: `not u8, 0`; `not i8, -128`. -/
theorem test_not :
    respond State.reset 0x67008000 {} = some ⟨.ok, { r0 := 255 }⟩ ∧
    respond State.reset 0x67108000 { a := -128 } = some ⟨.ok, { r0 := 127 }⟩ := by decide

/-- R225: `oshl u8, 129, 1`; `oshl i8, -1, 7`. -/
theorem test_oshl :
    respond State.reset 0x68008000 { a := 129, b := 1 } = some ⟨.ok, { r0 := 2 }⟩ ∧
    respond State.reset 0x68108000 { a := -1, b := 7 } = some ⟨.ok, { r0 := -128 }⟩ := by decide

/-- R226: `oshr i8, -128, 2`; `oshr i8, -1, 100`. -/
theorem test_oshr :
    respond State.reset 0x69108000 { a := -128, b := 2 } = some ⟨.ok, { r0 := -32 }⟩ ∧
    respond State.reset 0x69108000 { a := -1, b := 100 } = some ⟨.ok, { r0 := -1 }⟩ := by decide

/-- R227: `oshru i8, -128, 2`; `oshru i8, -1, -1`. -/
theorem test_oshru :
    respond State.reset 0x6A108000 { a := -128, b := 2 } = some ⟨.ok, { r0 := 32 }⟩ ∧
    respond State.reset 0x6A108000 { a := -1, b := -1 } = some ⟨.fault .range, {}⟩ := by decide

/-- The policies on `add u8, 250, 10` (R150): ASSERT or, with assertions off, wrapped; unspecified; no value. -/
theorem test_add_policies :
    respond State.reset 0x31008000 { a := 250, b := 10 } = some ⟨.fault .assertion, {}⟩ ∧
    respond unasserted 0x31008000 { a := 250, b := 10 } = some ⟨.ok, { r0 := 4 }⟩ ∧
    isFree State.reset 0x31208000 { a := 250, b := 10 } = true ∧
    respond State.reset 0x31408000 { a := 250, b := 10 } = some ⟨.novalue, {}⟩ := by decide

/-- `nthbit u8, 1, 8` raises RANGE, `nthbit.u u8, 1, 8` is unspecified (R171). -/
theorem test_nthbit_out_of_range :
    respond State.reset 0x41008000 { a := 1, b := 8 } = some ⟨.fault .range, {}⟩ ∧
    isFree State.reset 0x41088000 { a := 1, b := 8 } = true := by decide

/-- A failed precondition with assertions off is unspecified (R212 c). -/
theorem test_sqrt_unasserted : isFree unasserted 0x52108000 { a := -1 } = true := by decide

/-- R206: the zero divisor comes before the validity of the operands. -/
theorem test_rem_by_zero : respond State.reset 0x58008000 { a := 300, b := 0 } = some ⟨.fault .divzero, {}⟩ := by decide

/-- R260: `csrr DBGCTL` and `csrr PBSTAT` after reset. -/
theorem test_csrr : respond State.reset 0x01000000 {} = some ⟨.ok, { r0 := 1 }⟩ ∧
    respond State.reset 0x01000001 {} = some ⟨.ok, { r0 := 0 }⟩ := by decide

/-- R261: only bit 0 of the value written counts. -/
theorem test_csrw : (State.reset.setDbgctl 0xFFFFFFFE).assertEn = false ∧ (unasserted.setDbgctl 3).assertEn = true := by
  decide

/-! ## The pattern engine, on the patterns of the rules' examples -/

/-- "FOUR". -/
def nameFour : Str := [0x46#8, 0x4F#8, 0x55#8, 0x52#8]

/-- "TWO". -/
def nameTwo : Str := [0x54#8, 0x57#8, 0x4F#8]

/-- The parts of the example of R236: `1`, `0`, four bits named FOUR, two bits named TWO. -/
def exampleParts : List BitPart := [.fixed true, .fixed false, .var 4 (some nameFour), .var 2 (some nameTwo)]

/-- The record that R236 says they build, with the name "P". -/
def examplePattern : Pattern :=
  { mask := 0xC0, cmp := 0x80, tw := 8, caps := [⟨some nameFour, 5, 4⟩, ⟨some nameTwo, 1, 2⟩], name := some [0x50#8] }

/-- A builder that holds the example's parts. -/
def building : State := { State.reset with parts := exampleParts }

/-- The example's pattern in slot 0, and the builder ended. -/
def built : State := building.storePattern 0 examplePattern

/-- `01VV` (R243's example). -/
def pattern01 : Pattern := { mask := 12, cmp := 4, tw := 4, caps := [⟨none, 1, 2⟩], name := none }

/-- `11VV` (R243's example). -/
def pattern11 : Pattern := { mask := 12, cmp := 12, tw := 4, caps := [⟨none, 1, 2⟩], name := none }

/-- `101V`: three fixed bits. -/
def pattern101 : Pattern := { mask := 14, cmp := 10, tw := 4, caps := [⟨none, 0, 1⟩], name := none }

/-- Three patterns in slots 0, 1 and 2, and the group of the first two in slot 0. -/
def grouped : State :=
  (((State.reset.storePattern 0 pattern01).storePattern 1 pattern11).storePattern 2 pattern101).storeGroup 0 ⟨[0, 1]⟩

/-- The state one command leaves. -/
def after (s : State) (w : Nat) (ports : Ports) : State :=
  match step (({ s with ports := ports } : State).withFetchWord 32 w) with
  | .next t => t
  | .fault _ => s
  | .refused _ => s

/-- R233. -/
theorem test_pbnew : (after built 0x70000000 {}).parts = [] ∧ (after built 0x70000000 {}).phase = .building := by decide

/-- R234: `pbfix 1` on four parts, `pbfix 2`. -/
theorem test_pbfix : (after building 0x71000000 { a := 1 }).parts = exampleParts ++ [.fixed true] ∧
    respond building 0x71000000 { a := 1 } = some ⟨.ok, { r0 := 5 }⟩ ∧
    respond building 0x71000000 { a := 2 } = some ⟨.fault .argument, {}⟩ := by decide

/-- R235: `pbvar 4, "FOUR"`, `pbvar 0, none`. -/
theorem test_pbvar : (after State.reset 0x72000000 { a := 4, sIn := some nameFour }).parts = [.var 4 (some nameFour)] ∧
    respond State.reset 0x72000000 { a := 0 } = some ⟨.fault .argument, {}⟩ := by decide

/-- R236: the example, and the record it writes. -/
theorem test_pbbuild :
    respond building 0x73000000 { a := 0, sIn := some [0x50#8] } = some ⟨.ok, { r0 := 0xC0, r1 := 0x80, r2 := 2 }⟩ ∧
    (after building 0x73000000 { a := 0, sIn := some [0x50#8] }).pt = [(0, examplePattern)] := by decide

/-- R236: 33 bits are too many. -/
theorem test_pbbuild_too_wide :
    respond { State.reset with parts := [.var 33 none] } 0x73000000 {} = some ⟨.fault .state, {}⟩ := by decide

/-- R237. -/
theorem test_ptmatch : respond built 0x74000000 { b := 0xBA } = some ⟨.ok, { r0 := 1 }⟩ ∧
    respond built 0x74000000 { b := 0x7A } = some ⟨.ok, { r0 := 0 }⟩ := by decide

/-- R238: the example, and an invalid slot. -/
theorem test_ptcapt : respond built 0x75000000 { b := 0xBA } = some ⟨.ok, { r0 := 2, rv := some [14, 2] }⟩ ∧
    respond built 0x75000000 { a := 1 } = some ⟨.fault .state, {}⟩ := by decide

/-- R239. -/
theorem test_ptinfo : respond built 0x76000000 {} =
    some ⟨.ok, { r0 := 0xC0, r1 := 0x80, r2 := 2, r3 := 8, rs := some [0x50#8], rv := some [0x3C, 0x03] }⟩ := by decide

/-- R240: the second capture, and an index past the last. -/
theorem test_ptcspec :
    respond built 0x77000000 { b := 1 } = some ⟨.ok, { r0 := 1, r1 := 2, r2 := 3, rs := some nameTwo }⟩ ∧
    respond built 0x77000000 { b := 2 } = some ⟨.fault .range, {}⟩ := by decide

/-- R241: two fixed bits against three. -/
theorem test_ptcmp : respond grouped 0x78000000 { a := 0, b := 2 } = some ⟨.ok, { r0 := 1 }⟩ ∧
    respond grouped 0x78000000 { a := 2, b := 0 } = some ⟨.ok, { r0 := -1 }⟩ ∧
    respond grouped 0x78000000 { a := 0, b := 64 } = some ⟨.fault .range, {}⟩ := by decide

/-- R242: the most specific pattern comes first, equal ones keep their order. -/
theorem test_pgmake : respond grouped 0x79000000 { a := 1, v := some [1, 0, 2] } =
    some ⟨.ok, { r0 := 3, rv := some [2, 1, 0] }⟩ ∧
    respond grouped 0x79000000 { a := 1, v := some [] } = some ⟨.fault .argument, {}⟩ := by decide

/-- R243: scenario 5 of the source. -/
theorem test_pgmatch : respond grouped 0x7A000000 { b := 4 } = some ⟨.ok, {}⟩ ∧
    respond grouped 0x7A000000 { b := 0 } = some ⟨.novalue, {}⟩ ∧
    respond grouped 0x7A000000 { b := 13 } = some ⟨.ok, { r0 := 1, r1 := 1 }⟩ := by decide

/-- R244. -/
theorem test_pginfo : respond grouped 0x7B000000 {} = some ⟨.ok, { r0 := 2, rv := some [0, 1] }⟩ := by decide

/-! ## Status codes and parameters -/

/-- The codes of R86 and R270. -/
theorem test_status_codes :
    [Status.ok, .novalue, .fault .illegal, .fault .range, .fault .assertion, .fault .format, .fault .state,
      .fault .argument, .fault .divzero].map Status.code =
    [0x00#8, 0x01#8, 0x10#8, 0x11#8, 0x12#8, 0x13#8, 0x14#8, 0x15#8, 0x16#8] := by decide

/-- The smallest sizes that R5 allows. -/
def smallest : Params :=
  { rawBits := 33, wMax := 32, nPat := 1, nGrp := 1, pbMax := 33, gMax := 1, sMax := 33 }

/-- R5: the sizes are what the bounds of every command come from, and 2^32 is -2^32 on a port of 33 bits. -/
theorem test_smallest_sizes :
    let s := State.atReset smallest
    respond s 0x10000000 { a := -1, b := 32 } = some ⟨.ok, { r0 := 1 }⟩ ∧
    respond s 0x10000000 { a := -1, b := 33 } = some ⟨.fault .range, {}⟩ ∧
    respond s 0x40021000 {} = some ⟨.fault .illegal, {}⟩ ∧
    respond s 0x11000000 { b := 32 } = some ⟨.ok, { r0 := -4294967296 }⟩ ∧
    respond s 0x74000000 { a := 1 } = some ⟨.fault .range, {}⟩ ∧
    respond s 0x7B000000 { a := 1 } = some ⟨.fault .range, {}⟩ ∧
    respond s 0x79000000 { v := some [0, 0] } = some ⟨.fault .argument, {}⟩ ∧
    respond s 0x23000000 { b := 34 } = some ⟨.fault .range, {}⟩ ∧
    respond { s with parts := List.replicate 33 (.fixed true) } 0x71000000 {} = some ⟨.fault .state, {}⟩ := by decide

/-- U10: ROTRSH_FN answers what is listed for its operands, and as ROTR elsewhere. -/
theorem test_rotrsh_listed :
    let s := State.atReset { rotrshFn := .listed [((3, 1, 4), .ok { r0 := 8 }), ((5, 0, 9), .raise .range)] }
    respond s 0x21000000 { a := 3, b := 1, c := 4 } = some ⟨.ok, { r0 := 8 }⟩ ∧
    respond s 0x21000000 { a := 5, c := 9 } = some ⟨.fault .range, {}⟩ ∧
    respond s 0x21000000 { a := 3, b := 2, c := 4 } = some ⟨.ok, { r0 := 12 }⟩ := by decide

/-- U11: the three roundings of the midpoint of -3 and -4, and of -4 and -3. -/
theorem test_midpt_roundings :
    respond (State.atReset { midptRound := .trunc }) 0x56108000 { a := -3, b := -4 } = some ⟨.ok, { r0 := -3 }⟩ ∧
    respond (State.atReset { midptRound := .towardFirst }) 0x56108000 { a := -4, b := -3 } = some ⟨.ok, { r0 := -4 }⟩ ∧
    respond (State.atReset { midptRound := .towardFirst }) 0x56108000 { a := 4, b := 1 } = some ⟨.ok, { r0 := 3 }⟩ := by
  decide

/-- U9: TIE_ORDER decides between equally specific members and nothing else. -/
theorem test_tie_order_listed :
    respond { grouped with params := { tieOrder := .listed [([1, 0, 2], [0, 1, 2])] } } 0x79000000
      { a := 1, v := some [1, 0, 2] } = some ⟨.ok, { r0 := 3, rv := some [2, 0, 1] }⟩ := by decide

/-! ## Witnesses: the hypotheses of the statements can be met

One theorem per statement that has hypotheses, named after it. Clauses of one statement are met one after the other, at
values on the edge of each clause. The legal descriptors at the edges are `⟨1, true⟩` and `⟨63, false⟩`. -/

/-- Reset with the operand ports holding these values. -/
def withPorts (ports : Ports) : State := { State.reset with ports := ports }

/-- The constraints of R5 hold of the values this hardware takes and of the smallest sizes. -/
theorem sizes_ok : SizesOk {} ∧ SizesOk smallest :=
  ⟨⟨by decide, by decide, by decide, by decide, by decide⟩, ⟨by decide, by decide, by decide, by decide, by decide⟩⟩

theorem params_ok : ParamsOk {} := ⟨sizes_ok.1, (by intro _ h; cases h), (by intro _ h; cases h)⟩

/-- They hold too with a table for ROTRSH_FN and one for TIE_ORDER. -/
theorem params_ok_listed : ParamsOk
    { rotrshFn := .listed [((3, 1, 4), .ok { r0 := 8 })], tieOrder := .listed [([1, 0, 2], [0, 1, 2])] } where
  sizes := ⟨by decide, by decide, by decide, by decide, by decide⟩
  rotrsh := by
    intro rows h row hrow
    cases h
    obtain rfl := List.mem_singleton.mp hrow
    exact ⟨by decide, fun r hr => by cases hr; exact ⟨fun _ h => (by cases h), fun _ h => (by cases h)⟩⟩
  ties := by
    intro rows h row hrow
    cases h
    obtain rfl := List.mem_singleton.mp hrow
    decide

theorem test_params_legal : Params.legal {} = true ∧ Params.legal smallest = true ∧
    Params.legal { tieOrder := .listed [([1, 0], [0, 0])] } = false ∧ Params.legal { wMax := 64 } = false := by decide

theorem witness_DecodeOfEncode : Instr.wf 63 (.mul .clamped ⟨63, true⟩) = true ∧
    Instr.wf 32 (.dslice ⟨1, false⟩ true) = true := by decide

theorem witness_EncodeOfDecode : decode 63 0x4C1BF000#32 = .ok (.drepl ⟨63, true⟩ true) := by decide

/-- One illegal word for each clause of R89, each lined up as a command that the ports can carry. -/
theorem witness_IllegalWordsAnswerIllegal :
    ∀ x ∈ [0x6B000000#32, 0x10000001#32, 0x31A08000#32, 0x40000000#32, 0x40040000#32, 0x35608000#32, 0x01000002#32,
      0x02000001#32, 0x51001000#32],
      ({ State.reset with pending := [.command ⟨x, {}⟩] } : State).pending = .command ⟨x, {}⟩ :: [] ∧
      Command.presentable State.reset.params ⟨x, {}⟩ = true ∧ ¬ LegalWord State.reset.params.wMax x := by
  intro x hx
  refine ⟨rfl, by simp [Command.presentable, IsRaw, State.reset], ?_⟩
  simp only [List.mem_cons, List.not_mem_nil, or_false] at hx
  unfold LegalWord
  rcases hx with rfl | rfl | rfl | rfl | rfl | rfl | rfl | rfl | rfl <;> decide

theorem witness_StepRunsDecodedCommand :
    Command.presentable {} ⟨0x22000000#32,
      { a := 2 ^ 63 - 1, b := -2 ^ 63, sIn := some (List.replicate 256 0x30#8),
        v := some (List.replicate 65 (-2 ^ 63)) }⟩ = true ∧
    Command.presentable {} ⟨0x22000000#32, { a := 2 ^ 63 }⟩ = false ∧
    decode 63 0x22000000#32 = .ok .parseb := by decide +kernel

theorem witness_StepRunsPlacedWord : Instr.wf building.params.wMax .pbbuild = true ∧
    Command.presentable building.params ⟨encode .pbbuild, building.ports⟩ = true := by decide

theorem witness_StepWithoutCommand :
    ({ built with pending := [.reset] } : State).pending = .reset :: [] ∧ built.pending = [] := by decide

theorem witness_UnitFrame : exec .pbnew built = .next { built.newBuilder with response := some ⟨.ok, {}⟩ } := rfl

theorem witness_NonOkChangesNothing :
    (∃ t r, exec .pgmatch grouped = .next t ∧ t.response = some r ∧ r.status.code ≠ 0x00#8 ∧ Determined grouped t) ∧
    (∃ t r, exec (.add .unchecked ⟨1, false⟩) (withPorts { a := 1, b := 1 }) = .next t ∧ t.response = some r ∧
      ¬ Determined (withPorts { a := 1, b := 1 }) t) :=
  ⟨⟨_, _, rfl, rfl, by decide, rfl⟩, ⟨_, _, rfl, rfl, by unfold Determined; decide +kernel⟩⟩

theorem witness_OnlyIllegalCommands :
    (∃ t r, exec (.csrr 1#12) State.reset = .next t ∧ t.response = some r ∧ Determined State.reset t) ∧
    (∃ t r, exec (.fit .attempt ⟨1, true⟩) (withPorts { a := 1 }) = .next t ∧ t.response = some r ∧
      Determined (withPorts { a := 1 }) t) :=
  ⟨⟨_, _, rfl, rfl, rfl⟩, ⟨_, _, rfl, rfl, rfl⟩⟩

/-! ### A state with patterns and a group that meets the invariant -/

/-- A capture's bits as a list, for checking a pattern by evaluation. -/
def coveredBy (c : Capture) (i : Nat) : Bool := decide (c.left + 1 - c.size ≤ i ∧ i ≤ c.left)

/-- The invariant of a slot, by evaluation. -/
def patternCheck (p : Pattern) : Bool :=
  decide (p.cmp &&& ~~~p.mask = 0) && decide (p.tw ≤ 32 ∧ p.mask.toNat < 2 ^ p.tw ∧ p.cmp.toNat < 2 ^ p.tw) &&
  (p.caps.all fun c => decide (1 ≤ c.size ∧ c.size ≤ c.left + 1 ∧ c.left < p.tw) && decide ((c.name.getD []).length ≤ 256) &&
    (List.range 32).all fun i => !(coveredBy c i && p.mask.getLsbD i)) &&
  decide (p.caps.Pairwise fun c e => (List.range 32).all (fun i => !(coveredBy c i && coveredBy e i)) = true) &&
  ((List.range p.tw).all fun i => p.mask.getLsbD i || p.caps.any fun c => coveredBy c i) &&
  decide (specificity p + (p.caps.map Capture.size).sum = p.tw) && decide ((p.name.getD []).length ≤ 256)

theorem nameOk_of_getD {name : PartName} (h : (name.getD []).length ≤ 256) : NameOk 256 name := by
  rintro cs rfl; exact h

/-- A pattern that passes the check meets the invariant of a slot. -/
theorem patternOk_of_check {p : Pattern} (h : patternCheck p = true) : PatternOk 256 p := by
  simp only [patternCheck, Bool.and_eq_true, decide_eq_true_eq, List.all_eq_true, List.any_eq_true, Bool.or_eq_true,
    Bool.not_eq_true', Bool.and_eq_false_iff, List.mem_range, coveredBy, decide_eq_false_iff_not] at h
  obtain ⟨⟨⟨⟨⟨⟨h₁, h₂⟩, h₃⟩, h₄⟩, h₅⟩, h₆⟩, h₇⟩ := h
  refine ⟨h₁, h₂, fun c hc => ?_, h₄.imp_of_mem fun {c e} hc he hce i hi => ?_, fun i hi => ?_, h₆, nameOk_of_getD h₇⟩
  · obtain ⟨⟨⟨a₁, a₂, a₃⟩, a₄⟩, a₅⟩ := h₃ c hc
    refine ⟨a₁, a₂, a₃, nameOk_of_getD a₄, fun i hi => ?_⟩
    have : i < 32 := lt_of_le_of_lt hi.2 (lt_of_lt_of_le a₃ h₂.1)
    exact (a₅ i this).resolve_left fun hn => hn hi
  · have : i < 32 := lt_of_le_of_lt hi.1.2 (lt_of_lt_of_le (h₃ c hc).1.1.2.2 h₂.1)
    rcases hce i this with hn | hn
    · exact hn hi.1
    · exact hn hi.2
  · rcases h₅ i hi with h' | ⟨c, hc, h'⟩
    · exact .inl h'
    · exact .inr ⟨c, hc, h'⟩

theorem grouped_slots : ∀ (m : Nat) (p : Pattern), recordAt grouped.pt m = some p → patternCheck p = true := by
  have h : ∀ row ∈ grouped.pt, patternCheck row.2 = true := by decide
  intro m p hp
  obtain ⟨row, hr, rfl⟩ := Option.map_eq_some_iff.mp hp
  exact h row (List.mem_of_find?_eq_some hr)

theorem grouped_groups : ∀ (g : Nat) (r : GroupRecord), recordAt grouped.gt g = some r → r = ⟨[0, 1]⟩ := by
  intro g r hp
  obtain ⟨row, hr, rfl⟩ := Option.map_eq_some_iff.mp hp
  have h : ∀ row ∈ grouped.gt, row.2 = ⟨[0, 1]⟩ := by decide
  exact h row (List.mem_of_find?_eq_some hr)

/-- The invariant holds of a state with three patterns and a group: it is not only true of empty tables. -/
theorem grouped_invariant : UnitInv grouped where
  params := params_ok
  partCount := by decide
  parts := by intro p hp; cases hp
  built := by intro _; decide
  tables := ⟨⟨by decide, by decide⟩, ⟨by decide, by decide⟩⟩
  patterns := fun m p hp => patternOk_of_check (grouped_slots m p hp)
  groups := by
    intro g r hr
    obtain rfl := grouped_groups g r hr
    have h₀ : recordAt grouped.pt 0 = some pattern01 := by decide
    have h₁ : recordAt grouped.pt 1 = some pattern11 := by decide
    refine ⟨by decide, fun m hm => ?_, ?_⟩
    · rcases List.mem_pair.mp hm with rfl | rfl
      · exact ⟨by decide, _, h₀⟩
      · exact ⟨by decide, _, h₁⟩
    · refine List.pairwise_pair.mpr fun p q hp hq => ?_
      rw [h₀] at hp; rw [h₁] at hq
      cases hp; cases hq; decide
  portsIn := by
    refine ⟨?_, (by intro cs h; cases h), (by intro xs h; cases h)⟩
    unfold Raw; decide
  portsOut := by intro r h; cases h

theorem witness_InvariantKept : ∃ s t, UnitInv s ∧ step s = .next t ∧ t ≠ s :=
  ⟨({ grouped with pending := [] } : State).withFetchWord 32 0x7A000000, _, by
    obtain ⟨h₁, h₂, h₃, h₄, h₅, h₆, h₇, h₈, h₉⟩ := grouped_invariant
    exact ⟨h₁, h₂, h₃, h₄, h₅, h₆, fun g r hr => ⟨(h₇ g r hr).1, (h₇ g r hr).2, (h₇ g r hr).3⟩, h₈, h₉⟩,
    rfl, fun h => by have := congrArg State.pending h; revert this; decide⟩

theorem witness_ValidSlotsKept : recordAt grouped.pt 2 = some pattern101 ∧ recordAt grouped.gt 0 = some ⟨[0, 1]⟩ ∧
    ∃ t, exec .pgmake grouped = .next t := ⟨by decide, by decide, _, rfl⟩

theorem witness_BuiltBuilderKept : built.phase = .built ∧ Instr.pbfix ≠ .pbnew ∧ ∃ t, exec .pbfix built = .next t :=
  ⟨rfl, by decide, _, rfl⟩

/-- Every port that GETBIT does not read at another value, and ports A and B that CSRR does not read. -/
theorem witness_UnreadPortsIgnored :
    (∃ t, exec .getbit (withPorts { a := 1 }) = .next t ∧ Determined (withPorts { a := 1 }) t ∧
      ∀ q ∈ portsRead .getbit,
        SamePort { a := 1, c := 5, d := -1, sIn := some [], v := some [7] } (withPorts { a := 1 }).ports q) ∧
    (∃ t, exec (.csrr 0) State.reset = .next t ∧ Determined State.reset t ∧
      ∀ q ∈ portsRead (.csrr 0), SamePort { a := 9, b := 8 } State.reset.ports q) :=
  ⟨⟨_, rfl, rfl, by simp [portsRead, SamePort, withPorts, State.reset]⟩, ⟨_, rfl, rfl, by simp [portsRead]⟩⟩

theorem witness_ReadsIdempotent : ∃ t, exec .pgmatch grouped = .next t := ⟨_, rfl⟩

theorem witness_AssertEnableReaders : Policy.clamped ≠ .checked ∧
    ∃ t, exec (.add .clamped ⟨8, false⟩) (withPorts { a := 255, b := 1 }) = .next t ∧
      Determined (withPorts { a := 255, b := 1 }) t := ⟨by decide, _, rfl, rfl⟩

/-- The two values of ROTRSH_FN: the default, and a list that answers for the operands or does not. -/
theorem witness_RotateRightShift :
    State.reset.params.rotrshFn = .rotr ∧
    ∃ s : State, s.params.rotrshFn = .listed ([] ++ ((s.ports.a, s.ports.b, s.ports.c), .ok { r0 := 8 }) :: []) ∧
      (∀ row ∈ ([((5, 0, 9), .novalue)] : List ((Int × Int × Int) × Answer)),
        row.1 ≠ (s.ports.a, s.ports.b, s.ports.c)) :=
  ⟨rfl, { State.atReset { rotrshFn := .listed [((3, 1, 4), .ok { r0 := 8 })] } with ports := { a := 3, b := 1, c := 4 } },
    rfl, by decide⟩

theorem witness_RotationsInverse : ∃ t r, exec .rotl (withPorts { a := 0x1F3, b := 4, c := 8 }) = .next t ∧
    t.response = some ⟨.ok, r⟩ ∧ r = { r0 := 0x13F } ∧ Raw State.reset.params 0x1F3 :=
  ⟨_, _, rfl, rfl, by decide, by unfold Raw; decide⟩

theorem witness_RenderBinary : (¬ (0 : Int) < 0 ∧ ¬ ((256 : Int) < 0 ∨ (State.reset.params.sMax : Int) < 256)) ∧
    Raw State.reset.params (2 ^ 63 - 1) := by unfold Raw; decide

/-- Legal long pairs and bit numbers at the edges, and illegal ones next to them, on 64-bit ports. -/
theorem witness_LongBits : SizesOk State.reset.params ∧ Raw State.reset.params (2 ^ 63 - 1) ∧
    (((0 : Int) ≤ 2 ^ 32 - 1 ∧ (2 : Int) ^ 32 - 1 < 2 ^ 32) ∧
      ((0 : Int) ≤ 2 ^ 31 - 1 ∧ (2 : Int) ^ 31 - 1 < 2 ^ (State.reset.params.rawBits - 33)) ∧
      (0 : Int) ≤ 62 ∧ (62 : Int) < (State.reset.params.rawBits : Int) - 1) ∧
    ¬ (63 : Int) < (State.reset.params.rawBits : Int) - 1 ∧ ¬ (2 : Int) ^ 32 < 2 ^ 32 :=
  ⟨sizes_ok.1, by unfold Raw; decide, by decide, by decide, by decide⟩

theorem witness_LongField : SizesOk State.reset.params ∧ SizesOk (State.atReset smallest).params := sizes_ok

theorem witness_FitAndNegation : Desc.wf 63 ⟨63, true⟩ = true ∧ Desc.wf 63 ⟨1, false⟩ = true ∧
    Valid ⟨63, true⟩ (-2 ^ 62) ∧ ¬ Valid ⟨1, true⟩ 1 := by decide

theorem witness_SumsAndProducts : Desc.wf 63 ⟨1, true⟩ = true ∧ Valid ⟨1, true⟩ (-1) ∧ ¬ Valid ⟨1, false⟩ 2 := by decide

theorem witness_PowersAndShifts : Desc.wf 63 ⟨63, false⟩ = true ∧ Valid ⟨63, false⟩ (2 ^ 63 - 1) := by decide

theorem witness_NextPowerAndMultiple : Desc.wf 63 ⟨8, false⟩ = true ∧
    ((129 : Int) ≤ 2 ^ 8 ∧ ∀ j < 8, (2 : Int) ^ j < 129) ∧
    ((245 : Int) ≤ 3 * 100 ∧ (3 - 1) * 100 < (245 : Int)) ∧
    (Valid ⟨8, false⟩ 245 ∧ Valid ⟨8, false⟩ 100) ∧ ¬ (Valid ⟨8, false⟩ 0 ∧ (0 : Int) < 0) := by decide

theorem witness_PolicyResultsValid : SizesOk State.reset.params ∧ Desc.wf State.reset.params.wMax ⟨8, false⟩ = true ∧
    ∃ t r, exec (.add .clamped ⟨8, false⟩) (withPorts { a := 255, b := 1 }) = .next t ∧
    t.response = some r ∧ Determined (withPorts { a := 255, b := 1 }) t ∧ r.status = .ok :=
  ⟨sizes_ok.1, by decide, _, _, rfl, rfl, rfl, rfl⟩

theorem witness_PatternBits : Desc.wf 63 ⟨63, true⟩ = true ∧ Valid ⟨63, true⟩ (-1) ∧ ¬ Valid ⟨8, true⟩ 128 := by decide

theorem witness_BitCounts : Desc.wf 63 ⟨1, true⟩ = true ∧ Valid ⟨1, true⟩ (-1) ∧ ¬ Valid ⟨1, true⟩ 1 := by decide

theorem witness_PatternFields : Desc.wf 63 ⟨8, true⟩ = true ∧ Valid ⟨8, true⟩ (-128) ∧ SizesOk State.reset.params :=
  ⟨by decide, by decide, sizes_ok.1⟩

theorem witness_PatternRotations : Desc.wf 63 ⟨8, false⟩ = true ∧ Valid ⟨8, false⟩ 255 := by decide

theorem witness_Halves : Desc.wf 63 ⟨8, true⟩ = true ∧ (Desc.width ⟨8, true⟩) % 2 = 0 ∧ Valid ⟨8, true⟩ (-128) ∧
    SizesOk State.reset.params ∧
    ∃ t r, exec (.hilo ⟨8, true⟩) (withPorts { a := -128 }) = .next t ∧ t.response = some ⟨.ok, r⟩ :=
  ⟨by decide, by decide, by decide, sizes_ok.1, _, _, rfl, rfl⟩

theorem witness_SquareRoot : Desc.wf 63 ⟨8, false⟩ = true ∧
    (((15 : Nat) : Int) * (15 : Nat) ≤ 255 ∧ (255 : Int) < (((15 : Nat) : Int) + 1) * (((15 : Nat) : Int) + 1) ∧
      Valid ⟨8, false⟩ 255) ∧ ((-1 : Int) < 0 ∧ Valid ⟨8, true⟩ (-1)) ∧ ¬ Valid ⟨8, false⟩ 256 := by decide

theorem witness_Logarithms : Desc.wf 63 ⟨8, false⟩ = true ∧
    ((2 : Int) ≤ 3 ∧ (3 : Int) ^ 5 ≤ 243 ∧ (243 : Int) < 3 ^ (5 + 1) ∧ Valid ⟨8, false⟩ 243) ∧
    ((0 : Int) ≤ 0 ∧ Valid ⟨8, false⟩ 0) ∧ ((1 : Int) < 2 ∧ Valid ⟨8, false⟩ 5) ∧ ¬ Valid ⟨8, false⟩ 256 := by decide

theorem witness_Midpoint : Desc.wf 63 ⟨8, true⟩ = true ∧ (2 * (-4) : Int) = -3 + -5 ∧ (2 * (-4) + 1 : Int) = -3 + -4 ∧
    Valid ⟨8, true⟩ (-3) ∧ Valid ⟨8, true⟩ (-4) ∧ Valid ⟨8, true⟩ (-5) ∧ ¬ Valid ⟨8, true⟩ 128 := by decide

theorem witness_ClampToInterval : Desc.wf 63 ⟨8, true⟩ = true ∧ ¬ (10 : Int) < -10 ∧ (8 : Int) < 9 ∧
    Valid ⟨8, true⟩ (-50) := by decide

theorem witness_Remainders : Desc.wf 63 ⟨8, true⟩ = true ∧
    ((-3 : Int) ≠ 0 ∧ Valid ⟨8, true⟩ (-7) ∧ Valid ⟨8, true⟩ (-3) ∧ (-3 : Int) ∣ -7 - -1 ∧
      |(-1 : Int)| < |(-3 : Int)| ∧ (-7 : Int) ≤ 0) ∧
    ((-3 : Int) ∣ -7 - 2 ∧ |(2 : Int)| < |(-3 : Int)|) ∧ ¬ Valid ⟨8, true⟩ 128 := by decide

theorem witness_Comparisons : Desc.wf 63 ⟨63, false⟩ = true ∧ Valid ⟨63, false⟩ 0 ∧ Valid ⟨63, false⟩ (2 ^ 63 - 1) := by
  decide

theorem witness_BitwiseOperators : Desc.wf 63 ⟨8, true⟩ = true ∧ Valid ⟨8, true⟩ (-128) ∧ Valid ⟨8, true⟩ 127 := by
  decide

theorem witness_ShiftOperators : Desc.wf 63 ⟨8, true⟩ = true ∧ Valid ⟨8, true⟩ (-128) ∧ ¬ (100 : Int) < 0 := by decide

/-- A builder with 64 parts. -/
def full : State := { State.reset with parts := List.replicate 64 (.fixed true) }

theorem witness_BuilderCommands : built.phase = .built ∧ building.phase = .building ∧
    ((2 : Int) ≠ 0 ∧ (2 : Int) ≠ 1) ∧ (0 : Int) < 1 ∧ full.parts.length = full.params.pbMax ∧ full.phase = .building ∧
    building.parts.length ≠ building.params.pbMax ∧ 0 = flag false ∧ 1 = flag true := by decide

/-- The example's parts, with a valid slot 0. -/
def rebuilding : State := { built with phase := .building }

theorem witness_BuildPattern : built.phase = .built ∧
    (building.phase = .building ∧ slotAt 64 building.pt 64 = none) ∧
    (slotAt 64 building.pt 63 ≠ none ∧ 32 < (bitsOf [.var 33 none]).length) ∧
    (rebuilding.phase = .building ∧ slotAt 64 rebuilding.pt 0 = some (some examplePattern)) ∧
    (slotAt 64 building.pt 63 = some none ∧ (bitsOf building.parts).length ≤ 32) := by
  decide

theorem witness_BuiltPatternMatchesItsParts : ∃ t r, exec .pbbuild building = .next t ∧ t.response = some ⟨.ok, r⟩ ∧
    (({ b := 0xBA } : Ports)).a = building.ports.a := ⟨_, _, rfl, rfl, rfl⟩

theorem witness_PatternInfo : UnitInv grouped ∧ slotAt 64 grouped.pt 2 = some (some pattern101) :=
  ⟨grouped_invariant, by decide⟩

theorem witness_MakeGroup : slotAt 16 grouped.gt 16 = none ∧ slotAt 16 grouped.gt 15 = some none ∧
    64 < (List.replicate 65 (0 : Int)).length ∧ (List.replicate 64 (0 : Int)).length ≤ 64 ∧
    (∃ p, slotAt 64 grouped.pt 2 = some (some p)) ∧ slotAt 64 grouped.pt 64 = none ∧
    slotAt 64 grouped.pt 3 = some none ∧ (∃ r, slotAt 16 grouped.gt 0 = some (some r)) ∧ ParamsOk grouped.params :=
  ⟨by decide, by decide, by decide, by decide, ⟨pattern101, by decide⟩, by decide, by decide, ⟨⟨[0, 1]⟩, by decide⟩,
    params_ok⟩

theorem witness_MatchGroup : UnitInv grouped ∧ slotAt 16 grouped.gt 16 = none ∧ slotAt 16 grouped.gt 15 = some none ∧
    slotAt 16 grouped.gt 0 = some (some ⟨[0, 1]⟩) ∧ ¬ Matches pattern01 (13 : BitVec 64) ∧
    Matches pattern11 (13 : BitVec 64) ∧ ¬ Matches pattern11 (0 : BitVec 64) := by
  refine ⟨grouped_invariant, by decide, by decide, by decide, ?_, ?_, ?_⟩ <;> unfold Matches <;> decide

theorem witness_ControlRegisters : (0 : BitVec 12) = 0 ∧ (2 : BitVec 12) ≠ 0 ∧ (2 : BitVec 12) ≠ 1 := by decide

end Sys2Proof.Tests
end

/-! # The invariant of the machine is kept (R5, R40, R41, R44, R46, R84, R85)

Three layers: what the reset state and each write to the unit do to `UnitInv`; that no command shows more on RS and RV
than those ports hold; the step, assembled from both by `exec_writes`. -/

namespace Sys2Proof.Machine.Laws

open Sys2Proof.Safety

/-! ## The parameters -/

/-- There is a port to put a number on (R5). -/
theorem one_le_rawBits {p : Params} (h : SizesOk p) : 1 ≤ p.rawBits := by
  have := h.wMax
  omega

/-- The values that this hardware takes meet the constraints of R5. -/
theorem paramsOk_defaults : ParamsOk {} where
  sizes := ⟨by decide, by decide, by decide, by decide, by decide⟩
  rotrsh _ h := nomatch h
  ties _ h := nomatch h

theorem raw_zero (p : Params) : Raw p 0 := by
  have := two_pow_pos (p.rawBits - 1)
  exact ⟨by omega, this⟩

/-! ## Writes to the unit keep the invariant -/

/-- A group's invariant depends on the parameters and on the valid pattern slots, and no more than that these keep what
they hold: its members stay valid, with the same specificities (R46). -/
theorem groupOk_of_slots_kept {s t : State} {r : GroupRecord} (h : GroupOk s r) (hparams : t.params = s.params)
    (hkept : ∀ m p, recordAt s.pt m = some p → recordAt t.pt m = some p) : GroupOk t r where
  size := by rw [hparams]; exact h.size
  members m hm := by
    obtain ⟨hlt, p, hp⟩ := h.members m hm
    exact ⟨by rw [hparams]; exact hlt, p, hkept m p hp⟩
  sorted := by
    refine h.sorted.imp_of_mem fun {m n} hm hn hle p q hp hq => ?_
    obtain ⟨-, p', hp'⟩ := h.members m hm
    obtain ⟨-, q', hq'⟩ := h.members n hn
    obtain rfl : p' = p := Option.some.inj ((hkept m p' hp').symm.trans hp)
    obtain rfl : q' = q := Option.some.inj ((hkept n q' hq').symm.trans hq)
    exact hle p' q' hp' hq'

/-- After reset the builder is fresh, both tables are empty and no response is shown (R50, R290). -/
theorem unitInv_atReset {p : Params} (h : ParamsOk p) : UnitInv (State.atReset p) where
  params := h
  partCount := Nat.zero_le _
  parts _ hq := nomatch hq
  built hb := nomatch hb
  tables := ⟨⟨.nil, fun _ hrow => nomatch hrow⟩, ⟨.nil, fun _ hrow => nomatch hrow⟩⟩
  patterns _ _ hm := nomatch hm
  groups _ _ hg := nomatch hg
  portsIn := ⟨⟨raw_zero p, raw_zero p, raw_zero p, raw_zero p⟩, (fun _ hcs => nomatch hcs), fun _ hxs => nomatch hxs⟩
  portsOut _ hr := nomatch hr

theorem unitInv_applyReset {s : State} (h : UnitInv s) (rest : List Input) : UnitInv (s.applyReset rest) :=
  { unitInv_atReset h.params with groups := fun _ _ hg => nomatch hg }

theorem unitInv_setDbgctl {s : State} (h : UnitInv s) (v : Int) : UnitInv (s.setDbgctl v) :=
  { h with groups := fun g r hg => groupOk_of_slots_kept (h.groups g r hg) rfl fun _ _ hp => hp }

theorem unitInv_newBuilder {s : State} (h : UnitInv s) : UnitInv s.newBuilder :=
  { h with
    partCount := Nat.zero_le _
    parts := fun _ hq => nomatch hq
    built := fun hb => nomatch hb
    groups := fun g r hg => groupOk_of_slots_kept (h.groups g r hg) rfl fun _ _ hp => hp }

/-- A legal part, appended to a builder that is building and not full (R234, R235). -/
theorem unitInv_appendPart {s : State} (h : UnitInv s) (hphase : s.phase = .building)
    (hroom : s.parts.length ≠ s.params.pbMax) {p : BitPart} (hp : PartOk s.params.sMax p) :
    UnitInv (s.appendPart p) :=
  { h with
    partCount := by
      have := h.partCount
      simp only [State.appendPart_parts, State.appendPart_params, List.length_append, List.length_singleton]
      omega
    parts := fun q hq => by
      rcases List.mem_append.mp hq with hq | hq
      · exact h.parts q hq
      · rw [List.mem_singleton.mp hq]; exact hp
    built := fun hb => by
      rw [State.appendPart_phase, hphase] at hb
      cases hb
    groups := fun g r hg => groupOk_of_slots_kept (h.groups g r hg) rfl fun _ _ hp => hp }

/-- The compiled pattern of at most 32 bits, written to an invalid slot (R236): the slots that were valid keep what they
hold, so that no group is disturbed. -/
theorem unitInv_storePattern {s : State} (h : UnitInv s) {m : Nat} (hm : m < s.params.nPat)
    (hfree : slotGet s.pt m = none) (hwidth : totalWidth s.parts ≤ 32) :
    UnitInv (s.storePattern m (compile s.parts s.ports.sIn)) := by
  have hwritten := writtenAt_slotPut s.pt m (compile s.parts s.ports.sIn)
  rw [slotGet_eq] at hfree
  exact
  { h with
    built := fun _ => by rw [← totalWidth_eq]; exact hwidth
    tables := ⟨slotPut_ok h.tables.1 hm _, h.tables.2⟩
    patterns := fun j p hj => by
      rw [State.storePattern_pt, hwritten j] at hj
      split at hj
      · cases hj; exact compile_ok h.parts hwidth h.portsIn.string
      · exact h.patterns j p hj
    groups := fun g r hg => groupOk_of_slots_kept (h.groups g r hg) rfl fun j p hj => by
      have hne : j ≠ m := by
        rintro rfl
        rw [hfree] at hj
        cases hj
      rw [State.storePattern_pt, hwritten j, if_neg hne]
      exact hj }

theorem groupOf_length {s : State} (h : ParamsOk s.params) {xs : List Int} {ms : List Nat}
    (hms : s.checkMembers xs = .ok ms) : (s.groupOf ms).length = xs.length := by
  rw [(groupOf_perm h ms).length_eq, (checkMembers_ok hms).1, List.length_map]

/-- The group that `PGMAKE` makes of the members it has tested (R46, R242). -/
theorem groupOk_groupOf {s : State} (h : ParamsOk s.params) {xs : List Int} {ms : List Nat}
    (hms : s.checkMembers xs = .ok ms) (hpos : 1 ≤ xs.length) (hmax : xs.length ≤ s.params.gMax) :
    GroupOk s ⟨s.groupOf ms⟩ where
  size := by rw [groupOf_length h hms]; exact ⟨hpos, hmax⟩
  members m hm := by
    obtain ⟨hmap, hvalid⟩ := checkMembers_ok hms
    rw [(groupOf_perm h ms).mem_iff, hmap] at hm
    obtain ⟨x, hx, rfl⟩ := List.mem_map.mp hm
    exact (hvalid x hx).2
  sorted := (sortMembers_sorted s _).imp fun {m n} hle p q hp hq => by
    rw [specOf_eq hp, specOf_eq hq] at hle
    exact_mod_cast hle

theorem unitInv_storeGroup {s : State} (h : UnitInv s) {g : Nat} (hg : g < s.params.nGrp) {r : GroupRecord}
    (hr : GroupOk s r) : UnitInv (s.storeGroup g r) :=
  { h with
    tables := ⟨h.tables.1, slotPut_ok h.tables.2 hg r⟩
    groups := fun j q hj => by
      rw [State.storeGroup_gt, writtenAt_slotPut s.gt g r j] at hj
      refine groupOk_of_slots_kept (s := s) ?_ rfl fun _ _ hp => hp
      split at hj
      · cases hj; exact hr
      · exact h.groups j q hj }

/-- Whatever an instruction writes before it answers keeps the invariant. -/
theorem unitInv_writes {s u : State} {i : Instr} (h : UnitInv s) (hw : Writes s i u) : UnitInv u := by
  cases hw with
  | nothing => exact h
  | control imm => exact unitInv_setDbgctl h _
  | fresh => exact unitInv_newBuilder h
  | fixed b hphase hroom => exact unitInv_appendPart h hphase hroom trivial
  | var hphase hroom hsize => exact unitInv_appendPart h hphase hroom ⟨hsize, h.portsIn.string⟩
  | pattern m _ hwidth hslot hfree =>
    obtain ⟨-, -, -, hm⟩ := slotOf_some hslot
    exact unitInv_storePattern h hm hfree hwidth
  | group g xs ms hslot _ hpos hmax hms _ =>
    obtain ⟨-, -, -, hg⟩ := slotOf_some hslot
    exact unitInv_storeGroup h hg (groupOk_groupOf h.params hms hpos hmax)

/-! ## Every response fits the result ports -/

/-- The string and the list of an OK answer fit RS and RV (R85). -/
def ListsFit (p : Params) : Answer → Prop
  | .ok r => (∀ cs, r.rs = some cs → cs.length ≤ p.sMax) ∧
      ∀ xs, r.rv = some xs → xs.length ≤ max p.gMax Config.patW
  | _ => True

@[simp] theorem listsFit_ok {p : Params} {r : Results} : ListsFit p (.ok r) ↔
    (∀ cs, r.rs = some cs → cs.length ≤ p.sMax) ∧ ∀ xs, r.rv = some xs → xs.length ≤ max p.gMax Config.patW := Iff.rfl

@[simp] theorem listsFit_novalue {p : Params} : ListsFit p .novalue := trivial

@[simp] theorem listsFit_raise {p : Params} {k : Kind} : ListsFit p (.raise k) := trivial

@[simp] theorem listsFit_unspecified {p : Params} : ListsFit p .unspecified := trivial

@[simp] theorem listsFit_value {p : Params} {x : Int} : ListsFit p (.value x) := by simp [Answer.value]

@[simp] theorem listsFit_pair {p : Params} {x y : Int} : ListsFit p (.pair x y) := by simp [Answer.pair]

@[simp] theorem listsFit_truth {p : Params} {c : Prop} [Decidable c] : ListsFit p (.truth c) := listsFit_value

@[simp] theorem listsFit_ite {p : Params} {c : Prop} [Decidable c] {a b : Answer} :
    ListsFit p (if c then a else b) ↔ (c → ListsFit p a) ∧ (¬ c → ListsFit p b) := by
  split <;> simp [*]

@[simp] theorem listsFit_precondFail {p : Params} {en : Bool} : ListsFit p (precondFail en) := by simp [precondFail]

@[simp] theorem listsFit_applyPolicy {p : Params} {en : Bool} {pol : Policy} {d : Desc} {e : Int} :
    ListsFit p (applyPolicy en pol d e) := by
  cases pol <;> simp [applyPolicy]

@[simp] theorem listsFit_patternOp {p : Params} {op : Nat → Nat → Nat} {d : Desc} {a b : Int} :
    ListsFit p (patternOp op d a b) := by simp [patternOp]

@[simp] theorem listsFit_validAnswer {p : Params} {d : Desc} {a : Int} {r : Answer} (h : ListsFit p r) :
    ListsFit p (validAnswer d a r) := by simp [validAnswer, h]

@[simp] theorem listsFit_boundedAnswer {p : Params} {d : Desc} {u : Bool} {a : Int} {good : Prop} [Decidable good]
    {r : Answer} (h : ListsFit p r) : ListsFit p (boundedAnswer d u a good r) := by simp [boundedAnswer, h]

@[simp] theorem listsFit_compareAnswer {p : Params} {d : Desc} {a b : Int} {c : Prop} [Decidable c] :
    ListsFit p (compareAnswer d a b c) := by simp [compareAnswer]

@[simp] theorem listsFit_rotrAnswer {p q : Params} {a b c : Int} : ListsFit p (rotrAnswer q a b c) := by
  simp [rotrAnswer]

/-- ROTRSH_FN answers what the ports can carry (R5, U10). -/
theorem listsFit_rotrsh {p : Params} (h : ParamsOk p) (a b c : Int) : ListsFit p (p.rotrsh a b c) := by
  unfold Params.rotrsh
  split
  · exact listsFit_rotrAnswer
  · next rows hrows =>
    split
    · next answer hanswer =>
      obtain ⟨before, after, rfl, -⟩ := List.lookup_eq_some_iff.mp hanswer
      obtain ⟨-, hfits⟩ := h.rotrsh _ hrows (_, answer) List.mem_append_cons_self
      cases answer with
      | ok r => exact ⟨(hfits r rfl).1, fun xs hxs => le_max_of_le_left ((hfits r rfl).2 xs hxs)⟩
      | novalue => trivial
      | raise k => trivial
      | unspecified => trivial
    · exact listsFit_rotrAnswer

/-- RENDERB's digits: as many as asked for, which is at most SMAX, or as the raw value has, which is fewer than RAWBITS
(R129). -/
theorem render_length_le {s : State} (h : UnitInv s) (hA : 0 ≤ s.A) {pad : Nat} (hpad : pad ≤ s.params.sMax) :
    (padZeros pad (render s.A)).length ≤ s.params.sMax := by
  obtain ⟨-, hlt⟩ : Raw s.params s.A := h.portsIn.operands.1
  have hwide := h.params.sizes.wMax
  have hstrings := h.params.sizes.strings
  have hsize : Nat.size s.A.toNat ≤ s.params.rawBits - 1 := by
    apply Nat.size_le.mpr
    zify
    rwa [Int.toNat_of_nonneg hA]
  have hlength := (render_spec s.A.toNat pad).2.2
  rw [Int.toNat_of_nonneg hA] at hlength
  omega

/-- A valid slot has at most as many captures as it has bits (R44 c, e). -/
theorem captures_length_le {n : Nat} {p : Pattern} (h : PatternOk n p) : p.caps.length ≤ Config.patW := by
  have hsum : (p.caps.map Capture.size).length • 1 ≤ (p.caps.map Capture.size).sum :=
    List.card_nsmul_le_sum _ 1 fun k hk => by
      obtain ⟨c, hc, rfl⟩ := List.mem_map.mp hk
      exact (h.captures c hc).1
  have htotal := h.total
  have hwidth := h.width.1
  rw [List.length_map, smul_eq_mul, mul_one] at hsum
  show p.caps.length ≤ 32
  omega

theorem recordAt_of_readSlot {α : Type} {n : Nat} {table : Table α} {x : Int} {r : α}
    (h : readSlot n table x = .ok r) : ∃ k, recordAt table k = some r := by
  unfold readSlot at h
  split at h
  · cases h
  · next k _ =>
    split at h
    · cases h
    · next q hq => cases h; exact ⟨k, by rw [← slotGet_eq]; exact hq⟩

/-- A command that reads a pattern slot fits if what it makes of every record that the invariant allows does. -/
theorem listsFit_onPattern {s : State} (h : UnitInv s) {x : Int} {f : Pattern → Answer}
    (hf : ∀ p, PatternOk s.params.sMax p → ListsFit s.params (f p)) : ListsFit s.params (onPattern s x f) := by
  unfold onPattern
  split
  · trivial
  · next p hp =>
    obtain ⟨m, hm⟩ := recordAt_of_readSlot hp
    exact hf p (h.patterns m p hm)

theorem listsFit_membersAnswer {p : Params} {ms : List Nat} (h : ms.length ≤ p.gMax) : ListsFit p (membersAnswer ms) :=
  ⟨(fun _ hcs => nomatch hcs), fun xs hxs => by cases hxs; rw [List.length_map]; exact le_max_of_le_left h⟩

/-- The command answers, its parameters are those of `s`, and its lists fit. -/
def AnswersFit (s : State) (o : Result) : Prop := ∃ u a, o = answer u a ∧ u.params = s.params ∧ ListsFit s.params a

theorem answersFit_answer {s : State} {a : Answer} (h : ListsFit s.params a) : AnswersFit s (answer s a) :=
  ⟨s, a, rfl, rfl, h⟩

theorem answersFit_appendAnswer (s : State) (p : BitPart) : AnswersFit s (appendAnswer s p) :=
  ⟨_, _, rfl, rfl, listsFit_value⟩

theorem answersFit_raise (s : State) (k : Kind) : AnswersFit s (answer s (.raise k)) := answersFit_answer listsFit_raise

theorem answersFit_ite {s : State} {c : Prop} [Decidable c] {o o' : Result} (h : AnswersFit s o)
    (h' : AnswersFit s o') : AnswersFit s (if c then o else o') := by
  split
  · exact h
  · exact h'

theorem answersFit_csrw (s : State) (imm : BitVec 12) : AnswersFit s (execCsrw imm s) :=
  answersFit_ite (answersFit_raise s _) ⟨_, _, rfl, rfl, by simp⟩

theorem answersFit_pbfix (s : State) : AnswersFit s (execPbfix s) :=
  answersFit_ite (answersFit_raise s _) <| answersFit_ite (answersFit_raise s _) <|
    answersFit_ite (answersFit_raise s _) (answersFit_appendAnswer s _)

theorem answersFit_pbvar (s : State) : AnswersFit s (execPbvar s) :=
  answersFit_ite (answersFit_raise s _) <| answersFit_ite (answersFit_raise s _) <|
    answersFit_ite (answersFit_raise s _) (answersFit_appendAnswer s _)

theorem answersFit_pbbuild (s : State) : AnswersFit s (execPbbuild s) := by
  rcases execPbbuild_cases s with ⟨k, hk⟩ | ⟨-, -, m, -, -, hm⟩
  · rw [hk]; exact answersFit_raise s k
  · exact ⟨_, _, hm, rfl, by simp [builtAnswer]⟩

theorem answersFit_pgmake {s : State} (h : UnitInv s) : AnswersFit s (execPgmake s) := by
  rcases execPgmake_cases s with ⟨k, hk⟩ | ⟨g, xs, ms, -, -, -, hmax, hms, -, hmake⟩
  · rw [hk]; exact answersFit_raise s k
  · exact ⟨_, _, hmake, rfl, listsFit_membersAnswer (by rw [groupOf_length h.params hms]; exact hmax)⟩

theorem answersFit_renderb {s : State} (h : UnitInv s) : AnswersFit s (execRenderb s) := by
  apply answersFit_answer
  split
  · trivial
  · next hA =>
    split
    · trivial
    · next hB =>
      refine ⟨fun cs hcs => ?_, fun _ hxs => nomatch hxs⟩
      cases hcs
      exact render_length_le h (not_lt.mp hA) (by omega)

theorem answersFit_ptcapt {s : State} (h : UnitInv s) : AnswersFit s (execPtcapt s) :=
  answersFit_answer <| listsFit_onPattern h fun p hp =>
    ⟨(fun _ hcs => nomatch hcs), fun xs hxs => by
      cases hxs; rw [List.length_map]; exact le_max_of_le_right (captures_length_le hp)⟩

theorem answersFit_ptinfo {s : State} (h : UnitInv s) : AnswersFit s (execPtinfo s) :=
  answersFit_answer <| listsFit_onPattern h fun p hp =>
    ⟨hp.name, fun xs hxs => by
      cases hxs; rw [List.length_map]; exact le_max_of_le_right (captures_length_le hp)⟩

theorem answersFit_ptcspec {s : State} (h : UnitInv s) : AnswersFit s (execPtcspec s) := by
  refine answersFit_answer <| listsFit_onPattern h fun p hp => ?_
  split
  · trivial
  · split
    · trivial
    · next c hc =>
      obtain ⟨-, -, -, hname, -⟩ := hp.captures c (List.mem_of_getElem? hc)
      exact ⟨hname, fun _ hxs => nomatch hxs⟩

theorem answersFit_ptcmp (s : State) : AnswersFit s (execPtcmp s) := by
  apply answersFit_answer
  split <;> simp

theorem answersFit_pgmatch (s : State) : AnswersFit s (execPgmatch s) := by
  apply answersFit_answer
  split
  · trivial
  · split
    · trivial
    · exact listsFit_pair

theorem answersFit_pginfo {s : State} (h : UnitInv s) : AnswersFit s (execPginfo s) := by
  apply answersFit_answer
  split
  · trivial
  · next r hr =>
    obtain ⟨g, hg⟩ := recordAt_of_readSlot hr
    exact listsFit_membersAnswer (h.groups g r hg).size.2

theorem answersFit_parseb (s : State) : AnswersFit s (execParseb s) := by
  apply answersFit_answer
  split
  · trivial
  · trivial
  · split
    · trivial
    · simp

/-- No command shows more than the result ports hold. Those that can show a string or a list, write the unit or read a
slot have a lemma of their own; every other one answers from `s` itself, with numbers alone. -/
theorem answersFit_exec {s : State} (h : UnitInv s) (i : Instr) : AnswersFit s (exec i s) := by
  cases i with
  | csrw imm => exact answersFit_csrw s imm
  | rotrsh => exact answersFit_answer (listsFit_rotrsh h.params _ _ _)
  | parseb => exact answersFit_parseb s
  | renderb => exact answersFit_renderb h
  | pbnew => exact ⟨_, _, rfl, rfl, by simp⟩
  | pbfix => exact answersFit_pbfix s
  | pbvar => exact answersFit_pbvar s
  | pbbuild => exact answersFit_pbbuild s
  | ptmatch => exact answersFit_answer (listsFit_onPattern h fun _ _ => listsFit_truth)
  | ptcapt => exact answersFit_ptcapt h
  | ptinfo => exact answersFit_ptinfo h
  | ptcspec => exact answersFit_ptcspec h
  | ptcmp => exact answersFit_ptcmp s
  | pgmake => exact answersFit_pgmake h
  | pgmatch => exact answersFit_pgmatch s
  | pginfo => exact answersFit_pginfo h
  | _ => exact answersFit_answer (by simp)

/-- The response that an answer leaves fits the result ports (R85; for a free response, log entry 20). -/
theorem resultsOk_of_answer {s : State} (h : 1 ≤ s.params.rawBits) {a : Answer} (ha : ListsFit s.params a)
    {r : Response} (hr : (s.answered a).response = some r) : ResultsOk s.params r.results := by
  have hnone : ResultsOk s.params {} :=
    ⟨⟨raw_zero _, raw_zero _, raw_zero _, raw_zero _⟩, (fun _ hcs => nomatch hcs), fun _ hxs => nomatch hxs⟩
  cases a with
  | ok results => cases hr; exact onPorts_ok h ha.1 ha.2
  | novalue => cases hr; exact hnone
  | raise k => cases hr; exact hnone
  | unspecified => cases hr; exact freeResponse_ok h

/-! ## The step -/

/-- Answering keeps the invariant as soon as the response that is left fits its ports: nothing else is written. -/
theorem unitInv_answered {u : State} (h : UnitInv u) {a : Answer}
    (hout : ∀ r, (u.answered a).response = some r → ResultsOk u.params r.results) : UnitInv (u.answered a) := by
  cases a <;> exact
    { h with
      groups := fun g r hg => groupOk_of_slots_kept (h.groups g r hg) rfl fun _ _ hp => hp
      portsOut := hout }

/-- Every instruction keeps the invariant, on every operand: what it writes does, and what it shows fits. -/
theorem unitInv_exec {s t : State} (h : UnitInv s) {i : Instr} (ht : exec i s = .next t) : UnitInv t := by
  obtain ⟨u, a, hexec, hwrites, -⟩ := exec_writes i s
  obtain ⟨v, b, hexec', hparams, hfit⟩ := answersFit_exec h i
  have hu : UnitInv u := unitInv_writes h hwrites
  obtain rfl : u.answered a = t := by rw [hexec] at ht; exact Host.Outcome.next.inj ht
  have hsame : u.answered a = v.answered b := Host.Outcome.next.inj (hexec.symm.trans hexec')
  have huv : u.params = v.params := by
    rw [← (answered_frame u a).1.1, hsame, (answered_frame v b).1.1]
  refine unitInv_answered hu fun r hr => ?_
  rw [huv]
  rw [hsame] at hr
  rw [← hparams] at hfit
  exact resultsOk_of_answer (by rw [hparams]; exact one_le_rawBits h.params.sizes) hfit hr

/-- An illegal word answers ILLEGAL and any other runs its instruction (R87, R89). -/
theorem unitInv_runWord {s t : State} (h : UnitInv s) {x : CommandWord} (ht : runWord x s = .next t) : UnitInv t := by
  unfold runWord at ht
  split at ht
  · cases ht
    exact unitInv_answered h fun r hr => resultsOk_of_answer (one_le_rawBits h.params.sizes) listsFit_raise hr
  · exact unitInv_exec h ht

/-- What a presentable command puts on the ports (R84). -/
theorem portsOk_of_presentable {p : Params} {c : Command} (h : c.presentable p = true) : PortsOk p c.ports := by
  unfold Command.presentable at h
  simp only [Bool.and_eq_true, decide_eq_true_eq] at h
  obtain ⟨⟨hoperands, hstring⟩, hlist⟩ := h
  refine ⟨hoperands, fun cs hcs => ?_, fun xs hxs => ?_⟩
  · rw [hcs] at hstring; exact of_decide_eq_true hstring
  · rw [hxs] at hlist; simp only [decide_eq_true_eq] at hlist; exact hlist

theorem unitInv_present {s : State} (h : UnitInv s) {c : Command} (hc : c.presentable s.params = true)
    (rest : List Input) : UnitInv (s.present c rest) :=
  { h with
    groups := fun g r hg => groupOk_of_slots_kept (h.groups g r hg) rfl fun _ _ hp => hp
    portsIn := portsOk_of_presentable hc }

/-- A step that goes on waits, applies reset, or runs a command that the ports can carry (R66, R84, R290). -/
theorem step_cases {s t : State} (h : step s = .next t) :
    t = s ∨ (∃ rest, t = s.applyReset rest) ∨
    ∃ c rest, c.presentable s.params = true ∧ runWord c.word (s.present c rest) = .next t := by
  unfold step takeInput at h
  split at h
  · cases h; exact .inl rfl
  · next rest _ => cases h; exact .inr (.inl ⟨rest, rfl⟩)
  · next c rest _ =>
    split at h
    · next hc => exact .inr (.inr ⟨c, rest, hc, h⟩)
    · cases h

end Sys2Proof.Machine.Laws

namespace Sys2Proof.Proofs

open Sys2Proof.Machine Sys2Proof.Machine.Laws Sys2Proof.Safety

/-- Settles O14: waiting changes nothing, reset gives the reset state of the same parameters, and a command is presented
and run, each of which keeps the invariant. -/
theorem invariantKept : Obligations.InvariantKept := by
  intro s t h hstep
  rcases step_cases hstep with rfl | ⟨rest, rfl⟩ | ⟨c, rest, hc, hrun⟩
  · exact h
  · exact unitInv_applyReset h rest
  · exact unitInv_runWord (unitInv_present h hc rest) hrun

/-- Settles O15: `State.reset` is the reset state of the parameters' defaults. -/
theorem invariantAtReset : Obligations.InvariantAtReset :=
  ⟨rfl, rfl, rfl, unitInv_atReset paramsOk_defaults⟩

end Sys2Proof.Proofs

/-! # The decoder on laid-out fields (R81, R83, R87, R88)

A word decodes to what its row of the opcode map builds from its fields; one lemma per format, so that each instruction
needs no more than its row. -/

namespace Sys2Proof.Laws

theorem decode_toWord {f : Fields} {row : Row} (wMax : Nat) (h : opcodeMap.lookup f.opc = some row) :
    decode wMax f.toWord = row.build wMax f := by
  simp only [decode, ofWord_toWord, h]

/-- The `S` and `W` fields of a legal descriptor give it back, whatever the other fields are (R89 d). -/
theorem fields_desc {wMax : Nat} {d : Desc} (h : d.wf wMax = true) (opc : BitVec 8) (pol : BitVec 3) (u : Bool)
    (imm : BitVec 12) : Fields.desc wMax ⟨opc, pol, d.signed, u, BitVec.ofNat 7 d.width, imm⟩ = .ok d := by
  simp only [Fields.desc, width_field h, h, if_true]

theorem decode_ofZ {opc : BitVec 8} {i : Instr} {wMax : Nat} (hrow : opcodeMap.lookup opc = some (.z i)) :
    decode wMax (Fields.ofZ opc).toWord = .ok i := by
  rw [decode_toWord (row := .z i) wMax hrow]
  rfl

theorem decode_ofP {opc : BitVec 8} {mk : Policy → Desc → Instr} {wMax : Nat} {d : Desc}
    (hrow : opcodeMap.lookup opc = some (.p mk)) (hd : d.wf wMax = true) (pol : Policy) :
    decode wMax (Fields.ofP opc pol d).toWord = .ok (mk pol d) := by
  rw [decode_toWord (row := .p mk) wMax hrow]
  simp [Row.build, Fields.ofP, (policy_field pol).1, fields_desc hd]

theorem decode_ofP_signed {opc : BitVec 8} {mk : Policy → Nat → Instr} {wMax w : Nat}
    (hrow : opcodeMap.lookup opc = some (.pSigned mk)) (hd : Desc.wf wMax ⟨w, true⟩ = true) (pol : Policy) :
    decode wMax (Fields.ofP opc pol ⟨w, true⟩).toWord = .ok (mk pol w) := by
  rw [decode_toWord (row := .pSigned mk) wMax hrow]
  have hdesc := fields_desc hd opc pol.bits false 0#12
  simp [Row.build, Fields.ofP, (policy_field pol).1, hdesc]

theorem decode_ofD {opc : BitVec 8} {mk : Desc → Instr} {wMax : Nat} {d : Desc}
    (hrow : opcodeMap.lookup opc = some (.d mk)) (hd : d.wf wMax = true) :
    decode wMax (Fields.ofD opc d).toWord = .ok (mk d) := by
  rw [decode_toWord (row := .d mk) wMax hrow]
  simp [Row.build, Fields.ofD, fields_desc hd]

theorem decode_ofD_even {opc : BitVec 8} {mk : Desc → Instr} {wMax : Nat} {d : Desc}
    (hrow : opcodeMap.lookup opc = some (.dEven mk)) (hd : (d.wf wMax && d.width % 2 == 0) = true) :
    decode wMax (Fields.ofD opc d).toWord = .ok (mk d) := by
  obtain ⟨hwf, heven⟩ := Bool.and_eq_true_iff.mp hd
  rw [decode_toWord (row := .dEven mk) wMax hrow]
  simp [Row.build, Fields.ofD, fields_desc hwf, eq_of_beq heven]

theorem decode_ofE {opc : BitVec 8} {mk : Desc → Bool → Instr} {wMax : Nat} {d : Desc}
    (hrow : opcodeMap.lookup opc = some (.e mk)) (hd : d.wf wMax = true) (unchecked : Bool) :
    decode wMax (Fields.ofE opc d unchecked).toWord = .ok (mk d unchecked) := by
  rw [decode_toWord (row := .e mk) wMax hrow]
  simp [Row.build, Fields.ofE, fields_desc hd]

theorem decode_ofC {opc : BitVec 8} {mk : BitVec 12 → Instr} {legal : BitVec 12 → Bool} {wMax : Nat} {imm : BitVec 12}
    (hrow : opcodeMap.lookup opc = some (.c mk legal)) (himm : legal imm = true) :
    decode wMax (Fields.ofC opc imm).toWord = .ok (mk imm) := by
  rw [decode_toWord (row := .c mk legal) wMax hrow]
  simp [Row.build, Fields.ofC, himm]

/-- A well-formed instruction's word decodes to it, under every value of WMAX: the encoder writes the opcode of the
instruction's own row of R88. -/
theorem decode_encode {wMax : Nat} {i : Instr} (h : i.wf wMax = true) : decode wMax (encode i) = .ok i := by
  cases i with
  | csrr imm | csrw imm => exact decode_ofC rfl h
  | fit pol d | add pol d | sub pol d | mul pol d | pow pol d | npow2 pol d | nmult pol d | shl pol d =>
    exact decode_ofP rfl h pol
  | neg pol w => exact decode_ofP_signed rfl h pol
  | nthbit d u | setnth d u | tognth d u | dchunk d u | dslice d u | drepl d u => exact decode_ofE rfl h u
  | hilo d | fromhilo d => exact decode_ofD_even rfl h
  | bits d | cnt1 d | cnt0 d | clo d | clz d | cto d | ctz d | drotl d | drotr d | dsext d | sqrt d | log d | log2 d
  | log10 d | midpt d | clamp d | rem d | mod d | cmplt d | cmple d | cmpgt d | cmpge d | and d | or d | xor d | not d
  | oshl d | oshr d | oshru d => exact decode_ofD rfl h
  | _ => exact decode_ofZ rfl

/-- The host's numbering of a command word names that word (R91). -/
theorem tableWord_toNat (x : CommandWord) : tableWord 32 x.toNat = some x := by
  have hlt : x.toNat % 2 ^ 32 = x.toNat := Nat.mod_eq_of_lt x.isLt
  simp only [tableWord, hlt, x.isLt, if_true, BitVec.ofNat_toNat, BitVec.setWidth_eq]

end Sys2Proof.Laws

/-! # What a command keeps and what it sees (R35, R40, R43, R45, R49, R50, R261) -/

namespace Sys2Proof.Machine.Laws

open Sys2Proof.Safety Sys2Proof.Laws

/-! ## A placed word -/

/-- A command of that word, placed in front with the ports as they stand, is run on the very state it was placed in. -/
theorem step_withFetchWord {s : State} {x : CommandWord} (h : Command.presentable s.params ⟨x, s.ports⟩ = true) :
    step (s.withFetchWord 32 x.toNat) = runWord x s := by
  simp only [State.withFetchWord, tableWord_toNat, State.lineUp_some, step, takeInput, h, if_true, State.present_self]

theorem runWord_of_decode {x : CommandWord} {s : State} {i : Instr} (h : decode s.params.wMax x = .ok i) :
    runWord x s = exec i s := by
  simp only [runWord, h]

/-! ## CSR reads (R260) -/

theorem exec_csrr_dbgctl (s : State) : exec (.csrr 0x000#12) s = answer s (.value s.dbgctl) := rfl

theorem exec_csrr_pbstat (s : State) : exec (.csrr 0x001#12) s = answer s (.value s.pbstat) := rfl

/-! ## What `Writes` leaves unchanged -/

theorem writes_inputs {s u : State} {i : Instr} (h : Writes s i u) : SameInputs s u := by
  cases h <;> exact ⟨rfl, rfl⟩

theorem writes_params {s u : State} {i : Instr} (h : Writes s i u) : u.params = s.params := by
  cases h <;> rfl

theorem writes_assertEn {s u : State} {i : Instr} (h : Writes s i u) :
    u.assertEn = s.assertEn ∨ ∃ imm, i = .csrw imm := by
  cases h with
  | control imm => exact .inr ⟨imm, rfl⟩
  | _ => exact .inl rfl

theorem writes_parts {s u : State} {i : Instr} (h : Writes s i u) :
    u.parts = s.parts ∨ i = .pbnew ∨ i = .pbfix ∨ i = .pbvar := by
  cases h with
  | fresh => exact .inr (.inl rfl)
  | fixed => exact .inr (.inr (.inl rfl))
  | var => exact .inr (.inr (.inr rfl))
  | _ => exact .inl rfl

theorem writes_phase {s u : State} {i : Instr} (h : Writes s i u) : u.phase = s.phase ∨ i = .pbnew ∨ i = .pbbuild := by
  cases h with
  | fresh => exact .inr (.inl rfl)
  | pattern => exact .inr (.inr rfl)
  | _ => exact .inl rfl

theorem writes_pt {s u : State} {i : Instr} (h : Writes s i u) : u.pt = s.pt ∨ i = .pbbuild := by
  cases h with
  | pattern => exact .inr rfl
  | _ => exact .inl rfl

theorem writes_gt {s u : State} {i : Instr} (h : Writes s i u) : u.gt = s.gt ∨ i = .pgmake := by
  cases h with
  | group => exact .inr rfl
  | _ => exact .inl rfl

/-- The next state after an instruction is what it writes, with the response on top: the unit and the inputs are those
that it has written. -/
theorem exec_next_writes {s t : State} {i : Instr} (h : exec i s = .next t) :
    ∃ u, Writes s i u ∧ SameUnit u t ∧ SameInputs u t := by
  obtain ⟨u, a, hexec, hwrites, -⟩ := exec_writes i s
  obtain rfl : u.answered a = t := Host.Outcome.next.inj (hexec.symm.trans h)
  exact ⟨u, hwrites, answered_frame u a⟩

/-! ## Valid slots -/

/-- A write to an invalid slot keeps the record of every valid one (R43, R45). -/
theorem recordAt_slotPut_of_free {α : Type} {table : Table α} {k j : Nat} {r q : α} (hfree : slotGet table k = none)
    (hj : recordAt table j = some q) : recordAt (slotPut table k r) j = some q := by
  have hne : j ≠ k := by
    rintro rfl
    rw [← slotGet_eq, hfree] at hj
    cases hj
  rw [writtenAt_slotPut table k r j, if_neg hne, hj]

theorem writes_keeps_patterns {s u : State} {i : Instr} (h : Writes s i u) {m : Nat} {p : Pattern}
    (hm : recordAt s.pt m = some p) : recordAt u.pt m = some p := by
  cases h with
  | pattern k _ _ _ hfree => exact recordAt_slotPut_of_free hfree hm
  | _ => exact hm

theorem writes_keeps_groups {s u : State} {i : Instr} (h : Writes s i u) {g : Nat} {r : GroupRecord}
    (hg : recordAt s.gt g = some r) : recordAt u.gt g = some r := by
  cases h with
  | group k _ _ _ _ _ _ _ hfree => exact recordAt_slotPut_of_free hfree hg
  | _ => exact hg

end Sys2Proof.Machine.Laws

namespace Sys2Proof.Proofs

open Sys2Proof.Machine Sys2Proof.Machine.Laws Sys2Proof.Safety Sys2Proof.Laws

/-- Settles O7: the placed word is taken first and decodes to its instruction. -/
theorem stepRunsPlacedWord : Obligations.StepRunsPlacedWord := by
  intro s i hwf hpresentable
  rw [step_withFetchWord hpresentable, runWord_of_decode (decode_encode hwf)]

/-- Settles O9: the fields are those of `State.atReset`; both registers are read by CSRR, with no part in the builder. -/
theorem resetState : Obligations.ResetState := by
  intro p
  have hdbgctl : (State.atReset p).dbgctl = 1 := rfl
  have hpbstat : (State.atReset p).pbstat = 0 := rfl
  refine ⟨rfl, rfl, rfl, rfl, fun _ => rfl, fun _ => rfl, ?_, ?_⟩
  · rw [exec_csrr_dbgctl, hdbgctl]
    exact ends_answer _ _
  · rw [exec_csrr_pbstat, hpbstat]
    exact ends_answer _ _

/-- Settles O11: answering leaves the unit and the inputs as they were written, and `Writes` says by which command. -/
theorem unitFrame : Obligations.UnitFrame := by
  intro i s t h
  obtain ⟨u, hw, ⟨hparams, hassertEn, hphase, hparts, hpt, hgt⟩, hports, hpending⟩ := exec_next_writes h
  rw [SameInputs, hports, hpending, hparams, hassertEn, hparts, hphase, hpt, hgt]
  exact ⟨writes_inputs hw, writes_params hw, writes_assertEn hw, writes_parts hw, writes_phase hw, writes_pt hw,
    writes_gt hw⟩

/-- Settles O16: PBBUILD and PGMAKE write to an invalid slot, and no other command writes to a table. -/
theorem validSlotsKept : Obligations.ValidSlotsKept := by
  intro i s t h
  obtain ⟨u, hw, ⟨-, -, -, -, hpt, hgt⟩, -⟩ := exec_next_writes h
  rw [hpt, hgt]
  exact ⟨fun _ _ => writes_keeps_patterns hw, fun _ _ => writes_keeps_groups hw⟩

end Sys2Proof.Proofs

/-! # What sees ASSERT_EN (R35, R261) -/

namespace Sys2Proof.Machine

/-- The state with `ASSERT_EN` at `en`, everything else as it is. -/
def State.withAssertEn (s : State) (en : Bool) : State := { s with assertEn := en }

@[simp] theorem State.withAssertEn_assertEn (s : State) (en : Bool) : (s.withAssertEn en).assertEn = en := rfl
@[simp] theorem State.withAssertEn_params (s : State) (en : Bool) : (s.withAssertEn en).params = s.params := rfl
@[simp] theorem State.withAssertEn_phase (s : State) (en : Bool) : (s.withAssertEn en).phase = s.phase := rfl
@[simp] theorem State.withAssertEn_parts (s : State) (en : Bool) : (s.withAssertEn en).parts = s.parts := rfl
@[simp] theorem State.withAssertEn_pt (s : State) (en : Bool) : (s.withAssertEn en).pt = s.pt := rfl
@[simp] theorem State.withAssertEn_gt (s : State) (en : Bool) : (s.withAssertEn en).gt = s.gt := rfl
@[simp] theorem State.withAssertEn_ports (s : State) (en : Bool) : (s.withAssertEn en).ports = s.ports := rfl
@[simp] theorem State.withAssertEn_pending (s : State) (en : Bool) : (s.withAssertEn en).pending = s.pending := rfl
@[simp] theorem State.withAssertEn_response (s : State) (en : Bool) : (s.withAssertEn en).response = s.response := rfl
@[simp] theorem State.withAssertEn_freeCount (s : State) (en : Bool) : (s.withAssertEn en).freeCount = s.freeCount := rfl
@[simp] theorem State.withAssertEn_A (s : State) (en : Bool) : (s.withAssertEn en).A = s.A := rfl

end Sys2Proof.Machine

namespace Sys2Proof.Machine.Laws

open Sys2Proof.Safety

/-! ## The operations that take the whole state -/

@[simp] theorem readPattern_withAssertEn (s : State) (en : Bool) (x : Int) :
    (s.withAssertEn en).readPattern x = s.readPattern x := rfl

@[simp] theorem checkMembers_withAssertEn (s : State) (en : Bool) (xs : List Int) :
    (s.withAssertEn en).checkMembers xs = s.checkMembers xs := by
  induction xs with
  | nil => rfl
  | cons x xs ih => simp only [State.checkMembers, readPattern_withAssertEn, ih]

@[simp] theorem groupOf_withAssertEn (s : State) (en : Bool) (given : List Nat) :
    (s.withAssertEn en).groupOf given = s.groupOf given := rfl

@[simp] theorem firstMatch_withAssertEn (s : State) (en : Bool) (cand : PatWord) (ms : List Nat) (j : Nat) :
    (s.withAssertEn en).firstMatch cand ms j = s.firstMatch cand ms j := by
  induction ms generalizing j with
  | nil => rfl
  | cons m ms ih => simp only [State.firstMatch, State.withAssertEn_pt, ih]

/-- Of the policies only the checked one looks at ASSERT_EN (R150). -/
theorem applyPolicy_of_ne_checked {pol : Policy} (h : pol ≠ .checked) (en en' : Bool) (d : Desc) (e : Int) :
    applyPolicy en pol d e = applyPolicy en' pol d e := by
  cases pol with
  | checked => exact absurd rfl h
  | _ => rfl

/-- Every answer but the unspecified one is written in the same way whatever ASSERT_EN is. -/
theorem answered_withAssertEn {a : Answer} (h : a ≠ .unspecified) (u : State) (en : Bool) :
    (u.withAssertEn en).answered a = (u.answered a).withAssertEn en := by
  cases a with
  | unspecified => exact absurd rfl h
  | _ => rfl

/-! ## Commands that do not see ASSERT_EN -/

/-- Of two outcomes that start in `s` and in `s` with ASSERT_EN at `en`: the same is written to the unit and the same
is answered. -/
def AnswersAlike (s : State) (en : Bool) (o o' : Result) : Prop :=
  ∃ u a, u.freeCount = s.freeCount ∧ o = answer u a ∧ o' = answer (u.withAssertEn en) a

theorem answersAlike_answer (s : State) (en : Bool) (a : Answer) :
    AnswersAlike s en (answer s a) (answer (s.withAssertEn en) a) := ⟨s, a, rfl, rfl, rfl⟩

theorem answersAlike_of_eq {s : State} {en : Bool} {a a' : Answer} (h : a' = a) :
    AnswersAlike s en (answer s a) (answer (s.withAssertEn en) a') := h ▸ answersAlike_answer s en a

theorem answersAlike_ite {s : State} {en : Bool} {c : Prop} [Decidable c] {o₁ o₁' o₂ o₂' : Result}
    (h₁ : AnswersAlike s en o₁ o₁') (h₂ : AnswersAlike s en o₂ o₂') :
    AnswersAlike s en (if c then o₁ else o₂) (if c then o₁' else o₂') := by
  split
  · exact h₁
  · exact h₂

theorem answersAlike_appendAnswer (s : State) (en : Bool) (p : BitPart) :
    AnswersAlike s en (appendAnswer s p) (appendAnswer (s.withAssertEn en) p) := ⟨s.appendPart p, _, rfl, rfl, rfl⟩

/-- Outcomes that are alike and draw no free response leave states that differ in ASSERT_EN alone. -/
theorem next_of_answersAlike {s t : State} {en : Bool} {o' : Result} (h : AnswersAlike s en (.next t) o')
    (hdet : Determined s t) : o' = .next (t.withAssertEn en) := by
  obtain ⟨u, a, hcount, ht, rfl⟩ := h
  obtain rfl : t = u.answered a := Host.Outcome.next.inj ht
  have hspecified : a ≠ .unspecified := by
    rintro rfl
    exact Nat.succ_ne_self _ (hdet.trans hcount.symm)
  rw [answer_next, answered_withAssertEn hspecified]

theorem answersAlike_pbfix (s : State) (en : Bool) : AnswersAlike s en (execPbfix s) (execPbfix (s.withAssertEn en)) :=
  answersAlike_ite (answersAlike_answer ..) <| answersAlike_ite (answersAlike_answer ..) <|
    answersAlike_ite (answersAlike_answer ..) (answersAlike_appendAnswer ..)

theorem answersAlike_pbvar (s : State) (en : Bool) : AnswersAlike s en (execPbvar s) (execPbvar (s.withAssertEn en)) :=
  answersAlike_ite (answersAlike_answer ..) <| answersAlike_ite (answersAlike_answer ..) <|
    answersAlike_ite (answersAlike_answer ..) (answersAlike_appendAnswer ..)

theorem answersAlike_pbbuild (s : State) (en : Bool) :
    AnswersAlike s en (execPbbuild s) (execPbbuild (s.withAssertEn en)) := by
  unfold execPbbuild
  refine answersAlike_ite (answersAlike_answer ..) ?_
  simp only [State.withAssertEn_params, State.withAssertEn_A]
  cases slotOf s.params.nPat s.A with
  | none => exact answersAlike_answer ..
  | some m =>
    exact answersAlike_ite (answersAlike_answer ..) <| answersAlike_ite (answersAlike_answer ..)
      ⟨s.storePattern m (compile s.parts s.ports.sIn), _, rfl, rfl, rfl⟩

theorem answersAlike_pgmake (s : State) (en : Bool) :
    AnswersAlike s en (execPgmake s) (execPgmake (s.withAssertEn en)) := by
  unfold execPgmake
  simp only [State.withAssertEn_params, State.withAssertEn_A, State.withAssertEn_ports, State.withAssertEn_gt,
    checkMembers_withAssertEn, groupOf_withAssertEn]
  rcases slotOf s.params.nGrp s.A with _ | g
  · exact answersAlike_answer ..
  · rcases s.ports.v with _ | _ | ⟨x, xs⟩
    · exact answersAlike_answer ..
    · exact answersAlike_answer ..
    · refine answersAlike_ite (answersAlike_answer ..) ?_
      rcases s.checkMembers (x :: xs) with k | ms
      · exact answersAlike_answer ..
      · exact answersAlike_ite (answersAlike_answer ..) ⟨s.storeGroup g ⟨s.groupOf ms⟩, _, rfl, rfl, rfl⟩

/-- PGMATCH walks the members of a group in the pattern table, which ASSERT_EN is no part of. -/
theorem answersAlike_pgmatch (s : State) (en : Bool) :
    AnswersAlike s en (execPgmatch s) (execPgmatch (s.withAssertEn en)) := by
  refine answersAlike_of_eq ?_
  simp only [firstMatch_withAssertEn]
  rfl

/-- The instructions whose meaning neither reads ASSERT_EN (R150, R212 c, R260) nor writes it (R261). -/
def IgnoresAssertEn : Instr → Prop
  | .fit pol _ | .add pol _ | .sub pol _ | .mul pol _ | .pow pol _ | .neg pol _ | .npow2 pol _ | .nmult pol _
  | .shl pol _ => pol ≠ .checked
  | .sqrt _ | .log _ | .log2 _ | .log10 _ | .csrr _ | .csrw _ => False
  | _ => True

/-- An instruction that ignores ASSERT_EN does the same whatever it is: a policy command is under another policy than
the checked one, and the answer of every command without a lemma of its own is made of fields that `withAssertEn` leaves
alone. -/
theorem answersAlike_exec {i : Instr} (h : IgnoresAssertEn i) (s : State) (en : Bool) :
    AnswersAlike s en (exec i s) (exec i (s.withAssertEn en)) := by
  cases i with
  | csrr | csrw | sqrt | log | log2 | log10 => exact absurd h id
  | fit pol | add pol | sub pol | mul pol | pow pol | neg pol | npow2 pol | nmult pol | shl pol =>
    refine answersAlike_of_eq ?_
    rw [applyPolicy_of_ne_checked h (s.withAssertEn en).assertEn s.assertEn]
    rfl
  | pbnew => exact ⟨s.newBuilder, _, rfl, rfl, rfl⟩
  | pbfix => exact answersAlike_pbfix s en
  | pbvar => exact answersAlike_pbvar s en
  | pbbuild => exact answersAlike_pbbuild s en
  | pgmake => exact answersAlike_pgmake s en
  | pgmatch => exact answersAlike_pgmatch s en
  | _ => exact answersAlike_answer s en _

end Sys2Proof.Machine.Laws

namespace Sys2Proof.Proofs

open Sys2Proof.Machine Sys2Proof.Machine.Laws Sys2Proof.Safety

/-- Settles O20: the commands of the statement ignore ASSERT_EN, and a command that ignores it and draws no free response
ends in states that differ in ASSERT_EN alone. -/
theorem assertEnableReaders : Obligations.AssertEnableReaders := by
  intro i s t en hi hexec hdet
  have hignores : IgnoresAssertEn i := hi
  have halike := answersAlike_exec hignores s en
  rw [hexec] at halike
  exact next_of_answersAlike halike hdet

end Sys2Proof.Proofs

/-! # Presenting a command, and reading twice (R66, R67, R80, R87) -/

namespace Sys2Proof.Machine

/-- The state with that on the response ports, everything else as it is. -/
def State.withResponse (s : State) (r : Option Response) : State := { s with response := r }

end Sys2Proof.Machine

namespace Sys2Proof.Machine.Laws

open Sys2Proof.Safety

/-! ## The next command -/

/-- A command that the ports can carry, lined up first, is presented and its word run (R66, R87). -/
theorem step_of_pending_command {s : State} {c : Command} {rest : List Input} (hpending : s.pending = .command c :: rest)
    (hc : c.presentable s.params = true) : step s = runWord c.word (s.present c rest) := by
  simp only [step, takeInput, hpending, hc, if_true]

/-! ## What sees the response -/

/-- Every answer but the unspecified one overwrites the response and writes nothing else. -/
theorem answered_eq_withResponse {a : Answer} (h : a ≠ .unspecified) (s : State) :
    s.answered a = s.withResponse (s.answered a).response := by
  cases a with
  | unspecified => exact absurd rfl h
  | _ => rfl

/-- Every answer but the unspecified one leaves the same state whatever response stood before. -/
theorem answered_withResponse {a : Answer} (h : a ≠ .unspecified) (s : State) (r : Option Response) :
    (s.withResponse r).answered a = s.answered a := by
  cases a with
  | unspecified => exact absurd rfl h
  | _ => rfl

/-- The scan of PGMATCH sees the response as little as any other field but the pattern table. -/
theorem firstMatch_withResponse (s : State) (r : Option Response) (cand : PatWord) (ms : List Nat) (j : Nat) :
    (s.withResponse r).firstMatch cand ms j = s.firstMatch cand ms j := by
  have hpt : (s.withResponse r).pt = s.pt := rfl
  induction ms generalizing j with
  | nil => rfl
  | cons m ms ih => simp only [State.firstMatch, hpt, ih]

/-! ## Commands that only answer -/

/-- Started in `s`, whatever response stands there, the instruction writes nothing and gives one and the same answer,
which is not the unspecified one. -/
def OnlyAnswers (i : Instr) (s : State) : Prop :=
  ∃ a, a ≠ .unspecified ∧ ∀ r, exec i (s.withResponse r) = answer (s.withResponse r) a

/-- After an instruction that only answers the unit is as it was, and the instruction once more ends in the same
state. -/
theorem exec_again_of_onlyAnswers {i : Instr} {s t : State} (h : OnlyAnswers i s) (ht : exec i s = .next t) :
    SameUnit s t ∧ exec i t = .next t := by
  obtain ⟨a, hspecified, hexec⟩ := h
  obtain rfl : s.answered a = t := Host.Outcome.next.inj ((hexec s.response).symm.trans ht)
  refine ⟨(answered_frame s a).1, ?_⟩
  calc exec i (s.answered a)
      = exec i (s.withResponse (s.answered a).response) := by rw [← answered_eq_withResponse hspecified]
    _ = .next ((s.withResponse (s.answered a).response).answered a) := hexec _
    _ = .next (s.answered a) := by rw [answered_withResponse hspecified]

/-- A command that reads one pattern slot has a specified answer when it makes one of every record (R237 to R240). -/
theorem onPattern_specified {s : State} {x : Int} {f : Pattern → Answer} (h : ∀ p, f p ≠ .unspecified) :
    onPattern s x f ≠ .unspecified := by
  unfold onPattern
  split
  · exact Answer.noConfusion
  · exact h _

/-- An instruction that ends with an answer made of the state only answers, when the answer is a specified one and is
not made of the response. -/
theorem onlyAnswers_of_answer {i : Instr} {s : State} {f : State → Answer} (hexec : ∀ u, exec i u = answer u (f u))
    (hresponse : ∀ r, f (s.withResponse r) = f s) (hspecified : f s ≠ .unspecified) : OnlyAnswers i s :=
  ⟨f s, hspecified, fun r => by rw [hexec, hresponse]⟩

/-- CSRR answers from the builder or ASSERT_EN, or with ILLEGAL (R260). -/
theorem onlyAnswers_csrr (imm : BitVec 12) (s : State) : OnlyAnswers (.csrr imm) s := by
  refine onlyAnswers_of_answer (fun _ => rfl) (fun _ => rfl) ?_
  split
  · exact Answer.noConfusion
  · split <;> exact Answer.noConfusion

theorem onlyAnswers_ptmatch (s : State) : OnlyAnswers .ptmatch s :=
  onlyAnswers_of_answer (fun _ => rfl) (fun _ => rfl) (onPattern_specified fun _ => Answer.noConfusion)

theorem onlyAnswers_ptcapt (s : State) : OnlyAnswers .ptcapt s :=
  onlyAnswers_of_answer (fun _ => rfl) (fun _ => rfl) (onPattern_specified fun _ => Answer.noConfusion)

theorem onlyAnswers_ptinfo (s : State) : OnlyAnswers .ptinfo s :=
  onlyAnswers_of_answer (fun _ => rfl) (fun _ => rfl) (onPattern_specified fun _ => Answer.noConfusion)

/-- PTCSPEC raises RANGE for an index outside the captures and shows the capture otherwise (R240). -/
theorem onlyAnswers_ptcspec (s : State) : OnlyAnswers .ptcspec s := by
  refine onlyAnswers_of_answer (fun _ => rfl) (fun _ => rfl) (onPattern_specified fun p => ?_)
  split
  · exact Answer.noConfusion
  · split <;> exact Answer.noConfusion

/-- PTCMP ends with a fault of one of the slots or compares the two records (R241). -/
theorem onlyAnswers_ptcmp (s : State) : OnlyAnswers .ptcmp s := by
  refine onlyAnswers_of_answer (fun _ => rfl) (fun _ => rfl) ?_
  split <;> exact Answer.noConfusion

/-- PGMATCH ends with a fault of the slot, without a value or with the first member that matches (R243). -/
theorem onlyAnswers_pgmatch (s : State) : OnlyAnswers .pgmatch s := by
  refine onlyAnswers_of_answer (fun _ => rfl) (fun r => ?_) ?_
  · simp only [firstMatch_withResponse]
    rfl
  · split
    · exact Answer.noConfusion
    · split <;> exact Answer.noConfusion

/-- PGINFO ends with a fault of the slot or shows the members (R244). -/
theorem onlyAnswers_pginfo (s : State) : OnlyAnswers .pginfo s := by
  refine onlyAnswers_of_answer (fun _ => rfl) (fun _ => rfl) ?_
  split <;> exact Answer.noConfusion

end Sys2Proof.Machine.Laws

namespace Sys2Proof.Proofs

open Sys2Proof.Machine Sys2Proof.Machine.Laws

/-- Settles O6: the command is presented, and its word runs the instruction that it decodes to. -/
theorem stepRunsDecodedCommand : Obligations.StepRunsDecodedCommand := by
  intro s c rest i hpending hpresentable hdecode
  calc step s
      = runWord c.word (s.present c rest) := step_of_pending_command hpending hpresentable
    _ = exec i (s.present c rest) := runWord_of_decode hdecode

/-- Settles O19: each of the eight commands that read a table or a CSR only answers, and does so again. -/
theorem readsIdempotent : Obligations.ReadsIdempotent := by
  intro i s t hread hexec
  refine exec_again_of_onlyAnswers ?_ hexec
  cases i with
  | csrr imm => exact onlyAnswers_csrr imm s
  | ptmatch => exact onlyAnswers_ptmatch s
  | ptcapt => exact onlyAnswers_ptcapt s
  | ptinfo => exact onlyAnswers_ptinfo s
  | ptcspec => exact onlyAnswers_ptcspec s
  | ptcmp => exact onlyAnswers_ptcmp s
  | pgmatch => exact onlyAnswers_pgmatch s
  | pginfo => exact onlyAnswers_pginfo s
  | _ => exact absurd hread id

end Sys2Proof.Proofs

/-! # Encoding and decoding are inverse, and which words decode (R81, R83, R87, R88, R89) -/

namespace Sys2Proof.Laws

open Sys2Proof.Safety

/-! ## What each format builds (R83, R89 b to g)

A row of a format builds an instruction only from fields that the encoder lays out for that format. -/

theorem ite_error_eq_ok {ε α : Type} {c : Prop} [Decidable c] {o : Except ε α} {e : ε} {a : α} :
    (if c then o else .error e) = .ok a ↔ c ∧ o = .ok a := by
  split <;> simp [*]

theorem fields_eq {f : Fields} {opc : BitVec 8} {pol : BitVec 3} {s u : Bool} {w : BitVec 7} {imm : BitVec 12}
    (hopc : f.opc = opc) (hpol : f.pol = pol) (hs : f.s = s) (hu : f.u = u) (hw : f.w = w) (himm : f.imm = imm) :
    f = ⟨opc, pol, s, u, w, imm⟩ := by
  rw [← hopc, ← hpol, ← hs, ← hu, ← hw, ← himm]

/-- The descriptor that the fields `S` and `W` give is legal, and they are its own fields (R89 d). -/
theorem desc_eq_ok {wMax : Nat} {f : Fields} {d : Desc} (h : f.desc wMax = .ok d) :
    d.wf wMax = true ∧ f.s = d.signed ∧ f.w = BitVec.ofNat 7 d.width := by
  obtain ⟨hwf, hd⟩ := ite_error_eq_ok.mp h
  cases hd
  exact ⟨hwf, rfl, by simp⟩

theorem build_z_eq_ok {wMax : Nat} {f : Fields} {i j : Instr} (h : (Row.z j).build wMax f = .ok i) :
    f = .ofZ f.opc ∧ i = j := by
  obtain ⟨⟨hpol, hs, hu, hw, himm⟩, hi⟩ := ite_error_eq_ok.mp h
  cases hi
  exact ⟨fields_eq rfl hpol hs hu hw himm, rfl⟩

theorem build_p_eq_ok {wMax : Nat} {f : Fields} {i : Instr} {mk : Policy → Desc → Instr}
    (h : (Row.p mk).build wMax f = .ok i) :
    ∃ pol d, d.wf wMax = true ∧ f = .ofP f.opc pol d ∧ i = mk pol d := by
  obtain ⟨⟨hu, himm⟩, hi⟩ := ite_error_eq_ok.mp h
  split at hi
  · next pol d hpol hdesc =>
    obtain ⟨hwf, hs, hw⟩ := desc_eq_ok hdesc
    cases hi
    exact ⟨pol, d, hwf, fields_eq rfl (policy_ofBits hpol) hs hu hw himm, rfl⟩
  · cases hi
  · cases hi

theorem build_pSigned_eq_ok {wMax : Nat} {f : Fields} {i : Instr} {mk : Policy → Nat → Instr}
    (h : (Row.pSigned mk).build wMax f = .ok i) :
    ∃ pol w, Desc.wf wMax ⟨w, true⟩ = true ∧ f = .ofP f.opc pol ⟨w, true⟩ ∧ i = mk pol w := by
  obtain ⟨⟨hu, himm⟩, hi⟩ := ite_error_eq_ok.mp h
  split at hi
  · next pol d hpol hdesc =>
    obtain ⟨hwf, hs, hw⟩ := desc_eq_ok hdesc
    obtain ⟨hsigned, hi⟩ := ite_error_eq_ok.mp hi
    cases hi
    obtain ⟨w, signed⟩ := d
    obtain rfl : signed = true := hsigned
    exact ⟨pol, w, hwf, fields_eq rfl (policy_ofBits hpol) hs hu hw himm, rfl⟩
  · cases hi
  · cases hi

theorem build_d_eq_ok {wMax : Nat} {f : Fields} {i : Instr} {mk : Desc → Instr}
    (h : (Row.d mk).build wMax f = .ok i) : ∃ d, d.wf wMax = true ∧ f = .ofD f.opc d ∧ i = mk d := by
  obtain ⟨⟨hpol, hu, himm⟩, hi⟩ := ite_error_eq_ok.mp h
  split at hi
  · next d hdesc =>
    obtain ⟨hwf, hs, hw⟩ := desc_eq_ok hdesc
    cases hi
    exact ⟨d, hwf, fields_eq rfl hpol hs hu hw himm, rfl⟩
  · cases hi

/-- A row that wants `W` even builds what the row of format D builds, with an even `W` (R89 g). -/
theorem build_dEven_eq_ok {wMax : Nat} {f : Fields} {i : Instr} {mk : Desc → Instr}
    (h : (Row.dEven mk).build wMax f = .ok i) :
    ∃ d, d.wf wMax = true ∧ d.width % 2 = 0 ∧ f = .ofD f.opc d ∧ i = mk d := by
  obtain ⟨⟨hpol, hu, himm⟩, hi⟩ := ite_error_eq_ok.mp h
  split at hi
  · next d hdesc =>
    obtain ⟨hwf, hs, hw⟩ := desc_eq_ok hdesc
    obtain ⟨heven, hi⟩ := ite_error_eq_ok.mp hi
    cases hi
    exact ⟨d, hwf, heven, fields_eq rfl hpol hs hu hw himm, rfl⟩
  · cases hi

theorem build_e_eq_ok {wMax : Nat} {f : Fields} {i : Instr} {mk : Desc → Bool → Instr}
    (h : (Row.e mk).build wMax f = .ok i) : ∃ d, d.wf wMax = true ∧ f = .ofE f.opc d f.u ∧ i = mk d f.u := by
  obtain ⟨⟨hpol, himm⟩, hi⟩ := ite_error_eq_ok.mp h
  split at hi
  · next d hdesc =>
    obtain ⟨hwf, hs, hw⟩ := desc_eq_ok hdesc
    cases hi
    exact ⟨d, hwf, fields_eq rfl hpol hs rfl hw himm, rfl⟩
  · cases hi

theorem build_c_eq_ok {wMax : Nat} {f : Fields} {i : Instr} {mk : BitVec 12 → Instr} {legal : BitVec 12 → Bool}
    (h : (Row.c mk legal).build wMax f = .ok i) : legal f.imm = true ∧ f = .ofC f.opc f.imm ∧ i = mk f.imm := by
  obtain ⟨⟨hpol, hs, hu, hw⟩, hi⟩ := ite_error_eq_ok.mp h
  obtain ⟨hlegal, hi⟩ := ite_error_eq_ok.mp hi
  cases hi
  exact ⟨hlegal, fields_eq rfl hpol hs hu hw rfl, rfl⟩

/-! ## The rows and the encoder -/

/-- The row makes, of the fields its format uses, the instruction that the encoder writes with that opcode and these
fields, and the instruction is well-formed just when they are legal (R83, R88). -/
def RowAgrees (wMax : Nat) (opc : BitVec 8) : Row → Prop
  | .z i => i.wf wMax = true ∧ i.fields = .ofZ opc
  | .p mk => ∀ pol d, (mk pol d).wf wMax = d.wf wMax ∧ (mk pol d).fields = .ofP opc pol d
  | .pSigned mk => ∀ pol w, (mk pol w).wf wMax = Desc.wf wMax ⟨w, true⟩ ∧ (mk pol w).fields = .ofP opc pol ⟨w, true⟩
  | .d mk => ∀ d, (mk d).wf wMax = d.wf wMax ∧ (mk d).fields = .ofD opc d
  | .dEven mk => ∀ d, (mk d).wf wMax = (d.wf wMax && d.width % 2 == 0) ∧ (mk d).fields = .ofD opc d
  | .e mk => ∀ d u, (mk d u).wf wMax = d.wf wMax ∧ (mk d u).fields = .ofE opc d u
  | .c mk legal => ∀ imm, (mk imm).wf wMax = legal imm ∧ (mk imm).fields = .ofC opc imm

/-- Every row of the opcode map agrees with the encoder. -/
theorem rowAgrees_of_mem {wMax : Nat} : ∀ e ∈ opcodeMap, RowAgrees wMax e.1 e.2 := by
  simp only [opcodeMap, opcodeRows.system, opcodeRows.rawBits, opcodeRows.longHelper, opcodeRows.policyArith,
    opcodeRows.descBits, opcodeRows.descMath, opcodeRows.bitwise, opcodeRows.patternEngine, List.forall_mem_append,
    List.forall_mem_cons, List.not_mem_nil]
  simp [RowAgrees, Instr.wf, Instr.fields]

theorem rowAgrees_of_lookup {opc : BitVec 8} {row : Row} (wMax : Nat) (h : opcodeMap.lookup opc = some row) :
    RowAgrees wMax opc row := by
  obtain ⟨before, after, hmap, -⟩ := List.lookup_eq_some_iff.mp h
  exact rowAgrees_of_mem (opc, row) (hmap ▸ List.mem_append_cons_self)

/-- A row that builds an instruction builds a well-formed one, whose word has all the fields it was built from. -/
theorem build_eq_ok {wMax : Nat} {f : Fields} {row : Row} {i : Instr} (hagrees : RowAgrees wMax f.opc row)
    (h : row.build wMax f = .ok i) : i.wf wMax = true ∧ i.fields = f := by
  cases row with
  | z j =>
    obtain ⟨hf, rfl⟩ := build_z_eq_ok h
    exact ⟨hagrees.1, hagrees.2.trans hf.symm⟩
  | p mk =>
    obtain ⟨pol, d, hd, hf, rfl⟩ := build_p_eq_ok h
    obtain ⟨hwf, hfields⟩ := hagrees pol d
    exact ⟨hwf.trans hd, hfields.trans hf.symm⟩
  | pSigned mk =>
    obtain ⟨pol, w, hd, hf, rfl⟩ := build_pSigned_eq_ok h
    obtain ⟨hwf, hfields⟩ := hagrees pol w
    exact ⟨hwf.trans hd, hfields.trans hf.symm⟩
  | d mk =>
    obtain ⟨d, hd, hf, rfl⟩ := build_d_eq_ok h
    obtain ⟨hwf, hfields⟩ := hagrees d
    exact ⟨hwf.trans hd, hfields.trans hf.symm⟩
  | dEven mk =>
    obtain ⟨d, hd, heven, hf, rfl⟩ := build_dEven_eq_ok h
    obtain ⟨hwf, hfields⟩ := hagrees d
    exact ⟨by simp [hwf, hd, heven], hfields.trans hf.symm⟩
  | e mk =>
    obtain ⟨d, hd, hf, rfl⟩ := build_e_eq_ok h
    obtain ⟨hwf, hfields⟩ := hagrees d f.u
    exact ⟨hwf.trans hd, hfields.trans hf.symm⟩
  | c mk legal =>
    obtain ⟨hlegal, hf, rfl⟩ := build_c_eq_ok h
    obtain ⟨hwf, hfields⟩ := hagrees f.imm
    exact ⟨hwf.trans hlegal, hfields.trans hf.symm⟩

/-- A word that decodes is the word of the instruction it decodes to, which is well-formed. -/
theorem encode_decode {wMax : Nat} {x : CommandWord} {i : Instr} (h : decode wMax x = .ok i) :
    i.wf wMax = true ∧ encode i = x := by
  unfold decode at h
  dsimp only at h
  split at h
  · cases h
  · next row hrow =>
    obtain ⟨hwf, hfields⟩ := build_eq_ok (rowAgrees_of_lookup wMax hrow) h
    exact ⟨hwf, by rw [encode, hfields, toWord_ofWord]⟩

/-- An instruction's word, however it is written, decodes to the instruction. -/
theorem decode_of_encode_eq {wMax : Nat} {x : CommandWord} {i : Instr} (hwf : i.wf wMax = true) (hx : encode i = x) :
    decode wMax x = .ok i := hx ▸ decode_encode hwf

end Sys2Proof.Laws

namespace Sys2Proof.Proofs

open Sys2Proof.Laws

/-- Settles O1: the encoder writes the opcode of the instruction's own row of R88. -/
theorem decodeOfEncode : Obligations.DecodeOfEncode := fun _ _ => decode_encode

/-- Settles O2: the row that the opcode selects builds from all fields of the word, and agrees with the encoder. -/
theorem encodeOfDecode : Obligations.EncodeOfDecode := fun _ _ _ => encode_decode

/-- Settles O3: each legal word is the encoder's word of its instruction; the opcodes 0x00 and 0xFF have no row. -/
theorem specWordsDecode : Obligations.SpecWordsDecode :=
  ⟨decode_of_encode_eq rfl rfl, decode_of_encode_eq rfl rfl, decode_of_encode_eq rfl rfl, decode_of_encode_eq rfl rfl,
    decode_of_encode_eq rfl rfl, decode_of_encode_eq rfl rfl, decode_of_encode_eq rfl rfl, decode_of_encode_eq rfl rfl,
    decode_of_encode_eq rfl rfl, rfl, rfl⟩

end Sys2Proof.Proofs

/-! # The legal words (R89) -/

namespace Sys2Proof.Laws

open Sys2Proof.Safety

/-! ## Legal fields, format by format -/

/-- Fields that the encoder lays out under an opcode of their format, with legal values: what no clause of R89 makes
illegal. -/
inductive LegalFields (wMax : Nat) : Fields → Prop
  | z {opc : BitVec 8} : opc.toNat ∈ zOpcodes → LegalFields wMax (.ofZ opc)
  | p {opc : BitVec 8} (pol : Policy) {d : Desc} : opc.toNat ∈ pOpcodes → d.wf wMax = true →
      (opc.toNat = 0x35 → d.signed = true) → LegalFields wMax (.ofP opc pol d)
  | d {opc : BitVec 8} {d : Desc} : opc.toNat ∈ dOpcodes → d.wf wMax = true →
      (opc.toNat = 0x50 ∨ opc.toNat = 0x51 → d.width % 2 = 0) → LegalFields wMax (.ofD opc d)
  | e {opc : BitVec 8} {d : Desc} (u : Bool) : opc.toNat ∈ eOpcodes → d.wf wMax = true →
      LegalFields wMax (.ofE opc d u)
  | csrr {imm : BitVec 12} : csrReadable imm = true → LegalFields wMax (.ofC 0x01#8 imm)
  | csrw {imm : BitVec 12} : csrWritable imm = true → LegalFields wMax (.ofC 0x02#8 imm)

/-- The encoder lays out legal fields for every well-formed instruction. -/
theorem legalFields_of_wf {wMax : Nat} {i : Instr} (h : i.wf wMax = true) : LegalFields wMax i.fields := by
  cases i with
  | csrr imm => exact .csrr h
  | csrw imm => exact .csrw h
  | fit pol d | add pol d | sub pol d | mul pol d | pow pol d | npow2 pol d | nmult pol d | shl pol d =>
    exact .p pol (by decide) h (by simp)
  | neg pol w => exact .p pol (by decide) h fun _ => rfl
  | nthbit d u | setnth d u | tognth d u | dchunk d u | dslice d u | drepl d u => exact .e u (by decide) h
  | hilo d | fromhilo d =>
    obtain ⟨hwf, heven⟩ := Bool.and_eq_true_iff.mp h
    exact .d (by decide) hwf fun _ => eq_of_beq heven
  | bits d | cnt1 d | cnt0 d | clo d | clz d | cto d | ctz d | drotl d | drotr d | dsext d | sqrt d | log d | log2 d
  | log10 d | midpt d | clamp d | rem d | mod d | cmplt d | cmple d | cmpgt d | cmpge d | and d | or d | xor d | not d
  | oshl d | oshr d | oshru d => exact .d (by decide) h (by simp)
  | _ => exact .z (by decide)

/-! ## The rows of each format's opcodes (R88) -/


theorem lookup_zOpcodes : ∀ n ∈ zOpcodes, ∃ i, opcodeMap.lookup (BitVec.ofNat 8 n) = some (.z i) := by
  simp only [zOpcodes, List.range', List.forall_mem_append, List.forall_mem_cons]
  simp [opcodeMap, opcodeRows.system, opcodeRows.rawBits, opcodeRows.longHelper, opcodeRows.policyArith,
    opcodeRows.descBits, opcodeRows.descMath, opcodeRows.bitwise, opcodeRows.patternEngine, List.lookup]

theorem lookup_pOpcodes : ∀ n ∈ pOpcodes, n ≠ 0x35 → ∃ mk, opcodeMap.lookup (BitVec.ofNat 8 n) = some (.p mk) := by
  simp only [pOpcodes, List.range', List.forall_mem_cons]
  simp [opcodeMap, opcodeRows.system, opcodeRows.rawBits, opcodeRows.longHelper, opcodeRows.policyArith, List.lookup]

theorem lookup_dOpcodes : ∀ n ∈ dOpcodes, ¬ (n = 0x50 ∨ n = 0x51) →
    ∃ mk, opcodeMap.lookup (BitVec.ofNat 8 n) = some (.d mk) := by
  simp only [dOpcodes, List.range', List.forall_mem_append, List.forall_mem_cons]
  simp [opcodeMap, opcodeRows.system, opcodeRows.rawBits, opcodeRows.longHelper, opcodeRows.policyArith,
    opcodeRows.descBits, opcodeRows.descMath, opcodeRows.bitwise, opcodeRows.patternEngine, List.lookup]

theorem lookup_eOpcodes : ∀ n ∈ eOpcodes, ∃ mk, opcodeMap.lookup (BitVec.ofNat 8 n) = some (.e mk) := by
  simp only [eOpcodes, List.forall_mem_cons]
  simp [opcodeMap, opcodeRows.system, opcodeRows.rawBits, opcodeRows.longHelper, opcodeRows.policyArith,
    opcodeRows.descBits, List.lookup]

/-- A word with legal fields decodes: its opcode has a row of its format. -/
theorem decode_of_legalFields {wMax : Nat} {f : Fields} (h : LegalFields wMax f) :
    ∃ i, decode wMax f.toWord = .ok i := by
  cases h with
  | @z opc hopc =>
    obtain ⟨i, hrow⟩ := lookup_zOpcodes _ hopc
    rw [BitVec.ofNat_toNat, BitVec.setWidth_eq] at hrow
    exact ⟨i, decode_ofZ hrow⟩
  | @p opc pol d hopc hd hneg =>
    by_cases h35 : opc.toNat = 0x35
    · obtain ⟨w, signed⟩ := d
      obtain rfl : signed = true := hneg h35
      obtain rfl : opc = 0x35#8 := BitVec.eq_of_toNat_eq h35
      exact ⟨.neg pol w, decode_ofP_signed rfl hd pol⟩
    · obtain ⟨mk, hrow⟩ := lookup_pOpcodes _ hopc h35
      rw [BitVec.ofNat_toNat, BitVec.setWidth_eq] at hrow
      exact ⟨mk pol d, decode_ofP hrow hd pol⟩
  | @d opc d hopc hd heven =>
    by_cases hhalves : opc.toNat = 0x50 ∨ opc.toNat = 0x51
    · have hlegal : (d.wf wMax && d.width % 2 == 0) = true := by simp [hd, heven hhalves]
      rcases hhalves with h50 | h51
      · obtain rfl : opc = 0x50#8 := BitVec.eq_of_toNat_eq h50
        exact ⟨.hilo d, decode_ofD_even rfl hlegal⟩
      · obtain rfl : opc = 0x51#8 := BitVec.eq_of_toNat_eq h51
        exact ⟨.fromhilo d, decode_ofD_even rfl hlegal⟩
    · obtain ⟨mk, hrow⟩ := lookup_dOpcodes _ hopc hhalves
      rw [BitVec.ofNat_toNat, BitVec.setWidth_eq] at hrow
      exact ⟨mk d, decode_ofD hrow hd⟩
  | @e opc d u hopc hd =>
    obtain ⟨mk, hrow⟩ := lookup_eOpcodes _ hopc
    rw [BitVec.ofNat_toNat, BitVec.setWidth_eq] at hrow
    exact ⟨mk d u, decode_ofE hrow hd u⟩
  | csrr himm => exact ⟨_, decode_ofC (mk := .csrr) rfl himm⟩
  | csrw himm => exact ⟨_, decode_ofC (mk := .csrw) rfl himm⟩

/-- A word decodes exactly when its fields are legal. -/
theorem decode_ok_iff_legalFields {wMax : Nat} {x : CommandWord} :
    (∃ i, decode wMax x = .ok i) ↔ LegalFields wMax (Fields.ofWord x) := by
  constructor
  · rintro ⟨i, hi⟩
    obtain ⟨hwf, rfl⟩ := encode_decode hi
    rw [encode, ofWord_toWord]
    exact legalFields_of_wf hwf
  · intro h
    rw [← toWord_ofWord x]
    exact decode_of_legalFields h

/-! ## Legal fields and the clauses of R89 -/

theorem csrReadable_iff {imm : BitVec 12} : csrReadable imm = true ↔ imm.toNat ≤ 1 := by
  simp only [csrReadable, Bool.or_eq_true, beq_iff_eq]
  bv_omega

theorem csrWritable_iff {imm : BitVec 12} : csrWritable imm = true ↔ imm.toNat = 0 := by
  simp only [csrWritable, beq_iff_eq]
  bv_omega

theorem exists_policy_of_le : ∀ b : BitVec 3, b.toNat ≤ 4 → ∃ pol : Policy, b = pol.bits
  | 0#3, _ => ⟨.checked, rfl⟩
  | 1#3, _ => ⟨.unchecked, rfl⟩
  | 2#3, _ => ⟨.attempt, rfl⟩
  | 3#3, _ => ⟨.wrapped, rfl⟩
  | 4#3, _ => ⟨.clamped, rfl⟩

theorem policy_code_le (pol : Policy) : pol.bits.toNat ≤ 4 := by
  cases pol <;> decide

/-- The width of a legal descriptor, as the field `W` holds it (R89 d). -/
theorem width_bounds {wMax : Nat} {d : Desc} (h : d.wf wMax = true) :
    1 ≤ (BitVec.ofNat 7 d.width).toNat ∧ (BitVec.ofNat 7 d.width).toNat ≤ wMax := by
  rw [width_field h]
  obtain ⟨hpos, hmax, -⟩ := of_decide_eq_true h
  exact ⟨hpos, hmax⟩

/-- The descriptor of a field `W` inside its bounds is legal (R89 d). -/
theorem wf_of_width_bounds {wMax : Nat} {w : BitVec 7} (hpos : 1 ≤ w.toNat) (hmax : w.toNat ≤ wMax) (signed : Bool) :
    Desc.wf wMax ⟨w.toNat, signed⟩ = true := decide_eq_true ⟨hpos, hmax, w.isLt⟩

/-- Legal fields break no clause of R89, as the numbers that the word's fields are. -/
theorem legalWord_of_legalFields {wMax : Nat} {x : CommandWord} (h : LegalFields wMax (Fields.ofWord x)) :
    LegalWord wMax x := by
  obtain ⟨hopc, hpol, hs, hu, hw, himm⟩ := word_fields x
  unfold LegalWord
  simp only [← hopc, ← hpol, ← hs, ← hu, ← hw, ← himm]
  generalize Fields.ofWord x = f at h
  cases h with
  | z hz => exact .inl ⟨hz, rfl, rfl, rfl, rfl, rfl⟩
  | p pol hp hd hneg =>
    obtain ⟨hpos, hmax⟩ := width_bounds hd
    exact .inr (.inl ⟨hp, policy_code_le pol, rfl, hpos, hmax, rfl, fun h35 => congrArg Bool.toNat (hneg h35)⟩)
  | d hopc hd heven =>
    obtain ⟨hpos, hmax⟩ := width_bounds hd
    exact .inr (.inr (.inl ⟨hopc, rfl, rfl, hpos, hmax, rfl, fun hhalves => (width_field hd).symm ▸ heven hhalves⟩))
  | e u he hd =>
    obtain ⟨hpos, hmax⟩ := width_bounds hd
    exact .inr (.inr (.inr (.inl ⟨he, rfl, hpos, hmax, rfl⟩)))
  | csrr himm => exact .inr (.inr (.inr (.inr (.inl ⟨rfl, rfl, rfl, rfl, rfl, csrReadable_iff.mp himm⟩))))
  | csrw himm => exact .inr (.inr (.inr (.inr (.inr ⟨rfl, rfl, rfl, rfl, rfl, csrWritable_iff.mp himm⟩))))

/-- A word that breaks no clause of R89 has legal fields. -/
theorem legalFields_of_legalWord {wMax : Nat} {x : CommandWord} (h : LegalWord wMax x) :
    LegalFields wMax (Fields.ofWord x) := by
  obtain ⟨hopc, hpol, hs, hu, hw, himm⟩ := word_fields x
  unfold LegalWord at h
  simp only [← hopc, ← hpol, ← hs, ← hu, ← hw, ← himm] at h
  generalize Fields.ofWord x = f at h ⊢
  have hzero {n : Nat} {b : BitVec n} (hb : b.toNat = 0) : b = 0#n := BitVec.eq_of_toNat_eq (by simp [hb])
  rcases h with ⟨hz, hpol, hs, hu, hw, himm⟩ | ⟨hp, hpol, hu, hpos, hmax, himm, hneg⟩ |
    ⟨hd, hpol, hu, hpos, hmax, himm, heven⟩ | ⟨he, hpol, hpos, hmax, himm⟩ | ⟨h1, hpol, hs, hu, hw, himm⟩ |
    ⟨h2, hpol, hs, hu, hw, himm⟩
  · rw [fields_eq rfl (hzero hpol) (Bool.toNat_eq_zero.mp hs) (Bool.toNat_eq_zero.mp hu) (hzero hw) (hzero himm)]
    exact .z hz
  · obtain ⟨pol, hpol⟩ := exists_policy_of_le _ hpol
    rw [fields_eq rfl hpol rfl (Bool.toNat_eq_zero.mp hu) (w := BitVec.ofNat 7 f.w.toNat) (by simp) (hzero himm)]
    exact .p pol hp (wf_of_width_bounds hpos hmax f.s) fun h35 => Bool.toNat_eq_one.mp (hneg h35)
  · rw [fields_eq rfl (hzero hpol) rfl (Bool.toNat_eq_zero.mp hu) (w := BitVec.ofNat 7 f.w.toNat) (by simp) (hzero himm)]
    exact .d hd (wf_of_width_bounds hpos hmax f.s) heven
  · rw [fields_eq rfl (hzero hpol) rfl rfl (w := BitVec.ofNat 7 f.w.toNat) (by simp) (hzero himm)]
    exact .e f.u he (wf_of_width_bounds hpos hmax f.s)
  · have hopc : f.opc = 0x01#8 := BitVec.eq_of_toNat_eq h1
    rw [fields_eq hopc (hzero hpol) (Bool.toNat_eq_zero.mp hs) (Bool.toNat_eq_zero.mp hu) (hzero hw) rfl]
    exact .csrr (csrReadable_iff.mpr himm)
  · have hopc : f.opc = 0x02#8 := BitVec.eq_of_toNat_eq h2
    rw [fields_eq hopc (hzero hpol) (Bool.toNat_eq_zero.mp hs) (Bool.toNat_eq_zero.mp hu) (hzero hw) rfl]
    exact .csrw (csrWritable_iff.mpr himm)

/-- A word decodes exactly when it is legal. -/
theorem decode_ok_iff_legalWord {wMax : Nat} {x : CommandWord} : (∃ i, decode wMax x = .ok i) ↔ LegalWord wMax x :=
  decode_ok_iff_legalFields.trans ⟨legalWord_of_legalFields, legalFields_of_legalWord⟩

end Sys2Proof.Laws

namespace Sys2Proof.Machine.Laws

open Sys2Proof.Safety Sys2Proof.Laws

/-! ## Running an illegal word (R87, R89) -/

/-- A word that is not legal answers ILLEGAL and nothing else is looked at. -/
theorem runWord_of_not_legalWord {x : CommandWord} {s : State} (h : ¬ LegalWord s.params.wMax x) :
    runWord x s = answer s (.raise .illegal) := by
  rw [← decode_ok_iff_legalWord] at h
  unfold runWord
  cases hdecode : decode s.params.wMax x with
  | error _ => rfl
  | ok i => exact absurd ⟨i, hdecode⟩ h

/-! ## Status codes, and what a command that does not answer OK leaves (R14, R85, R86, R275) -/

theorem status_code_eq (st : Status) : st.code = statusCode st := by
  cases st with
  | fault k => cases k <;> rfl
  | _ => rfl

/-- The codes that R86 lists are all that there are. -/
theorem status_code_mem (st : Status) :
    st.code ∈ [0x00#8, 0x01#8, 0x10#8, 0x11#8, 0x12#8, 0x13#8, 0x14#8, 0x15#8, 0x16#8] := by
  cases st with
  | ok => decide
  | novalue => decide
  | fault k => cases k <;> decide

theorem writes_freeCount {s u : State} {i : Instr} (h : Writes s i u) : u.freeCount = s.freeCount := by
  cases h <;> rfl

/-- A command either answers OK, with no free response, or writes nothing and ends with another answer. -/
theorem exec_ok_or_unwritten (i : Instr) (s : State) :
    (∃ u r, exec i s = answer u (.ok r) ∧ u.freeCount = s.freeCount) ∨
    ∃ a, exec i s = answer s a ∧ ∀ r, a ≠ .ok r := by
  obtain ⟨u, a, hexec, hwrites, hunwritten⟩ := exec_writes i s
  by_cases hok : ∃ r, a = .ok r
  · obtain ⟨r, rfl⟩ := hok
    exact .inl ⟨u, r, hexec, writes_freeCount hwrites⟩
  · obtain rfl : u = s := hunwritten.resolve_right hok
    exact .inr ⟨a, hexec, fun r hr => hok ⟨r, hr⟩⟩

/-- Every response that is no free one and not OK shows nothing on the result ports. -/
theorem results_of_not_ok {s : State} {a : Answer} (hok : ∀ r, a ≠ .ok r) {r : Response}
    (hr : (s.answered a).response = some r) (hdet : Determined s (s.answered a)) : r.results = {} := by
  rcases answered_response s a with ⟨r', ha, -⟩ | ⟨-, hres, -⟩ | ⟨k, -, hres, -⟩ | ⟨-, -, hfree⟩
  · exact absurd ha (hok r')
  · cases hres.symm.trans hr; rfl
  · cases hres.symm.trans hr; rfl
  · exact absurd hdet hfree

end Sys2Proof.Machine.Laws

namespace Sys2Proof.Proofs

open Sys2Proof.Machine Sys2Proof.Machine.Laws Sys2Proof.Safety Sys2Proof.Laws

/-- Settles O4: a word decodes exactly when its fields are legal, format by format, and these are the clauses of R89. -/
theorem legalWordsDecode : Obligations.LegalWordsDecode := fun _ _ => decode_ok_iff_legalWord

/-- Settles O5: the command is presented and its word does not decode. -/
theorem illegalWordsAnswerIllegal : Obligations.IllegalWordsAnswerIllegal := by
  intro s c rest hpending hpresentable hillegal
  calc step s
      = runWord c.word (s.present c rest) := step_of_pending_command hpending hpresentable
    _ = answer (s.present c rest) (.raise .illegal) := runWord_of_not_legalWord hillegal

/-- Settles O12: a command that answers OK has the code of OK and a determined response; every other command has
written nothing when it answers. -/
theorem nonOkChangesNothing : Obligations.NonOkChangesNothing := by
  intro i s t r hexec hr
  refine ⟨status_code_eq _, status_code_mem _, ?_⟩
  rcases exec_ok_or_unwritten i s with ⟨u, res, hu, hcount⟩ | ⟨a, ha, hok⟩
  · obtain rfl : u.answered (.ok res) = t := Host.Outcome.next.inj (hu.symm.trans hexec)
    cases hr
    exact ⟨fun h => (h.elim (absurd rfl) (absurd hcount)), fun h => absurd rfl h⟩
  · obtain rfl : s.answered a = t := Host.Outcome.next.inj (ha.symm.trans hexec)
    exact ⟨fun _ => (answered_frame s a).1, fun _ hdet => results_of_not_ok hok hr hdet⟩

end Sys2Proof.Proofs

/-! # The ports a command reads (R84, R88) -/

namespace Sys2Proof.Machine

/-- The state with those values on the operand ports, everything else as it is. -/
def State.withPorts (s : State) (x : Ports) : State := { s with ports := x }

end Sys2Proof.Machine

namespace Sys2Proof.Machine.Laws

open Sys2Proof.Safety

/-! ## The operations that take the whole state see the tables and the parameters alone -/

theorem checkMembers_congr {s t : State} (hparams : t.params = s.params) (hpt : t.pt = s.pt) (xs : List Int) :
    t.checkMembers xs = s.checkMembers xs := by
  have hread (x : Int) : t.readPattern x = s.readPattern x := by rw [State.readPattern, hparams, hpt]; rfl
  induction xs with
  | nil => rfl
  | cons x xs ih => simp only [State.checkMembers, hread, ih]

theorem firstMatch_congr {s t : State} (hpt : t.pt = s.pt) (cand : PatWord) (ms : List Nat) (j : Nat) :
    t.firstMatch cand ms j = s.firstMatch cand ms j := by
  induction ms generalizing j with
  | nil => rfl
  | cons m ms ih => simp only [State.firstMatch, hpt, ih]

/-! ## The same answer on other ports -/

/-- Of two outcomes that start in `s` and in `s` with the ports at `x`: the same is written to the unit and the same is
answered. -/
def AnswersOnPorts (s : State) (x : Ports) (o o' : Result) : Prop :=
  ∃ u a, u.freeCount = s.freeCount ∧ o = answer u a ∧ o' = answer (u.withPorts x) a

theorem answersOnPorts_answer (s : State) (x : Ports) (a : Answer) :
    AnswersOnPorts s x (answer s a) (answer (s.withPorts x) a) := ⟨s, a, rfl, rfl, rfl⟩

theorem answersOnPorts_ite {s : State} {x : Ports} {c : Prop} [Decidable c] {o₁ o₁' o₂ o₂' : Result}
    (h₁ : AnswersOnPorts s x o₁ o₁') (h₂ : AnswersOnPorts s x o₂ o₂') :
    AnswersOnPorts s x (if c then o₁ else o₂) (if c then o₁' else o₂') := by
  split
  · exact h₁
  · exact h₂

/-- Every answer but the unspecified one is written in the same way whatever the ports hold. -/
theorem answered_withPorts {a : Answer} (h : a ≠ .unspecified) (u : State) (x : Ports) :
    (u.withPorts x).answered a = (u.answered a).withPorts x := by
  cases a with
  | unspecified => exact absurd rfl h
  | _ => rfl

/-- Outcomes with the same answer that draw no free response leave states that differ in the ports alone. -/
theorem next_of_answersOnPorts {s t : State} {x : Ports} {o' : Result} (h : AnswersOnPorts s x (.next t) o')
    (hdet : Determined s t) : o' = .next (t.withPorts x) := by
  obtain ⟨u, a, hcount, ht, rfl⟩ := h
  obtain rfl : t = u.answered a := Host.Outcome.next.inj ht
  have hspecified : a ≠ .unspecified := by
    rintro rfl
    exact Nat.succ_ne_self _ (hdet.trans hcount.symm)
  rw [answer_next, answered_withPorts hspecified]

/-! ## The commands that write the unit, and the scan of PGMATCH -/

theorem checkMembers_withPorts (s : State) (x : Ports) (xs : List Int) :
    (s.withPorts x).checkMembers xs = s.checkMembers xs := checkMembers_congr (s := s) (t := s.withPorts x) rfl rfl xs

theorem firstMatch_withPorts (s : State) (x : Ports) (cand : PatWord) (ms : List Nat) (j : Nat) :
    (s.withPorts x).firstMatch cand ms j = s.firstMatch cand ms j := firstMatch_congr (s := s) (t := s.withPorts x) rfl cand ms j

theorem answersOnPorts_appendAnswer (s : State) (x : Ports) (p : BitPart) :
    AnswersOnPorts s x (appendAnswer s p) (appendAnswer (s.withPorts x) p) := ⟨s.appendPart p, _, rfl, rfl, rfl⟩

section
variable {s : State} {x : Ports}

theorem answersOnPorts_csrw (ha : x.a = s.ports.a) (imm : BitVec 12) :
    AnswersOnPorts s x (execCsrw imm s) (execCsrw imm (s.withPorts x)) := by
  have hword : (s.withPorts x).uA = s.uA := congrArg (uword s.params.rawBits) ha
  unfold execCsrw
  rw [hword]
  exact answersOnPorts_ite (answersOnPorts_answer ..) ⟨s.setDbgctl s.uA, _, rfl, rfl, rfl⟩

theorem answersOnPorts_pbfix (ha : x.a = s.ports.a) :
    AnswersOnPorts s x (execPbfix s) (execPbfix (s.withPorts x)) := by
  have hA : (s.withPorts x).A = s.A := ha
  unfold execPbfix
  simp only [hA]
  exact answersOnPorts_ite (answersOnPorts_answer ..) <| answersOnPorts_ite (answersOnPorts_answer ..) <|
    answersOnPorts_ite (answersOnPorts_answer ..) (answersOnPorts_appendAnswer ..)

theorem answersOnPorts_pbvar (ha : x.a = s.ports.a) (hsIn : x.sIn = s.ports.sIn) :
    AnswersOnPorts s x (execPbvar s) (execPbvar (s.withPorts x)) := by
  have hA : (s.withPorts x).A = s.A := ha
  have hname : (s.withPorts x).ports.sIn = s.ports.sIn := hsIn
  unfold execPbvar
  simp only [hA, hname]
  exact answersOnPorts_ite (answersOnPorts_answer ..) <| answersOnPorts_ite (answersOnPorts_answer ..) <|
    answersOnPorts_ite (answersOnPorts_answer ..) (answersOnPorts_appendAnswer ..)

theorem answersOnPorts_pbbuild (ha : x.a = s.ports.a) (hsIn : x.sIn = s.ports.sIn) :
    AnswersOnPorts s x (execPbbuild s) (execPbbuild (s.withPorts x)) := by
  have hslot : slotOf (s.withPorts x).params.nPat (s.withPorts x).A = slotOf s.params.nPat s.A :=
    congrArg (slotOf s.params.nPat) ha
  have hname : (s.withPorts x).ports.sIn = s.ports.sIn := hsIn
  unfold execPbbuild
  simp only [hslot, hname]
  refine answersOnPorts_ite (answersOnPorts_answer ..) ?_
  cases slotOf s.params.nPat s.A with
  | none => exact answersOnPorts_answer ..
  | some m =>
    exact answersOnPorts_ite (answersOnPorts_answer ..) <| answersOnPorts_ite (answersOnPorts_answer ..)
      ⟨s.storePattern m (compile s.parts s.ports.sIn), _, rfl, rfl, rfl⟩

theorem answersOnPorts_pgmake (ha : x.a = s.ports.a) (hv : x.v = s.ports.v) :
    AnswersOnPorts s x (execPgmake s) (execPgmake (s.withPorts x)) := by
  have hslot : slotOf (s.withPorts x).params.nGrp (s.withPorts x).A = slotOf s.params.nGrp s.A :=
    congrArg (slotOf s.params.nGrp) ha
  have hlist : (s.withPorts x).ports.v = s.ports.v := hv
  unfold execPgmake
  simp only [hslot, hlist, checkMembers_withPorts]
  cases slotOf s.params.nGrp s.A with
  | none => exact answersOnPorts_answer ..
  | some g =>
    rcases s.ports.v with _ | _ | ⟨y, ys⟩
    · exact answersOnPorts_answer ..
    · exact answersOnPorts_answer ..
    · refine answersOnPorts_ite (answersOnPorts_answer ..) ?_
      cases s.checkMembers (y :: ys) with
      | error k => exact answersOnPorts_answer ..
      | ok ms => exact answersOnPorts_ite (answersOnPorts_answer ..) ⟨s.storeGroup g ⟨s.groupOf ms⟩, _, rfl, rfl, rfl⟩

/-- PGMATCH walks the members of a group in the pattern table, and takes its candidate from port B. -/
theorem answersOnPorts_pgmatch (ha : x.a = s.ports.a) (hb : x.b = s.ports.b) :
    AnswersOnPorts s x (execPgmatch s) (execPgmatch (s.withPorts x)) := by
  have hgroup : (s.withPorts x).readGroup (s.withPorts x).A = s.readGroup s.A := congrArg s.readGroup ha
  have hcand : (s.withPorts x).candidate = s.candidate :=
    congrArg (fun b => BitVec.ofInt Config.patW (uword s.params.rawBits b)) hb
  unfold execPgmatch
  simp only [hgroup, hcand, firstMatch_withPorts]
  exact answersOnPorts_answer ..

end

/-! ## All commands -/

/-- A command gives the same answer on other ports that agree on those it reads. Once the ports of its "reads" column are
put equal (one group of commands for each column, A and B last), the answer of every command without a lemma of its own
is made of these ports and of fields that `withPorts` leaves alone. -/
theorem answersOnPorts_exec {i : Instr} {s : State} {x : Ports} (h : ∀ q ∈ portsRead i, SamePort x s.ports q) :
    AnswersOnPorts s x (exec i s) (exec i (s.withPorts x)) := by
  cases i with
  | csrr imm => exact answersOnPorts_answer ..
  | pbnew => exact ⟨s.newBuilder, _, rfl, rfl, rfl⟩
  | csrw imm => exact answersOnPorts_csrw (h .a (by simp [portsRead])) imm
  | pbfix => exact answersOnPorts_pbfix (h .a (by simp [portsRead]))
  | pbvar => exact answersOnPorts_pbvar (h .a (by simp [portsRead])) (h .sIn (by simp [portsRead]))
  | pbbuild => exact answersOnPorts_pbbuild (h .a (by simp [portsRead])) (h .sIn (by simp [portsRead]))
  | pgmake => exact answersOnPorts_pgmake (h .a (by simp [portsRead])) (h .v (by simp [portsRead]))
  | pgmatch => exact answersOnPorts_pgmatch (h .a (by simp [portsRead])) (h .b (by simp [portsRead]))
  | parseb =>
    obtain ⟨a, b, c, d, sIn, v⟩ := x
    obtain rfl : sIn = s.ports.sIn := h .sIn (by simp [portsRead])
    exact answersOnPorts_answer ..
  | lhilo | fit | neg | npow2 | bits | cnt1 | cnt0 | clo | clz | cto | ctz | hilo | sqrt | log2 | log10 | not | ptinfo
  | pginfo =>
    obtain ⟨a, b, c, d, sIn, v⟩ := x
    obtain rfl : a = s.ports.a := h .a (by simp [portsRead])
    exact answersOnPorts_answer ..
  | togbitx | bitchunk | bitrange | rotl | rotr | sext | shrl | shra | rotrsh | lgetbit | lsetbit | lclrbit | dchunk
  | dslice | clamp =>
    obtain ⟨a, b, c, d, sIn, v⟩ := x
    obtain rfl : a = s.ports.a := h .a (by simp [portsRead])
    obtain rfl : b = s.ports.b := h .b (by simp [portsRead])
    obtain rfl : c = s.ports.c := h .c (by simp [portsRead])
    exact answersOnPorts_answer ..
  | replrange | lchunk | drepl =>
    obtain ⟨a, b, c, d, sIn, v⟩ := x
    obtain rfl : a = s.ports.a := h .a (by simp [portsRead])
    obtain rfl : b = s.ports.b := h .b (by simp [portsRead])
    obtain rfl : c = s.ports.c := h .c (by simp [portsRead])
    obtain rfl : d = s.ports.d := h .d (by simp [portsRead])
    exact answersOnPorts_answer ..
  | _ =>
    obtain ⟨a, b, c, d, sIn, v⟩ := x
    obtain rfl : a = s.ports.a := h .a (by simp [portsRead])
    obtain rfl : b = s.ports.b := h .b (by simp [portsRead])
    exact answersOnPorts_answer ..

end Sys2Proof.Machine.Laws

namespace Sys2Proof.Proofs

open Sys2Proof.Machine Sys2Proof.Machine.Laws

/-- Settles O18: a command gives the same answer on other ports that agree on those it reads, and a determined answer
leaves states that differ in the ports alone. -/
theorem unreadPortsIgnored : Obligations.UnreadPortsIgnored := by
  intro i s t x hexec hdet hsame
  have hports := answersOnPorts_exec hsame
  rw [hexec] at hports
  exact next_of_answersOnPorts hports hdet

end Sys2Proof.Proofs

/-! # The raw bit primitives (R109 to R126) -/

namespace Sys2Proof.Machine.Laws

open Sys2Proof.Safety

/-! ## How a raw command ends (R13, R109) -/

/-- A command that answers what its rule says ends as its rule says. -/
theorem ends_of_eq {s : State} {a b : Answer} (h : a = b) : Ends s (answer s a) b := h ▸ ends_answer s a

/-- A command whose rule begins with a test of the operands: the fault when they fail it, what follows when they
pass. -/
theorem ends_guarded {s : State} {illegal legal : Prop} [Decidable illegal] [Decidable legal] {k : Kind} {a b : Answer}
    (hiff : illegal ↔ ¬ legal) (h : legal → Ends s (answer s a) b) :
    Ends s (answer s (if illegal then .raise k else a)) (if legal then b else .raise k) := by
  by_cases hlegal : legal
  · rw [if_neg fun hi => hiff.mp hi hlegal, if_pos hlegal]
    exact h hlegal
  · rw [if_pos (hiff.mpr hlegal), if_neg hlegal]
    exact ends_answer s _

/-- A command that answers a number with the bits of the word `x` answers `x`. -/
theorem ends_word {s : State} {v : Int} {x : BitVec s.params.rawBits}
    (h : ∀ i < s.params.rawBits, bit v i = if x.getLsbD i then 1 else 0) :
    Ends s (answer s (.value v)) (.ok { r0 := x.toInt }) :=
  ends_value (onPort_of_bits h) (ends_answer s (.value v))

/-- A command that answers a number with the bits `f 0, f 1, ...` answers the word with these bits. -/
theorem ends_wordOf {s : State} {v : Int} {f : Nat → Bool} (h : ∀ i, bit v i = if f i then 1 else 0) :
    Ends s (answer s (.value v)) (.ok { r0 := (wordOf f : BitVec s.params.rawBits).toInt }) :=
  ends_word fun i hi => by rw [h, wordOf_bit, decide_eq_true hi, Bool.true_and]

/-! ## The operands (R8, R84) -/

theorem B_eq (s : State) : s.B = s.ports.b := rfl

theorem C_eq (s : State) : s.C = s.ports.c := rfl

theorem bit_uA (s : State) (i : Nat) : bit s.uA i = if (word s s.ports.a).getLsbD i then 1 else 0 :=
  bit_word s s.ports.a i

theorem bit_uD (s : State) (i : Nat) : bit s.uD i = if (word s s.ports.d).getLsbD i then 1 else 0 :=
  bit_word s s.ports.d i

theorem uA_eq_toNat (s : State) : s.uA = ((word s s.ports.a).toNat : Int) := (toNat_ofInt _ _).symm

/-! ## Single bits (R110 to R117) -/

theorem bit_uA_eq_flag (s : State) (i : Nat) : bit s.uA i = flag ((word s s.ports.a).getLsbD i) := bit_uA s i

theorem truth_bit_eq_one (s : State) (i : Nat) :
    Answer.truth (bit s.uA i = 1) = .ok { r0 := flag ((word s s.ports.a).getLsbD i) } := by
  rw [bit_uA]
  cases (word s s.ports.a).getLsbD i <;> rfl

theorem truth_bit_eq_zero (s : State) (i : Nat) :
    Answer.truth (bit s.uA i = 0) = .ok { r0 := flag (!(word s s.ports.a).getLsbD i) } := by
  rw [bit_uA]
  cases (word s s.ports.a).getLsbD i <;> rfl

/-- The word with bit `n` alone. -/
theorem getLsbD_one_shiftLeft (s : State) (n : Nat) {i : Nat} (hi : i < s.params.rawBits) :
    (word s 1 <<< n).getLsbD i = decide (i = n) := by
  have hone : word s 1 = 1#s.params.rawBits := BitVec.ofInt_ofNat _ 1
  rw [hone, ← BitVec.twoPow_eq, BitVec.getLsbD_twoPow]
  by_cases h : i = n
  · simp [← h, hi]
  · simp [h, Ne.symm h]

theorem ends_setBit (s : State) (n : Nat) :
    Ends s (answer s (.value (setBitAt s.uA n))) (.ok { r0 := (word s s.ports.a ||| word s 1 <<< n).toInt }) :=
  ends_word fun i hi => by
    rw [bit_setBitAt, bit_uA, BitVec.getLsbD_or, getLsbD_one_shiftLeft s n hi]
    by_cases h : i = n <;> simp [h]

theorem ends_clrBit (s : State) (n : Nat) :
    Ends s (answer s (.value (clrBitAt s.uA n))) (.ok { r0 := (word s s.ports.a &&& ~~~(word s 1 <<< n)).toInt }) :=
  ends_word fun i hi => by
    rw [bit_clrBitAt, bit_uA, BitVec.getLsbD_and, BitVec.getLsbD_not, getLsbD_one_shiftLeft s n hi]
    by_cases h : i = n <;> simp [h, hi]

theorem ends_togBit (s : State) (n : Nat) :
    Ends s (answer s (.value (togBitAt s.uA n))) (.ok { r0 := (word s s.ports.a ^^^ word s 1 <<< n).toInt }) :=
  ends_word fun i hi => by
    rw [bit_togBitAt, bit_uA, bit_uA, BitVec.getLsbD_xor, getLsbD_one_shiftLeft s n hi]
    by_cases h : i = n
    · subst h
      cases (word s s.ports.a).getLsbD i <;> simp
    · simp [h]

/-- TOGBITX past its RANGE test: the state on port C selects SETBIT or CLRBIT, and there is no third state (R114). -/
theorem ends_forceBit (s : State) (n : Nat) :
    Ends s
      (answer s <|
        if s.C ≠ 0 ∧ s.C ≠ 1 then .raise .argument
        else if s.C = 1 then .value (setBitAt s.uA n)
        else .value (clrBitAt s.uA n))
      (if s.ports.c = 1 then .ok { r0 := (word s s.ports.a ||| word s 1 <<< n).toInt }
      else if s.ports.c = 0 then .ok { r0 := (word s s.ports.a &&& ~~~(word s 1 <<< n)).toInt }
      else .raise .argument) := by
  rw [C_eq]
  by_cases hset : s.ports.c = 1
  · rw [if_neg (by omega), if_pos hset, if_pos hset]
    exact ends_setBit s n
  · rw [if_neg hset, if_neg hset]
    exact ends_guarded (by omega) fun _ => ends_clrBit s n

/-! ## Counts and fields (R118 to R121) -/

theorem popcount_low_uA (s : State) (w : Nat) : popcount w (low s.uA w) = onesBelow w (word s s.ports.a) := by
  rw [popcount_congr fun i hi => bit_low hi, popcount_eq, onesBelow]
  congr 2
  funext i
  rw [bit_uA]
  cases (word s s.ports.a).getLsbD i <;> rfl

/-- A chunk of a word is the field of the bits `left .. left-size+1` (R12). -/
theorem chunk_uA (s : State) (left size : Nat) :
    chunk s.uA left size = (((word s s.ports.a).extractLsb' (left + 1 - size) size).toNat : Int) := by
  rw [uA_eq_toNat, chunk, BitVec.extractLsb'_toNat, Nat.shiftRight_eq_div_pow]
  push_cast
  rfl

/-! ## Windows (R122 to R126) -/

theorem windowIllegal_iff {rawBits : Nat} {width count : Int} :
    ¬ IsWidth rawBits width ∨ count < 0 ↔ ¬ ((1 ≤ width ∧ width ≤ rawBits) ∧ 0 ≤ count) := by
  omega

/-- The window of `w` bits of a word with other bits `f` in it: the bits above pass through. -/
theorem ends_window (s : State) {q : Int} {w : Nat} {f : Nat → Nat} (h₀ : 0 ≤ q) (h₁ : q < 2 ^ w)
    (h : ∀ i < w, bit q i = bit s.uA (f i)) :
    Ends s (answer s (.value (s.uA - low s.uA w + q)))
      (.ok { r0 := (wordOf fun i => if i < w then (word s s.ports.a).getLsbD (f i) else (word s s.ports.a).getLsbD i :
        BitVec s.params.rawBits).toInt }) :=
  ends_wordOf fun i => by
    rw [bit_window h₀ h₁]
    by_cases hi : i < w
    · rw [if_pos hi, if_pos hi, h i hi, bit_uA]
    · rw [if_neg hi, if_neg hi, bit_uA]

theorem ends_rotl (s : State) (n : Nat) {w : Nat} (hw : 1 ≤ w) :
    Ends s (answer s (.value (s.uA - low s.uA w + rotl w (low s.uA w) n)))
      (.ok { r0 := (wordOf fun i => if i < w then (word s s.ports.a).getLsbD ((i + (w - n % w)) % w)
        else (word s s.ports.a).getLsbD i : BitVec s.params.rawBits).toInt }) := by
  obtain ⟨h₀, h₁⟩ := rotl_bounds hw (low_nonneg s.uA w) (low_lt s.uA w) n
  refine ends_window s h₀ h₁ fun i hi => ?_
  rw [bit_rotl hw (low_nonneg _ _) (low_lt _ _), if_pos hi, bit_low (Nat.mod_lt _ hw)]

theorem ends_rotr (s : State) (n : Nat) {w : Nat} (hw : 1 ≤ w) :
    Ends s (answer s (.value (s.uA - low s.uA w + rotr w (low s.uA w) n)))
      (.ok { r0 := (wordOf fun i => if i < w then (word s s.ports.a).getLsbD ((i + n) % w)
        else (word s s.ports.a).getLsbD i : BitVec s.params.rawBits).toInt }) := by
  obtain ⟨h₀, h₁⟩ := rotr_bounds hw (low_nonneg s.uA w) (low_lt s.uA w) n
  refine ends_window s h₀ h₁ fun i hi => ?_
  rw [bit_rotr hw (low_nonneg _ _) (low_lt _ _), if_pos hi, bit_low (Nat.mod_lt _ hw)]

/-- The window is the low bits of the word. -/
theorem low_uA (s : State) (w : Nat) : low s.uA w = (((word s s.ports.a).setWidth w).toNat : Int) := by
  rw [uA_eq_toNat, low, BitVec.toNat_setWidth]
  push_cast
  rfl

theorem floorShift_toNat {w : Nat} (x : BitVec w) (n : Nat) :
    floorShift (x.toNat : Int) n = ((x >>> n).toNat : Int) := by
  rw [floorShift_eq_div, BitVec.toNat_ushiftRight, Nat.shiftRight_eq_div_pow]
  push_cast
  rfl

/-- The window read as a signed number, shifted and cut back, is the window shifted arithmetically (R126). -/
theorem low_floorShift_sext_toNat {w : Nat} (hw : 1 ≤ w) (x : BitVec w) (n : Nat) :
    low (floorShift (sext w (x.toNat : Int)) n) w = ((x.sshiftRight n).toNat : Int) := by
  rw [sext_toNat hw, ← toNat_ofInt]
  rfl

end Sys2Proof.Machine.Laws

namespace Sys2Proof.Proofs

open Sys2Proof.Machine Sys2Proof.Machine.Laws Sys2Proof.Safety

/-- Settles O21: a bit of `u(A)` is the bit of the word on port A. -/
theorem singleBitReads : Obligations.SingleBitReads :=
  ⟨rfl, rfl, rfl, fun s =>
    ⟨ends_guarded Iff.rfl fun _ => ends_of_eq (congrArg Answer.value (bit_uA_eq_flag s _)),
      ends_guarded Iff.rfl fun _ => ends_of_eq (truth_bit_eq_one s _),
      ends_guarded Iff.rfl fun _ => ends_of_eq (truth_bit_eq_zero s _)⟩⟩

/-- Settles O22: what each of the four writes shows in one bit of the word and leaves in the others. -/
theorem singleBitWrites : Obligations.SingleBitWrites :=
  ⟨rfl, rfl, rfl, rfl, fun s =>
    ⟨ends_guarded Iff.rfl fun _ => ends_setBit s _, ends_guarded Iff.rfl fun _ => ends_clrBit s _,
      ends_guarded Iff.rfl fun _ => ends_togBit s _, ends_guarded Iff.rfl fun _ => ends_forceBit s _⟩⟩

/-- Settles O23: MSB reads the bit below the width; CNTSET counts the bits of the word below the width. -/
theorem widthReads : Obligations.WidthReads :=
  ⟨rfl, rfl, fun s =>
    ⟨ends_guarded Iff.rfl fun _ => ends_of_eq (congrArg Answer.value (bit_uA_eq_flag s _)),
      ends_guarded Iff.rfl fun _ => ends_of_eq (congrArg Answer.value (popcount_low_uA s _))⟩⟩

/-- Settles O24: both commands answer a chunk; for legal operands its low end, and for BITRANGE its size, are what the
statement counts on the ports. -/
theorem fieldReads : Obligations.FieldReads := by
  refine ⟨rfl, rfl, fun s => ⟨ends_guarded ?_ fun h => ends_of_eq ?_,
    ends_guarded Iff.rfl fun h => ends_of_eq ?_⟩⟩
  · rw [B_eq, C_eq]
    omega
  · obtain ⟨⟨hleft, -⟩, hsize, hlow⟩ := h
    have hstart : s.B.toNat + 1 - s.C.toNat = (s.ports.b + 1 - s.ports.c).toNat := by
      rw [B_eq, C_eq]
      omega
    rw [chunk_uA, hstart]
    rfl
  · obtain ⟨-, hright, hle⟩ := h
    have hsize : (s.B - s.C + 1).toNat = (s.ports.b + 1 - s.ports.c).toNat := by
      rw [B_eq, C_eq]
      omega
    have hstart : s.B.toNat + 1 - (s.ports.b + 1 - s.ports.c).toNat = s.ports.c.toNat := by
      rw [B_eq]
      omega
    rw [hsize, chunk_uA, hstart]
    rfl

/-- Settles O25: bit by bit, inside the range from the replacement and outside it from port A. -/
theorem fieldReplacement : Obligations.FieldReplacement := by
  refine ⟨rfl, fun s => ends_guarded ?_ fun h => ends_wordOf fun i => ?_⟩
  · rw [B_eq, C_eq]
    omega
  · obtain ⟨-, hright, hle⟩ := h
    rw [B_eq, C_eq, bit_replaceBits _ _ (Int.toNat_le_toNat hle), bit_uA, bit_uD]
    split <;> rfl

/-- Settles O26: the rotated window takes the place of the window. -/
theorem windowRotations : Obligations.WindowRotations := by
  refine ⟨rfl, rfl, fun s => ⟨ends_guarded windowIllegal_iff ?_, ends_guarded windowIllegal_iff ?_⟩⟩
  · rintro ⟨⟨hwidth, -⟩, -⟩
    exact ends_rotl s _ (Int.toNat_le_toNat hwidth)
  · rintro ⟨⟨hwidth, -⟩, -⟩
    exact ends_rotr s _ (Int.toNat_le_toNat hwidth)

/-- Settles O29: the copies of the sign bit stand from the start width up to the end width. -/
theorem signExtension : Obligations.SignExtension := by
  refine ⟨rfl, fun s => ends_guarded ?_ fun h => ends_wordOf fun i => ?_⟩
  · rw [B_eq, C_eq]
    omega
  · obtain ⟨-, hlt, -⟩ := h
    rw [B_eq, C_eq, bit_signExtendBits _ (Int.toNat_le_toNat hlt.le), bit_uA, bit_uA]
    split <;> rfl

/-- Settles O30: the window is a word of `C` bits, shifted as an unsigned or as a signed number. -/
theorem windowShifts : Obligations.WindowShifts := by
  refine ⟨rfl, rfl, fun s => ⟨ends_guarded windowIllegal_iff ?_, ends_guarded windowIllegal_iff ?_⟩⟩
  · intro _
    rw [low_uA, floorShift_toNat]
    exact ends_answer s _
  · rintro ⟨⟨hwidth, -⟩, -⟩
    rw [C_eq, low_uA, low_floorShift_sext_toNat (Int.toNat_le_toNat hwidth)]
    exact ends_answer s _

end Sys2Proof.Proofs

/-! # The long helper (R140 to R145) -/

namespace Sys2Proof.Machine

open Sys2Proof.Safety

/-- The full value of a pair (R140). -/
def longValue (hi lo : Int) : Int := hi * 2 ^ 32 + lo

/-- The number with bit `n` forced to `b`: what LSETBIT and LCLRBIT do to the half that holds the bit (R143, R144). -/
def putBitAt (b : Bool) (v : Int) (n : Nat) : Int := v + (flag b - bit v n) * 2 ^ n

/-- The ports hold a legal pair and a position in it (R140). -/
abbrev LongOperands (s : State) : Prop :=
  (0 ≤ s.ports.b ∧ s.ports.b < 2 ^ 32) ∧ (0 ≤ s.ports.a ∧ s.ports.a < 2 ^ (s.params.rawBits - 33)) ∧
    0 ≤ s.ports.c ∧ s.ports.c < (s.params.rawBits : Int) - 1

/-- The two halves of a word as an answer (R141). -/
def splitAnswer {n : Nat} (x : BitVec n) : Answer := .ok { r0 := (x >>> 32).toNat, r1 := (x.setWidth 32).toNat }

end Sys2Proof.Machine

namespace Sys2Proof.Machine.Laws

open Sys2Proof.Safety

/-! ## One bit of a number forced -/

theorem putBitAt_true (v : Int) (n : Nat) : putBitAt true v n = setBitAt v n := rfl

theorem putBitAt_false (v : Int) (n : Nat) : putBitAt false v n = clrBitAt v n := by
  change v + (0 - bit v n) * 2 ^ n = v - bit v n * 2 ^ n
  ring

theorem bit_putBitAt (b : Bool) (v : Int) (n i : Nat) :
    bit (putBitAt b v n) i = if i = n then flag b else bit v i := by
  cases b
  · rw [putBitAt_false]
    exact bit_clrBitAt v n i
  · exact bit_setBitAt v n i

/-- Forcing a bit below `w` keeps a number inside `w` bits: of the number's quotient by `2^n` only the last bit
changes. -/
theorem putBitAt_bounds {b : Bool} {v : Int} {n w : Nat} (h₀ : 0 ≤ v) (h₁ : v < 2 ^ w) (hn : n < w) :
    0 ≤ putBitAt b v n ∧ putBitAt b v n < 2 ^ w := by
  obtain ⟨k, rfl⟩ : ∃ k, w = n + 1 + k := ⟨w - (n + 1), by omega⟩
  have hw : (2 : Int) ^ (n + 1 + k) = 2 * 2 ^ k * 2 ^ n := by ring
  have hquot : putBitAt b v n / 2 ^ n = v / 2 ^ n + (flag b - bit v n) :=
    Int.add_mul_ediv_right _ _ (two_pow_pos n).ne'
  have hflag : flag b = 0 ∨ flag b = 1 := by cases b <;> decide
  have hv₀ : 0 ≤ v / 2 ^ n := Int.ediv_nonneg h₀ (two_pow_pos n).le
  have hv₁ : v / 2 ^ n < 2 * 2 ^ k := Int.ediv_lt_of_lt_mul (two_pow_pos n) (hw ▸ h₁)
  have hnew : 0 ≤ putBitAt b v n / 2 ^ n ∧ putBitAt b v n / 2 ^ n < 2 * 2 ^ k := by
    rw [hquot, bit]
    omega
  refine ⟨?_, ?_⟩
  · simpa using Int.mul_le_of_le_ediv (two_pow_pos n) hnew.1
  · rw [hw]
    exact Int.lt_mul_of_ediv_lt (two_pow_pos n) hnew.2

/-! ## The full value of a pair (R140) -/

theorem longValue_div {hi lo : Int} (h : 0 ≤ lo ∧ lo < 2 ^ 32) : longValue hi lo / 2 ^ 32 = hi := by
  unfold longValue
  omega

theorem longValue_mod {hi lo : Int} (h : 0 ≤ lo ∧ lo < 2 ^ 32) : longValue hi lo % 2 ^ 32 = lo := by
  unfold longValue
  omega

/-- A legal pair's full value is a number of LONGBITS bits. -/
theorem longValue_bounds {longBits : Nat} (hL : 32 ≤ longBits) {hi lo : Int} (h : IsLongPair longBits hi lo) :
    0 ≤ longValue hi lo ∧ longValue hi lo < 2 ^ longBits := by
  obtain ⟨⟨hlo₀, hlo₁⟩, hhi₀, hhi₁⟩ := h
  have hpow : (2 : Int) ^ longBits = 2 ^ (longBits - 32) * 2 ^ 32 := by rw [← pow_add, Nat.sub_add_cancel hL]
  rw [hpow]
  unfold longValue
  omega

/-- The bits below 32 are those of the low half, the others those of the high half. -/
theorem bit_longValue {hi lo : Int} (h : 0 ≤ lo ∧ lo < 2 ^ 32) (i : Nat) :
    bit (longValue hi lo) i = if i < 32 then bit lo i else bit hi (i - 32) := by
  rw [longValue, add_comm]
  exact bit_add_high h.1 h.2 i

/-- Forcing a bit of the low half is forcing it in the full value. -/
theorem longValue_putBitAt_low {b : Bool} {hi lo : Int} (h : 0 ≤ lo ∧ lo < 2 ^ 32) {n : Nat} (hn : n < 32) :
    longValue hi (putBitAt b lo n) = putBitAt b (longValue hi lo) n := by
  rw [putBitAt, putBitAt, bit_longValue h, if_pos hn, longValue, longValue, add_assoc]

/-- Forcing a bit of the high half is forcing the bit 32 places above it in the full value. -/
theorem longValue_putBitAt_high {b : Bool} {hi lo : Int} (h : 0 ≤ lo ∧ lo < 2 ^ 32) {n : Nat} (hn : ¬ n < 32) :
    longValue (putBitAt b hi (n - 32)) lo = putBitAt b (longValue hi lo) n := by
  have hpow : (2 : Int) ^ n = 2 ^ (n - 32) * 2 ^ 32 := by rw [← pow_add, Nat.sub_add_cancel (Nat.not_lt.mp hn)]
  rw [putBitAt, putBitAt, bit_longValue h, if_neg hn, longValue, longValue, hpow]
  ring

/-! ## The full value as a word -/

/-- The halves joined as words are the word of the full value. -/
theorem word_longValue (s : State) {hi lo : Int} (h : 0 ≤ lo ∧ lo < 2 ^ 32) :
    word s hi <<< 32 ||| word s lo = word s (longValue hi lo) := by
  refine BitVec.eq_of_getLsbD_eq fun i hi' => ?_
  rw [BitVec.getLsbD_or, BitVec.getLsbD_shiftLeft]
  simp only [word, ofInt_bit, bit_longValue h]
  by_cases hlow : i < 32
  · simp [hlow, hi']
  · have hbit : bit lo i = 0 := bit_eq_zero h.1 h.2 (Nat.not_lt.mp hlow)
    have hhigh : i - 32 < s.params.rawBits := by omega
    simp [hlow, hi', hbit, hhigh]

theorem word_putBitAt_true (s : State) (v : Int) (n : Nat) :
    word s (putBitAt true v n) = word s v ||| word s 1 <<< n := by
  refine BitVec.eq_of_getLsbD_eq fun i hi => ?_
  rw [BitVec.getLsbD_or, getLsbD_one_shiftLeft s n hi, word, word, ofInt_bit, ofInt_bit, bit_putBitAt, flag]
  by_cases h : i = n
  · subst h
    simp [hi]
  · simp [h]

theorem word_putBitAt_false (s : State) (v : Int) (n : Nat) :
    word s (putBitAt false v n) = word s v &&& ~~~(word s 1 <<< n) := by
  refine BitVec.eq_of_getLsbD_eq fun i hi => ?_
  rw [BitVec.getLsbD_and, BitVec.getLsbD_not, getLsbD_one_shiftLeft s n hi, word, word, ofInt_bit, ofInt_bit,
    bit_putBitAt, flag]
  by_cases h : i = n <;> simp [h, hi]

/-- A number of RAWBITS bits is its own word, read as unsigned. -/
theorem toNat_word (s : State) {v : Int} (h₀ : 0 ≤ v) (h₁ : v < 2 ^ s.params.rawBits) :
    ((word s v).toNat : Int) = v := by
  rw [word, toNat_ofInt, low_eq_self h₀ h₁]

theorem flag_word (s : State) (v : Int) {n : Nat} (hn : n < s.params.rawBits) :
    flag ((word s v).getLsbD n) = bit v n := by
  rw [flag, ← bit_word, uword, bit_low hn]

/-- A chunk of a number is the field of its word. -/
theorem chunk_word (s : State) {v : Int} (h₀ : 0 ≤ v) (h₁ : v < 2 ^ s.params.rawBits) (left size : Nat) :
    chunk v left size = (((word s v).extractLsb' (left + 1 - size) size).toNat : Int) := by
  have h := chunk_uA (s.withPorts { s.ports with a := v }) left size
  rwa [show (s.withPorts { s.ports with a := v }).uA = v from low_eq_self h₀ h₁] at h

/-! ## The sizes of R5 -/

/-- There is room for a low half: LONGBITS is one less than RAWBITS, and at least 32. -/
theorem longBits_spec {p : Params} (h : SizesOk p) : p.rawBits = p.longBits + 1 ∧ 32 ≤ p.longBits := by
  have hwidth := h.wMax
  unfold Params.longBits
  omega

/-- A legal pair, as a statement counts its high half on RAWBITS. -/
theorem isLongPair_longBits_iff (p : Params) {hi lo : Int} :
    IsLongPair p.longBits hi lo ↔ (0 ≤ lo ∧ lo < 2 ^ 32) ∧ 0 ≤ hi ∧ hi < 2 ^ (p.rawBits - 33) := by
  rw [IsLongPair, Params.longBits, Nat.sub_sub]

/-- The legal operands of LGETBIT, LSETBIT and LCLRBIT, as a statement counts them on RAWBITS. -/
theorem longOperands_iff {s : State} (h : SizesOk s.params) :
    IsLongPair s.params.longBits s.A s.B ∧ IsPosition s.params.longBits s.C ↔ LongOperands s := by
  have hsize := longBits_spec h
  rw [isLongPair_longBits_iff, and_assoc]
  refine and_congr_right' (and_congr_right' ?_)
  rw [C_eq]
  omega

/-- The operands of LCHUNK, as a statement counts them on RAWBITS. -/
theorem longChunk_iff {p : Params} (h : SizesOk p) {hi lo left size : Int} :
    IsLongPair p.longBits hi lo ∧ IsChunk p.longBits left size ↔
      ((0 ≤ lo ∧ lo < 2 ^ 32) ∧ 0 ≤ hi ∧ hi < 2 ^ (p.rawBits - 33)) ∧
        (0 ≤ left ∧ left < (p.rawBits : Int) - 1) ∧ 0 < size ∧ size ≤ left + 1 := by
  have hsize := longBits_spec h
  refine and_congr (isLongPair_longBits_iff p) ?_
  omega

/-- A number of LONGBITS bits fits a word. -/
theorem lt_two_pow_rawBits {p : Params} (h : SizesOk p) {v : Int} (hv : v < 2 ^ p.longBits) : v < 2 ^ p.rawBits := by
  rw [(longBits_spec h).1, pow_succ]
  have := two_pow_pos p.longBits
  omega

/-! ## The answers of the long commands -/

/-- The quotient and the remainder by `2^32` of a number are the halves of its word. -/
theorem pair_div_mod (s : State) {v : Int} (h₀ : 0 ≤ v) (h₁ : v < 2 ^ s.params.rawBits) :
    Answer.pair (v / 2 ^ 32) (v % 2 ^ 32) = splitAnswer (word s v) := by
  have hword := toNat_word s h₀ h₁
  have hhi : ((word s v >>> 32).toNat : Int) = v / 2 ^ 32 := by
    rw [BitVec.toNat_ushiftRight, Nat.shiftRight_eq_div_pow, Int.natCast_ediv, hword]
    rfl
  have hlo : (((word s v).setWidth 32).toNat : Int) = v % 2 ^ 32 := by
    rw [BitVec.toNat_setWidth, Int.natCast_emod, hword]
    rfl
  rw [splitAnswer, hhi, hlo, Answer.pair]

/-- A legal pair is the split of its full value (R140). -/
theorem pair_longValue {s : State} (hs : SizesOk s.params) {hi lo : Int} (h : IsLongPair s.params.longBits hi lo) :
    Answer.pair hi lo = splitAnswer (word s (longValue hi lo)) := by
  obtain ⟨h₀, h₁⟩ := longValue_bounds (longBits_spec hs).2 h
  rw [← pair_div_mod s h₀ (lt_two_pow_rawBits hs h₁), longValue_div h.1, longValue_mod h.1]

/-- LGETBIT's answer: a bit of the half that holds it is a bit of the full value (R142). -/
theorem value_bit_half {s : State} (hs : SizesOk s.params) {hi lo c : Int} (h : IsLongPair s.params.longBits hi lo)
    (hc : IsPosition s.params.longBits c) :
    (if c < 32 then Answer.value (bit lo c.toNat) else .value (bit hi (c - 32).toNat)) =
      .ok { r0 := flag ((word s (longValue hi lo)).getLsbD c.toNat) } := by
  obtain ⟨hc₀, hc₁⟩ := hc
  have hsize := longBits_spec hs
  rw [flag_word s _ (by omega), bit_longValue h.1]
  by_cases hhalf : c < 32
  · rw [if_pos hhalf, if_pos (by omega), Answer.value]
  · have hsub : (c - 32).toNat = c.toNat - 32 := by omega
    rw [if_neg hhalf, if_neg (by omega), hsub, Answer.value]

/-- LSETBIT's and LCLRBIT's answer: forcing a bit in the half that holds it makes a legal pair again, that of the full
value with the bit forced (R143, R144). -/
theorem pair_putBitAt_half {s : State} (hs : SizesOk s.params) {b : Bool} {hi lo c : Int}
    (h : IsLongPair s.params.longBits hi lo) (hc : IsPosition s.params.longBits c) :
    (if c < 32 then Answer.pair hi (putBitAt b lo c.toNat) else .pair (putBitAt b hi (c - 32).toNat) lo) =
      splitAnswer (word s (putBitAt b (longValue hi lo) c.toNat)) := by
  obtain ⟨hc₀, hc₁⟩ := hc
  obtain ⟨⟨hlo₀, hlo₁⟩, hhi₀, hhi₁⟩ := h
  by_cases hhalf : c < 32
  · have hlo := putBitAt_bounds (b := b) hlo₀ hlo₁ (n := c.toNat) (by omega)
    rw [if_pos hhalf, pair_longValue hs ⟨hlo, hhi₀, hhi₁⟩, longValue_putBitAt_low ⟨hlo₀, hlo₁⟩ (by omega)]
  · have hsub : (c - 32).toNat = c.toNat - 32 := by omega
    have hhi := putBitAt_bounds (b := b) hhi₀ hhi₁ (n := c.toNat - 32) (by omega)
    rw [if_neg hhalf, hsub, pair_longValue hs ⟨⟨hlo₀, hlo₁⟩, hhi⟩, longValue_putBitAt_high ⟨hlo₀, hlo₁⟩ (by omega)]

/-- LCHUNK's answer: a chunk of the full value is a field of its word; the field's lowest bit is counted on the ports
(R145). -/
theorem value_chunk_longValue {s : State} (hs : SizesOk s.params) {hi lo left size : Int}
    (h : IsLongPair s.params.longBits hi lo) (hchunk : IsChunk s.params.longBits left size) :
    Answer.value (chunk (longValue hi lo) left.toNat size.toNat) =
      .ok { r0 := ((word s (longValue hi lo)).extractLsb' (left + 1 - size).toNat size.toNat).toNat } := by
  obtain ⟨⟨hleft, -⟩, hsize, hle⟩ := hchunk
  obtain ⟨h₀, h₁⟩ := longValue_bounds (longBits_spec hs).2 h
  have hstart : (left + 1 - size).toNat = left.toNat + 1 - size.toNat := by omega
  rw [hstart, ← chunk_word s h₀ (lt_two_pow_rawBits hs h₁), Answer.value]

/-! ## How a long command ends (R140) -/

/-- A command that tests the pair and then its other operands: RANGE when one of the tests fails. -/
theorem ends_long {s : State} {pairOk operandOk legal : Prop} [Decidable pairOk] [Decidable operandOk] [Decidable legal]
    {a b : Answer} (hiff : pairOk ∧ operandOk ↔ legal) (h : pairOk → operandOk → a = b) :
    Ends s (answer s (if ¬ pairOk then .raise .range else if ¬ operandOk then .raise .range else a))
      (if legal then b else .raise .range) := by
  rw [← ite_or]
  refine ends_guarded (by rw [← hiff, not_and_or]) fun hlegal => ends_of_eq ?_
  obtain ⟨hpair, hoperand⟩ := hiff.mpr hlegal
  exact h hpair hoperand

/-- Both outcomes of a command whose rule begins with a test of the operands. -/
theorem ends_cases {s : State} {o : Result} {legal : Prop} [Decidable legal] {a b : Answer}
    (h : Ends s o (if legal then a else b)) : (legal → Ends s o a) ∧ (¬ legal → Ends s o b) :=
  ⟨fun hlegal => by rwa [if_pos hlegal] at h, fun hillegal => by rwa [if_neg hillegal] at h⟩

/-! ## The commands (R141 to R144) -/

theorem ends_lhilo {s : State} (hs : SizesOk s.params) (hraw : Raw s.params s.ports.a) :
    Ends s (exec .lhilo s) (if 0 ≤ s.ports.a then splitAnswer (word s s.ports.a) else .raise .range) :=
  ends_guarded Int.not_le.symm fun h₀ => ends_of_eq (pair_div_mod s h₀ (lt_two_pow_rawBits hs hraw.2))

theorem ends_lgetbit {s : State} (hs : SizesOk s.params) :
    Ends s (exec .lgetbit s)
      (if LongOperands s then .ok { r0 := flag ((word s (longValue s.A s.B)).getLsbD s.C.toNat) }
      else .raise .range) :=
  ends_long (longOperands_iff hs) (value_bit_half hs)

theorem ends_lsetbit {s : State} (hs : SizesOk s.params) :
    Ends s (exec .lsetbit s)
      (if LongOperands s then splitAnswer (word s (longValue s.A s.B) ||| word s 1 <<< s.C.toNat)
      else .raise .range) := by
  rw [← word_putBitAt_true]
  exact ends_long (longOperands_iff hs) (pair_putBitAt_half (b := true) hs)

theorem ends_lclrbit {s : State} (hs : SizesOk s.params) :
    Ends s (exec .lclrbit s)
      (if LongOperands s then splitAnswer (word s (longValue s.A s.B) &&& ~~~(word s 1 <<< s.C.toNat))
      else .raise .range) := by
  rw [← word_putBitAt_false]
  refine ends_long (longOperands_iff hs) fun hpair hpos => ?_
  rw [← putBitAt_false, ← putBitAt_false]
  exact pair_putBitAt_half hs hpair hpos

end Sys2Proof.Machine.Laws

namespace Sys2Proof.Proofs

open Sys2Proof.Machine Sys2Proof.Machine.Laws Sys2Proof.Safety

/-- Settles O33: LHILO splits the full value; the other three act on the half that holds the bit, which is acting on
that bit of the full value. -/
theorem longBits : Obligations.LongBits := by
  refine ⟨rfl, rfl, rfl, rfl, fun s hs => ?_⟩
  obtain ⟨hgetOk, hgetRange⟩ := ends_cases (ends_lgetbit hs)
  obtain ⟨hsetOk, hsetRange⟩ := ends_cases (ends_lsetbit hs)
  obtain ⟨hclrOk, hclrRange⟩ := ends_cases (ends_lclrbit hs)
  refine ⟨ends_lhilo hs, fun hlegal => ?_,
    fun hillegal => ⟨hgetRange hillegal, hsetRange hillegal, hclrRange hillegal⟩⟩
  rw [word_longValue s hlegal.1]
  exact ⟨hgetOk hlegal, hsetOk hlegal, hclrOk hlegal⟩

/-- Settles O34: the field of a legal pair's full value is the field of the halves joined as words. -/
theorem longField : Obligations.LongField := by
  refine ⟨rfl, fun s hs => ends_long (longChunk_iff hs) fun hpair hchunk => ?_⟩
  rw [word_longValue (hi := s.ports.a) (lo := s.ports.b) s hpair.1]
  exact value_chunk_longValue hs hpair hchunk

end Sys2Proof.Proofs

/-! # Policy arithmetic (R82, R150 to R157) -/

namespace Sys2Proof.Laws

open Sys2Proof.Safety

/-- A format P word as the sum of its fields (R81, R82). -/
theorem toNat_ofP {wMax : Nat} {d : Desc} (hd : d.wf wMax = true) (opc : BitVec 8) (pol : Policy) :
    (Fields.ofP opc pol d).toWord.toNat = opc.toNat * 2 ^ 24 + policyCode pol * 2 ^ 21 + descWord d := by
  have hs : d.signed.toNat = if d.signed then 1 else 0 := by cases d.signed <;> rfl
  have hu : false.toNat = 0 := rfl
  have himm : (0#12).toNat = 0 := rfl
  rw [toWord_toNat]
  simp only [Fields.ofP, (policy_field pol).2, width_field hd, hs, hu, himm, descWord]
  omega

/-- A format P word of a signed descriptor: the `S` bit is part of the opcode's constant (R88, R89 g). -/
theorem toNat_ofP_signed {wMax w : Nat} (hw : Desc.wf wMax ⟨w, true⟩ = true) (opc : BitVec 8) (pol : Policy) :
    (Fields.ofP opc pol ⟨w, true⟩).toWord.toNat =
      (opc.toNat * 2 ^ 24 + 2 ^ 20) + policyCode pol * 2 ^ 21 + w * 2 ^ 12 := by
  rw [toNat_ofP hw, descWord, if_pos rfl, one_mul]
  ac_rfl

end Sys2Proof.Laws

namespace Sys2Proof.Machine.Laws

open Sys2Proof.Safety

/-- A command whose value operands must be valid (R151): unspecified when they are not, the policy of its exact result
when they are. -/
theorem ends_policy {s : State} {d : Desc} (hd : 1 ≤ d.width) {invalid valid : Prop} [Decidable invalid]
    [Decidable valid] (hiff : invalid ↔ ¬ valid) (pol : Policy) (e : Int) :
    Ends s (answer s (if invalid then .unspecified else applyPolicy s.assertEn pol d e))
      (if valid then policyOutcome s.assertEn pol d e else .unspecified) := by
  apply ends_of_eq
  rw [policyOutcome_eq hd]
  by_cases hv : valid
  · rw [if_neg fun hi => hiff.mp hi hv, if_pos hv]
  · rw [if_pos (hiff.mpr hv), if_neg hv]

/-- The case of two value operands: their two tests are one. -/
theorem ends_policy₂ {s : State} {d : Desc} (hd : 1 ≤ d.width) (pol : Policy) (e : Int) :
    Ends s (answer s (if ¬ InRange d s.A ∨ ¬ InRange d s.B then .unspecified else applyPolicy s.assertEn pol d e))
      (if Valid d s.ports.a ∧ Valid d s.ports.b then policyOutcome s.assertEn pol d e else .unspecified) :=
  ends_policy hd (not_and_or (a := InRange d s.A) (b := InRange d s.B)).symm pol e

/-- FIT has no value operand; its unchecked form applies no policy (R152). -/
theorem ends_fit {s : State} {d : Desc} (hd : 1 ≤ d.width) (pol : Policy) :
    Ends s (exec (.fit pol d) s)
      (if pol = .unchecked then .ok { r0 := s.ports.a } else policyOutcome s.assertEn pol d s.ports.a) := by
  rw [← policyOutcome_eq hd]
  exact ends_answer s _

/-- NEG is the policy of the signed descriptor on the exact negation (R157). -/
theorem ends_neg {s : State} {w : Nat} (hw : 1 ≤ w) (pol : Policy) :
    Ends s (exec (.neg pol w) s)
      (if Valid ⟨w, true⟩ s.ports.a then policyOutcome s.assertEn pol ⟨w, true⟩ (-s.ports.a) else .unspecified) :=
  ends_policy (d := ⟨w, true⟩) hw Iff.rfl pol (-s.A)

end Sys2Proof.Machine.Laws

namespace Sys2Proof.Proofs

open Sys2Proof.Machine Sys2Proof.Machine.Laws Sys2Proof.Safety Sys2Proof.Laws

/-- Settles O35: FIT and NEG answer the policy of the raw value and of its negation; the policy of the integers is that
of the bit patterns. -/
theorem fitAndNegation : Obligations.FitAndNegation := by
  refine fun s pol => ⟨fun d hd => ?_, fun w hw => ?_⟩
  · obtain ⟨hwidth, -, -⟩ := width_of_wf hd
    exact ⟨toNat_ofP hd 0x30#8 pol, ends_fit hwidth pol⟩
  · obtain ⟨hwidth, -, -⟩ := width_of_wf hw
    exact ⟨toNat_ofP_signed hw 0x35#8 pol, ends_neg hwidth pol⟩

/-- Settles O36: the three commands test both operands alike and differ in the exact result alone. -/
theorem sumsAndProducts : Obligations.SumsAndProducts := by
  intro s pol d hd
  obtain ⟨hwidth, -, -⟩ := width_of_wf hd
  exact ⟨toNat_ofP hd 0x31#8 pol, toNat_ofP hd 0x32#8 pol, toNat_ofP hd 0x33#8 pol,
    ends_policy₂ hwidth pol (s.A + s.B), ends_policy₂ hwidth pol (s.A - s.B), ends_policy₂ hwidth pol (s.A * s.B)⟩

end Sys2Proof.Proofs

/-! # Descriptor bit operations (R81, R83, R170 to R185, R189) -/

namespace Sys2Proof.Laws

open Sys2Proof.Safety

/-- A format E word as the sum of its fields (R81). -/
theorem toNat_ofE {wMax : Nat} {d : Desc} (hd : d.wf wMax = true) (opc : BitVec 8) (u : Bool) :
    (Fields.ofE opc d u).toWord.toNat = opc.toNat * 2 ^ 24 + descWord d + uncheckedWord u := by
  have hs : d.signed.toNat = if d.signed then 1 else 0 := by cases d.signed <;> rfl
  have hu : u.toNat = if u then 1 else 0 := by cases u <;> rfl
  have hpol : (0#3).toNat = 0 := rfl
  have himm : (0#12).toNat = 0 := rfl
  rw [toWord_toNat]
  simp only [Fields.ofE, width_field hd, hs, hu, hpol, himm, descWord, uncheckedWord]
  omega

/-- A format D word as the sum of its fields: that of format E with `U = 0` (R81, R83). -/
theorem toNat_ofD {wMax : Nat} {d : Desc} (hd : d.wf wMax = true) (opc : BitVec 8) :
    (Fields.ofD opc d).toWord.toNat = opc.toNat * 2 ^ 24 + descWord d := by
  have hu : uncheckedWord false = 0 := rfl
  rw [show Fields.ofD opc d = Fields.ofE opc d false from rfl, toNat_ofE hd, hu, Nat.add_zero]

end Sys2Proof.Laws

namespace Sys2Proof.Machine.Laws

open Sys2Proof.Safety

/-! ## How a descriptor bit operation ends (R13, R189) -/

/-- The frame of format D, on the integers and in the statements' words: an invalid value operand leaves the response
free (R189 a). -/
theorem validAnswer_eq {d : Desc} {a : Int} {x y : Answer} (h : x = y) :
    validAnswer d a x = if Valid d a then y else .unspecified := by
  rw [validAnswer, ite_not, h]
  rfl

theorem ends_valid {s : State} {d : Desc} {a : Int} {x y : Answer} (h : x = y) :
    Ends s (answer s (validAnswer d a x)) (if Valid d a then y else .unspecified) := ends_of_eq (validAnswer_eq h)

theorem ends_of_valid {s : State} {d : Desc} {a : Int} {x y : Answer} (hv : Valid d a) (h : x = y) :
    Ends s (answer s (validAnswer d a x)) y := (ends_cases (ends_valid h)).1 hv

theorem ends_of_not_valid {s : State} {d : Desc} {a : Int} {x : Answer} (hv : ¬ Valid d a) :
    Ends s (answer s (validAnswer d a x)) .unspecified := (ends_cases (ends_valid rfl)).2 hv

/-- The frame of format E, on the integers and in the statements' words. Bounds that hold leave the validity of the
operand to test; bad bounds are RANGE first of all in the checked variant, and in the unchecked one they leave the
response free whether or not the operand is valid (R189 c, e, f). -/
theorem boundedAnswer_eq {d : Desc} {u : Bool} {a : Int} {good legal : Prop} [Decidable good] [Decidable legal]
    {x : Answer} {r : Results} (hiff : good ↔ legal) (h : legal → x = .ok r) :
    boundedAnswer d u a good x = boundedOutcome d u a legal r := by
  by_cases hl : legal
  · have hg := hiff.mpr hl
    have hpass (v : Bool) : ¬ (u = v ∧ ¬ good) := fun hbad => hbad.2 hg
    rw [boundedOutcome, if_pos hl, ← validAnswer_eq (h hl), boundedAnswer, if_neg (hpass false), if_neg (hpass true),
      validAnswer]
  · have hg : ¬ good := fun c => hl (hiff.mp c)
    cases u with
    | false => simp [boundedAnswer, boundedOutcome, hg, hl]
    | true => simp [boundedAnswer, boundedOutcome, hg, hl]

theorem ends_bounded {s : State} {d : Desc} {u : Bool} {a : Int} {good legal : Prop} [Decidable good]
    [Decidable legal] {x : Answer} {r : Results} (hiff : good ↔ legal) (h : legal → x = .ok r) :
    Ends s (answer s (boundedAnswer d u a good x)) (boundedOutcome d u a legal r) :=
  ends_of_eq (boundedAnswer_eq hiff h)

/-- A rotation of the pattern: RANGE for a negative count, before the validity of the operand (R183, R184). -/
theorem ends_rotation {s : State} {d : Desc} {a n : Int} {x y : Answer} (h : x = y) :
    Ends s (answer s (if n < 0 then .raise .range else validAnswer d a x))
      (if n < 0 then .raise .range else if Valid d a then y else .unspecified) := by
  rw [← validAnswer_eq h]
  exact ends_answer s _

/-! ## Single bits of the pattern (R170 to R173) -/

/-- The pattern with bit `n` alone. -/
theorem getLsbD_one_shiftLeft_of_lt {w i : Nat} (n : Nat) (hi : i < w) :
    (1#w <<< n).getLsbD i = decide (i = n) := by
  rw [← BitVec.twoPow_eq, BitVec.getLsbD_twoPow]
  by_cases h : i = n
  · simp [← h, hi]
  · simp [h, Ne.symm h]

theorem patVal_setBitAt {d : Desc} (hw : 1 ≤ d.width) (a : Int) (n : Nat) :
    patVal d (setBitAt (pat d a) n) = valueOf d (patternOf d a ||| 1#d.width <<< n) :=
  patVal_of_bits hw fun i hi => by
    rw [bit_setBitAt, bit_pat, BitVec.getLsbD_or, getLsbD_one_shiftLeft_of_lt n hi]
    by_cases h : i = n <;> simp [h]

theorem patVal_togBitAt {d : Desc} (hw : 1 ≤ d.width) (a : Int) (n : Nat) :
    patVal d (togBitAt (pat d a) n) = valueOf d (patternOf d a ^^^ 1#d.width <<< n) :=
  patVal_of_bits hw fun i hi => by
    rw [bit_togBitAt, bit_pat, bit_pat, BitVec.getLsbD_xor, getLsbD_one_shiftLeft_of_lt n hi]
    by_cases h : i = n
    · subst h
      cases (patternOf d a).getLsbD i <;> simp
    · simp [h]

/-! ## Counts and runs of the pattern (R174 to R179) -/

theorem popcount_pat (d : Desc) (a : Int) : popcount d.width (pat d a) = onesBelow d.width (patternOf d a) := by
  rw [popcount_eq, onesBelow]
  congr 2
  funext i
  rw [bit_pat]
  cases (patternOf d a).getLsbD i <;> rfl

/-- The ones of a word and the ones of its complement make up its width. -/
theorem onesBelow_add_onesBelow_not {w : Nat} (x : BitVec w) : onesBelow w x + onesBelow w (~~~x) = w := by
  have hnot : onesBelow w (~~~x) = (List.range w).countP fun i => decide ¬ x.getLsbD i = true :=
    List.countP_congr fun i hi => by simp [List.mem_range.mp hi]
  rw [hnot, onesBelow, ← List.length_eq_countP_add_countP, List.length_range]

/-- CNT0: what is not a one is a zero (R175). -/
theorem width_sub_popcount_pat (d : Desc) (a : Int) :
    (d.width : Int) - popcount d.width (pat d a) = onesBelow d.width (~~~patternOf d a) := by
  rw [popcount_pat]
  have hsum := onesBelow_add_onesBelow_not (patternOf d a)
  omega

theorem bit_pat_eq_flag_iff (d : Desc) (a : Int) (i : Nat) (b : Bool) :
    bit (pat d a) i = flag b ↔ (patternOf d a).getLsbD i = b := by
  rw [bit_pat]
  cases (patternOf d a).getLsbD i <;> cases b <;> decide

/-- CLO and CLZ: the run at the pattern's top (R176, R177). -/
theorem leadingRun_pat (d : Desc) (a : Int) (b : Bool) :
    ∃ k : Nat, RunLength (patternOf d a) b d.width (fun j => d.width - 1 - j) k ∧
      leadingRun (flag b) d.width (pat d a) = k := by
  obtain ⟨k, hk, hle, hall, hstop⟩ := leadingRun_spec (flag b) d.width (pat d a)
  exact ⟨k, ⟨hle, fun j hj => (bit_pat_eq_flag_iff ..).mp (hall j hj),
    fun hlt => (bit_pat_eq_flag_iff ..).not.mp (hstop hlt)⟩, hk⟩

/-- CTO and CTZ: the run at the pattern's bottom (R178, R179). -/
theorem trailingRun_pat (d : Desc) (a : Int) (b : Bool) :
    ∃ k : Nat, RunLength (patternOf d a) b d.width (fun j => j) k ∧
      trailingRun (flag b) d.width (pat d a) = k := by
  obtain ⟨k, hk, hle, hall, hstop⟩ := trailingRun_spec (flag b) d.width (pat d a)
  exact ⟨k, ⟨hle, fun j hj => (bit_pat_eq_flag_iff ..).mp (hall j hj),
    fun hlt => (bit_pat_eq_flag_iff ..).not.mp (hstop hlt)⟩, hk⟩

/-- A command that answers the length of a run, for a valid operand. -/
theorem ends_run {s : State} {d : Desc} {a x : Int} {Run : Nat → Prop} (hv : Valid d a)
    (h : ∃ k : Nat, Run k ∧ x = k) :
    ∃ k : Nat, Run k ∧ Ends s (answer s (validAnswer d a (.value x))) (.ok { r0 := k }) := by
  obtain ⟨k, hrun, rfl⟩ := h
  exact ⟨k, hrun, ends_of_valid hv rfl⟩

/-! ## Fields of the pattern (R180 to R182) -/

/-- A chunk of the pattern is its field of `size` bits below `left` (R12). -/
theorem chunk_pat (d : Desc) (a : Int) (left size : Nat) :
    chunk (pat d a) left size = (((patternOf d a).extractLsb' (left + 1 - size) size).toNat : Int) := by
  rw [pat_eq, chunk, BitVec.extractLsb'_toNat, Nat.shiftRight_eq_div_pow]
  push_cast
  rfl

/-- DCHUNK's answer: the field's lowest bit is counted on the ports (R180). -/
theorem chunk_pat_of_size (d : Desc) (a : Int) {left size : Int} (hleft : 0 ≤ left) (hsize : 0 < size)
    (hle : size ≤ left + 1) : chunk (pat d a) left.toNat size.toNat =
      (((patternOf d a).extractLsb' (left + 1 - size).toNat size.toNat).toNat : Int) := by
  have hstart : left.toNat + 1 - size.toNat = (left + 1 - size).toNat := by omega
  rw [chunk_pat, hstart]

/-- DSLICE's answer: the field's size is counted on the ports (R181). -/
theorem chunk_pat_of_right (d : Desc) (a : Int) {left right : Int} (hright : 0 ≤ right) (hle : right ≤ left) :
    chunk (pat d a) left.toNat (left - right + 1).toNat =
      (((patternOf d a).extractLsb' right.toNat (left + 1 - right).toNat).toNat : Int) := by
  have hsize : (left - right + 1).toNat = (left + 1 - right).toNat := by omega
  have hstart : left.toNat + 1 - (left + 1 - right).toNat = right.toNat := by omega
  rw [hsize, chunk_pat, hstart]

/-- The word on port D has the low bits of that port's pattern, as wide as the pattern is. -/
theorem bit_uD_eq_patternOf {s : State} {d : Desc} (hwidth : d.width ≤ s.params.rawBits) {i : Nat}
    (hi : i < d.width) : bit s.uD i = if (patternOf d s.ports.d).getLsbD i then 1 else 0 := by
  rw [State.uD, uword, bit_low (by omega), ← bit_pat, pat, bit_low hi]

/-- DREPL's answer: inside the range the bits of the replacement, outside it the old bits (R182). -/
theorem patVal_replaceBits {s : State} {d : Desc} (hw : 1 ≤ d.width) (hwidth : d.width ≤ s.params.rawBits) (a : Int)
    {left right : Nat} (hle : right ≤ left) :
    patVal d (replaceBits (pat d a) left right s.uD) =
      valueOf d (wordOf fun i => if right ≤ i ∧ i ≤ left then (patternOf d s.ports.d).getLsbD (i - right)
        else (patternOf d a).getLsbD i) :=
  patVal_of_bits hw fun i hi => by
    rw [bit_replaceBits _ _ hle, wordOf_bit, decide_eq_true hi, Bool.true_and]
    by_cases hin : right ≤ i ∧ i ≤ left
    · rw [if_pos hin, if_pos hin, bit_uD_eq_patternOf hwidth (by omega)]
    · rw [if_neg hin, if_neg hin, bit_pat]

/-- A legal descriptor's width leaves room in a word: `WMAX` is at most `RAWBITS - 1` (R5). -/
theorem width_le_rawBits {p : Params} (hs : SizesOk p) {d : Desc} (hd : d.wf p.wMax = true) :
    d.width ≤ p.rawBits := by
  obtain ⟨-, hmax, -⟩ := width_of_wf hd
  have hsize := hs.wMax
  omega

/-! ## Rotation and sign extension of the pattern (R183 to R185) -/

theorem patVal_rotl {d : Desc} (hw : 1 ≤ d.width) (a : Int) (n : Nat) :
    patVal d (rotl d.width (pat d a) n) = valueOf d ((patternOf d a).rotateLeft n) := by
  obtain ⟨h₀, h₁⟩ := pat_bounds d a
  have hk : n % d.width ≤ d.width := (Nat.mod_lt n hw).le
  refine patVal_of_bits hw fun i hi => ?_
  rw [rotl_eq, mul_pow_emod hk, bit_exchange h₀ h₁ hk, if_pos hi, BitVec.getLsbD_rotateLeft, bit_pat, bit_pat]
  by_cases htop : i < n % d.width
  · simp [htop]
  · simp [htop, hi]

theorem patVal_rotr {d : Desc} (hw : 1 ≤ d.width) (a : Int) (n : Nat) :
    patVal d (rotr d.width (pat d a) n) = valueOf d ((patternOf d a).rotateRight n) := by
  obtain ⟨h₀, h₁⟩ := pat_bounds d a
  have hk : d.width - (d.width - n % d.width) = n % d.width := Nat.sub_sub_self (Nat.mod_lt n hw).le
  refine patVal_of_bits hw fun i hi => ?_
  have hbit := bit_exchange h₀ h₁ (Nat.sub_le d.width (n % d.width)) i
  rw [hk] at hbit
  rw [rotr, hbit, if_pos hi, BitVec.getLsbD_rotateRight, bit_pat, bit_pat]
  by_cases hlow : i < d.width - n % d.width
  · simp [hlow]
  · simp [hlow, hi]

/-- DSEXT's answer: the low `n` bits read as a signed number of `n` bits, at the descriptor's width (R185). -/
theorem patVal_signExtendBits {d : Desc} (a : Int) {n : Nat} (hn : 1 ≤ n) (hlt : n < d.width) :
    patVal d (signExtendBits (pat d a) n d.width) =
      valueOf d (((patternOf d a).setWidth n).signExtend d.width) :=
  patVal_of_bits (by omega) fun i hi => by
    rw [bit_signExtendBits _ hlt.le, BitVec.getLsbD_signExtend, BitVec.msb_setWidth, BitVec.getLsbD_setWidth, bit_pat,
      bit_pat]
    by_cases hlow : i < n
    · simp [hlow, hi, Nat.not_le.mpr hlow]
    · simp [hlow, hi, Nat.not_lt.mp hlow, Nat.lt_of_succ_le hn]

end Sys2Proof.Machine.Laws

namespace Sys2Proof.Proofs

open Sys2Proof.Machine Sys2Proof.Machine.Laws Sys2Proof.Safety Sys2Proof.Laws

/-- Settles O40: a bit set or inverted in the number is set or inverted in the pattern, whose value is answered. -/
theorem patternBits : Obligations.PatternBits := by
  intro s d u hd
  obtain ⟨hw, -, -⟩ := width_of_wf hd
  exact ⟨toNat_ofD hd 0x40#8, toNat_ofE hd 0x41#8 u, toNat_ofE hd 0x42#8 u, toNat_ofE hd 0x43#8 u,
    ends_valid (congrArg Answer.value (pat_eq d _)),
    ends_bounded Iff.rfl fun _ => congrArg Answer.value (bit_pat d _ _),
    ends_bounded Iff.rfl fun _ => congrArg Answer.value (patVal_setBitAt hw _ _),
    ends_bounded Iff.rfl fun _ => congrArg Answer.value (patVal_togBitAt hw _ _)⟩

/-- Settles O41: the counts and the runs of the number's bits are those of the pattern. -/
theorem bitCounts : Obligations.BitCounts := by
  intro s d hd
  refine ⟨toNat_ofD hd 0x44#8, toNat_ofD hd 0x45#8, toNat_ofD hd 0x46#8, toNat_ofD hd 0x47#8, toNat_ofD hd 0x48#8,
    toNat_ofD hd 0x49#8, fun hv => ?_, fun hv => ?_⟩
  · exact ⟨ends_of_valid hv (congrArg Answer.value (popcount_pat d _)),
      ends_of_valid hv (congrArg Answer.value (width_sub_popcount_pat d _)),
      ends_run hv (leadingRun_pat d _ true), ends_run hv (leadingRun_pat d _ false),
      ends_run hv (trailingRun_pat d _ true), ends_run hv (trailingRun_pat d _ false)⟩
  · simp only [List.forall_mem_cons, List.not_mem_nil, false_implies, implies_true, and_true]
    exact ⟨ends_of_not_valid hv, ends_of_not_valid hv, ends_of_not_valid hv, ends_of_not_valid hv,
      ends_of_not_valid hv, ends_of_not_valid hv⟩

/-- Settles O42: DCHUNK and DSLICE answer a field of the pattern; DREPL's replacement is the pattern of port D, which
the port's word holds because a width is below RAWBITS. -/
theorem patternFields : Obligations.PatternFields := by
  intro s d u hd
  obtain ⟨hw, -, -⟩ := width_of_wf hd
  refine ⟨toNat_ofE hd 0x4A#8 u, toNat_ofE hd 0x4B#8 u, toNat_ofE hd 0x4C#8 u, ends_bounded ?_ ?_,
    ends_bounded Iff.rfl ?_, fun hs => ends_bounded Iff.rfl ?_⟩
  · rw [B_eq, C_eq]
    omega
  · rintro ⟨⟨hleft, -⟩, hsize, hle⟩
    exact congrArg Answer.value (chunk_pat_of_size d _ hleft hsize hle)
  · rintro ⟨-, hright, hle⟩
    exact congrArg Answer.value (chunk_pat_of_right d _ hright hle)
  · rintro ⟨-, -, hle⟩
    exact congrArg Answer.value (patVal_replaceBits hw (width_le_rawBits hs hd) _ (Int.toNat_le_toNat hle))

/-- Settles O43: rotating and extending the number's low bits is rotating and extending the pattern. -/
theorem patternRotations : Obligations.PatternRotations := by
  intro s d hd
  obtain ⟨hw, -, -⟩ := width_of_wf hd
  refine ⟨toNat_ofD hd 0x4D#8, toNat_ofD hd 0x4E#8, toNat_ofD hd 0x4F#8,
    ends_rotation (congrArg Answer.value (patVal_rotl hw _ _)),
    ends_rotation (congrArg Answer.value (patVal_rotr hw _ _)), ends_guarded ?_ ?_⟩
  · rw [B_eq]
    omega
  · rintro ⟨hn, hlt⟩
    exact ends_valid (congrArg Answer.value (patVal_signExtendBits _ (Int.toNat_le_toNat hn) (by rw [B_eq]; omega)))

end Sys2Proof.Proofs

/-! # Descriptor math and comparisons (R200 to R203, R206 to R212) -/

namespace Sys2Proof.Machine.Laws

open Sys2Proof.Safety

/-- A valid operand lies below `2^W`, the bound of the searches for a root and a logarithm (R9). -/
theorem lt_two_pow_width_of_valid {d : Desc} (hw : 1 ≤ d.width) {a : Int} (hv : Valid d a) : a < 2 ^ d.width :=
  lt_of_le_of_lt hv.2 (bounds_lt hw).2

/-! ## How a command with a precondition ends (R212) -/

section Precondition

variable {s : State} {d : Desc} {a : Int} {fails : Prop} [Decidable fails] {x y : Answer}

/-- A failed precondition is ASSERTION where ASSERT_EN is set, and leaves the response free where it is not (R212 c). -/
theorem ends_of_precond_fails (hv : Valid d a) (hf : fails) :
    Ends s (answer s (validAnswer d a (if fails then precondFail s.assertEn else x)))
      (if s.assertEn then .raise .assertion else .unspecified) :=
  ends_of_valid hv (if_pos hf)

theorem ends_of_precond_holds (hv : Valid d a) (hf : ¬ fails) (h : x = y) :
    Ends s (answer s (validAnswer d a (if fails then precondFail s.assertEn else x))) y :=
  ends_of_valid hv ((if_neg hf).trans h)

end Precondition

/-! ## Square root (R200) -/

/-- A root whose square is at most `a` is at most every root whose successor's square exceeds `a`. -/
theorem root_le_root {a r q : Int} (hq : 0 ≤ q) (hr : r * r ≤ a) (hlt : a < (q + 1) * (q + 1)) : r ≤ q :=
  Int.lt_add_one_iff.mp (lt_of_mul_self_lt_mul_self₀ (by omega) (hr.trans_lt hlt))

/-- The floor square root is the only number with its property. -/
theorem sqrtFloor_eq {w : Nat} {a : Int} {r : Nat} (ha : a < 2 ^ w) (hle : (r : Int) * r ≤ a)
    (hlt : a < ((r : Int) + 1) * (r + 1)) : sqrtFloor w a = r := by
  have h₀ : 0 ≤ a := (mul_self_nonneg (r : Int)).trans hle
  obtain ⟨hq₀, hqle, hqlt⟩ := sqrtFloor_spec h₀ ha
  exact le_antisymm (root_le_root r.cast_nonneg hqle hlt) (root_le_root hq₀ hle hqlt)

/-! ## Logarithms (R201 to R203) -/

/-- An exponent whose power is at most `a` is at most every exponent whose successor's power exceeds `a`. -/
theorem exponent_le_exponent {base a : Int} {k j : Nat} (hb : 2 ≤ base) (hk : base ^ k ≤ a) (hlt : a < base ^ (j + 1)) :
    k ≤ j :=
  Nat.lt_succ_iff.mp ((pow_lt_pow_iff_right₀ (by omega)).mp (hk.trans_lt hlt))

/-- A number at or above a power of the base is positive. -/
theorem pos_of_pow_le {base a : Int} {k : Nat} (hb : 2 ≤ base) (hle : base ^ k ≤ a) : 0 < a :=
  (pow_pos (by omega) k).trans_le hle

/-- The floor logarithm is the only number with its property. -/
theorem logFloor_eq {w : Nat} {base a : Int} {k : Nat} (hb : 2 ≤ base) (ha : a < 2 ^ w) (hle : base ^ k ≤ a)
    (hlt : a < base ^ (k + 1)) : logFloor w base a = k := by
  obtain ⟨j, hj, hjle, hjlt⟩ := logFloor_spec hb (pos_of_pow_le hb hle) ha
  rw [hj, le_antisymm (exponent_le_exponent hb hjle hlt) (exponent_le_exponent hb hle hjlt)]

/-- The answer of the three logarithms as one function of the base. -/
def logAnswer (d : Desc) (en : Bool) (base a : Int) : Answer :=
  validAnswer d a (if a ≤ 0 ∨ base < 2 then precondFail en else .value (logFloor d.width base a))

theorem exec_log (s : State) (d : Desc) : exec (.log d) s = answer s (logAnswer d s.assertEn s.B s.A) := rfl

/-- A constant base of at least 2 needs no test (R202, R203). -/
theorem logAnswer_of_two_le {d : Desc} {en : Bool} {base a : Int} (hb : 2 ≤ base) :
    logAnswer d en base a =
      validAnswer d a (if a ≤ 0 then precondFail en else .value (logFloor d.width base a)) := by
  simp only [logAnswer, Int.not_lt.mpr hb, or_false]

theorem exec_log2 (s : State) (d : Desc) : exec (.log2 d) s = answer s (logAnswer d s.assertEn 2 s.A) := by
  rw [logAnswer_of_two_le (by decide)]
  rfl

theorem exec_log10 (s : State) (d : Desc) : exec (.log10 d) s = answer s (logAnswer d s.assertEn 10 s.A) := by
  rw [logAnswer_of_two_le (by decide)]
  rfl

/-! ## How a command with two value operands ends (R212) -/

/-- The frame of two value operands, on the integers and in the statements' words: their two tests are one. -/
theorem validPair_eq {d : Desc} {a b : Int} {x y : Answer} (h : Valid d a → Valid d b → x = y) :
    (if ¬ InRange d a ∨ ¬ InRange d b then .unspecified else x) =
      if Valid d a ∧ Valid d b then y else .unspecified := by
  by_cases hv : Valid d a ∧ Valid d b
  · rw [if_pos hv, ← h hv.1 hv.2]
    exact if_neg (not_or.mpr ⟨not_not_intro hv.1, not_not_intro hv.2⟩)
  · rw [if_neg hv]
    exact if_pos (not_and_or.mp hv)

/-! ## Remainders (R206, R207) -/

/-- A command that divides: DIVZERO for a zero divisor, before the validity of the operands. -/
def divisionAnswer (d : Desc) (a b x : Int) : Answer :=
  if b = 0 then .raise .divzero else if ¬ InRange d a ∨ ¬ InRange d b then .unspecified else .value x

theorem exec_rem (s : State) (d : Desc) : exec (.rem d) s = answer s (divisionAnswer d s.A s.B (s.A.tmod s.B)) := by
  rw [Int.tmod_def]
  rfl

theorem exec_mod (s : State) (d : Desc) : exec (.mod d) s = answer s (divisionAnswer d s.A s.B (s.A % s.B)) := by
  rw [← Int.emod_abs]
  rfl

theorem ends_division_by_zero {s : State} {d : Desc} {a b x : Int} (hb : b = 0) :
    Ends s (answer s (divisionAnswer d a b x)) (.raise .divzero) :=
  ends_of_eq (if_pos hb)

theorem ends_division {s : State} {d : Desc} {a b x : Int} (hb : b ≠ 0) :
    Ends s (answer s (divisionAnswer d a b x)) (if Valid d a ∧ Valid d b then .ok { r0 := x } else .unspecified) :=
  ends_of_eq ((if_neg hb).trans (validPair_eq fun _ _ => rfl))

/-- The remainder that is never negative is the only one. -/
theorem emod_eq_of_dvd_sub {a b r : Int} (hb : b ≠ 0) (hdvd : b ∣ a - r) (hlt : |r| < |b|) (hr : 0 ≤ r) :
    a % b = r := by
  rw [Int.emod_eq_iff hb, Int.natCast_natAbs]
  exact ⟨hr, (le_abs_self r).trans_lt hlt, dvd_sub_comm.mp hdvd⟩

/-- The remainder with the sign of the dividend is the only one: that of a negative dividend is the opposite of the
dividend's opposite's. -/
theorem tmod_eq_of_dvd_sub {a b r : Int} (hb : b ≠ 0) (hdvd : b ∣ a - r) (hlt : |r| < |b|)
    (hsign : (0 ≤ a ∧ 0 ≤ r) ∨ (a ≤ 0 ∧ r ≤ 0)) : a.tmod b = r := by
  rcases hsign with ⟨ha, hr⟩ | ⟨ha, hr⟩
  · rw [Int.tmod_eq_emod_of_nonneg ha, emod_eq_of_dvd_sub hb hdvd hlt hr]
  · have hneg : b ∣ -a - -r := by rw [neg_sub_neg]; exact dvd_sub_comm.mp hdvd
    have hopp : (-a).tmod b = -r := by
      rw [Int.tmod_eq_emod_of_nonneg (by omega), emod_eq_of_dvd_sub hb hneg (by rwa [abs_neg]) (by omega)]
    exact neg_injective ((Int.neg_tmod a b).symm.trans hopp)

/-! ## Comparisons (R208 to R211) -/

/-- The order of two patterns as the descriptor reads them. -/
def patternBelow (d : Desc) (x y : BitVec d.width) : Bool := if d.signed then x.slt y else x.ult y

/-- The order of the patterns is the order of their values. -/
theorem patternBelow_eq (d : Desc) (x y : BitVec d.width) :
    patternBelow d x y = decide (valueOf d x < valueOf d y) := by
  unfold patternBelow valueOf
  split
  · exact BitVec.slt_eq_decide
  · simp only [BitVec.ult, Int.ofNat_lt]

theorem patternBelow_of_valid {d : Desc} (hw : 1 ≤ d.width) {a b : Int} (ha : Valid d a) (hb : Valid d b) :
    patternBelow d (patternOf d a) (patternOf d b) = decide (a < b) := by
  rw [patternBelow_eq, valueOf_of_valid hw ha, valueOf_of_valid hw hb]

/-- A truth value on a port is a flag. -/
theorem truth_eq_flag {p : Prop} [Decidable p] {b : Bool} (h : b = decide p) :
    Answer.truth p = .ok { r0 := flag b } := by
  simp only [Answer.truth, Answer.value, flag, h, decide_eq_true_eq]

/-- A comparison whose test of two valid operands is the truth value `b`. -/
theorem ends_compare {s : State} {d : Desc} {p : Prop} [Decidable p] {b : Bool}
    (h : Valid d s.A → Valid d s.B → b = decide p) :
    Ends s (answer s (compareAnswer d s.A s.B p))
      (if Valid d s.ports.a ∧ Valid d s.ports.b then .ok { r0 := flag b } else .unspecified) :=
  ends_of_eq (validPair_eq fun ha hb => truth_eq_flag (h ha hb))

/-- The weak order is the opposite strict order negated. -/
theorem not_eq_decide_le {x y : Int} {p : Bool} (h : p = decide (x < y)) : (!p) = decide (y ≤ x) := by
  rw [h, ← decide_not, decide_eq_decide]
  exact not_lt

end Sys2Proof.Machine.Laws

namespace Sys2Proof.Proofs

open Sys2Proof.Machine Sys2Proof.Machine.Laws Sys2Proof.Safety Sys2Proof.Laws

/-- Settles O45: the search finds a floor square root, and there is only one. -/
theorem squareRoot : Obligations.SquareRoot := by
  intro s d hd
  obtain ⟨hw, -, -⟩ := width_of_wf hd
  refine ⟨toNat_ofD hd 0x52#8, fun r hle hlt hv => ?_, fun hneg hv => ends_of_precond_fails hv hneg,
    fun hv => ends_of_not_valid hv⟩
  have hnonneg : ¬ s.A < 0 := not_lt.mpr ((mul_self_nonneg (r : Int)).trans hle)
  exact ends_of_precond_holds hv hnonneg
    (congrArg Answer.value (sqrtFloor_eq (lt_two_pow_width_of_valid hw hv) hle hlt))

/-- Settles O46: LOG2 and LOG10 are LOG with a base that is never too small; the search finds a floor logarithm, and
there is only one. -/
theorem logarithms : Obligations.Logarithms := by
  intro s d hd
  obtain ⟨hw, -, -⟩ := width_of_wf hd
  refine ⟨toNat_ofD hd 0x53#8, toNat_ofD hd 0x54#8, toNat_ofD hd 0x55#8, fun i base hi => ?_⟩
  have hexec : exec i s = answer s (logAnswer d s.assertEn base s.A) := by
    rcases hi with ⟨rfl, rfl⟩ | ⟨rfl, rfl⟩ | ⟨rfl, rfl⟩
    · exact exec_log s d
    · exact exec_log2 s d
    · exact exec_log10 s d
  rw [hexec]
  refine ⟨fun k hb hle hlt hv => ?_, fun hfails hv => ends_of_precond_fails hv hfails, fun hv => ends_of_not_valid hv⟩
  have hpos : 0 < s.A := pos_of_pow_le hb hle
  exact ends_of_precond_holds hv (by omega)
    (congrArg Answer.value (logFloor_eq hb (lt_two_pow_width_of_valid hw hv) hle hlt))

/-- Settles O49: a remainder is determined by its congruence, its magnitude and its sign. -/
theorem remainders : Obligations.Remainders := by
  intro s d hd
  refine ⟨toNat_ofD hd 0x58#8, toNat_ofD hd 0x59#8, ?_⟩
  rw [exec_rem, exec_mod]
  refine ⟨fun hb => ⟨ends_division_by_zero hb, ends_division_by_zero hb⟩,
    fun hb hv => ⟨(ends_cases (ends_division hb)).2 hv, (ends_cases (ends_division hb)).2 hv⟩,
    fun hb hv r hdvd hlt => ⟨fun hsign => ?_, fun hr => ?_⟩⟩
  · rw [← tmod_eq_of_dvd_sub hb hdvd hlt hsign]
    exact (ends_cases (ends_division hb)).1 hv
  · rw [← emod_eq_of_dvd_sub hb hdvd hlt hr]
    exact (ends_cases (ends_division hb)).1 hv

/-- Settles O50: valid operands are ordered as their patterns; CMPLE and CMPGE negate the opposite strict order. -/
theorem comparisons : Obligations.Comparisons := by
  intro s d hd
  obtain ⟨hw, -, -⟩ := width_of_wf hd
  have hlt (ha : Valid d s.A) (hb : Valid d s.B) := patternBelow_of_valid hw ha hb
  have hgt (ha : Valid d s.A) (hb : Valid d s.B) := patternBelow_of_valid hw hb ha
  exact ⟨toNat_ofD hd 0x60#8, toNat_ofD hd 0x61#8, toNat_ofD hd 0x62#8, toNat_ofD hd 0x63#8,
    ends_compare hlt, ends_compare fun ha hb => not_eq_decide_le (hgt ha hb),
    ends_compare hgt, ends_compare fun ha hb => not_eq_decide_le (hlt ha hb)⟩

end Sys2Proof.Proofs

/-! # The bitwise operators of the value types (R220 to R227) -/

namespace Sys2Proof.Machine.Laws

open Sys2Proof.Safety

/-! ## Operators on patterns (R220 to R224) -/

/-- The frame of AND, OR and XOR, on the integers and in the statements' words, for any operator on words that acts on
their numbers as `op` does. -/
theorem ends_patternOp {s : State} {d : Desc} (hw : 1 ≤ d.width) {op : Nat → Nat → Nat}
    {wordOp : BitVec d.width → BitVec d.width → BitVec d.width}
    (hop : ∀ x y : BitVec d.width, (wordOp x y).toNat = op x.toNat y.toNat) {a b : Int} :
    Ends s (answer s (patternOp op d a b))
      (if Valid d a ∧ Valid d b then .ok { r0 := valueOf d (wordOp (patternOf d a) (patternOf d b)) }
      else .unspecified) := by
  refine ends_of_eq (validPair_eq fun _ _ => ?_)
  rw [valueOf_eq hw, hop, pat_eq, pat_eq, Int.toNat_natCast, Int.toNat_natCast]
  rfl

/-- NOT's answer: the number of all ones less the pattern is the complement (R224). -/
theorem patVal_complement {d : Desc} (hw : 1 ≤ d.width) (a : Int) :
    patVal d (2 ^ d.width - 1 - pat d a) = valueOf d (~~~patternOf d a) := by
  have hlt : (patternOf d a).toNat < 2 ^ d.width := (patternOf d a).isLt
  have hnot : (2 : Int) ^ d.width - 1 - (patternOf d a).toNat = (~~~patternOf d a).toNat := by
    rw [BitVec.toNat_not, Nat.sub_sub, Nat.cast_sub (by omega)]
    push_cast
    ring
  rw [valueOf_eq hw, pat_eq, hnot]

/-! ## Shifts (R225 to R227) -/

/-- The frame of the three shifts: RANGE for a negative count, before the validity of the operand; the two results need
to agree for a valid operand only. -/
theorem ends_shift {s : State} {d : Desc} {a n : Int} {x y : Answer} (h : Valid d a → x = y) :
    Ends s (answer s (if n < 0 then .raise .range else if ¬ InRange d a then .unspecified else x))
      (if n < 0 then .raise .range else if Valid d a then y else .unspecified) := by
  have hvalid : (if ¬ InRange d a then .unspecified else x) = if Valid d a then y else .unspecified := by
    rw [ite_not]
    exact if_ctx_congr Iff.rfl h fun _ => rfl
  rw [hvalid]
  exact ends_answer s _

/-- The pattern of a product with a power of 2 is the pattern shifted to the left. -/
theorem patternOf_mul_two_pow (d : Desc) (a : Int) (n : Nat) : patternOf d (a * 2 ^ n) = patternOf d a <<< n := by
  have hpow : BitVec.ofInt d.width (2 ^ n) = BitVec.twoPow d.width n := by
    apply BitVec.eq_of_toNat_eq
    rw [← Nat.cast_two, ← Nat.cast_pow, BitVec.ofInt_natCast, BitVec.toNat_ofNat, BitVec.toNat_twoPow]
  rw [BitVec.shiftLeft_eq_mul_twoPow, ← hpow]
  exact BitVec.ofInt_mul a (2 ^ n)

/-- OSHL's answer: the bits shifted out are those that wrapping the product loses (R225). -/
theorem wrap_timesPow2_eq_valueOf {d : Desc} (hw : 1 ≤ d.width) (a : Int) (n : Nat) :
    wrap d (timesPow2 d.width a n) = valueOf d (patternOf d a <<< n) := by
  rw [wrap_timesPow2, ← valueOf_patternOf hw, patternOf_mul_two_pow]

/-- Shifting the value of a pattern to the right lets the sign enter where the value has one (R226). -/
theorem floorShift_valueOf (d : Desc) (p : BitVec d.width) (n : Nat) :
    floorShift (valueOf d p) n = valueOf d (if d.signed then p.sshiftRight n else p >>> n) := by
  cases hs : d.signed with
  | true => simp only [valueOf, hs, if_true, floorShift, BitVec.toInt_sshiftRight]
  | false => simp only [valueOf, hs, Bool.false_eq_true, if_false, floorShift_toNat]

/-- OSHR's answer: a valid operand is the value of its pattern (R226). -/
theorem floorShift_of_valid {d : Desc} (hw : 1 ≤ d.width) {a : Int} (hv : Valid d a) (n : Nat) :
    floorShift a n = valueOf d (if d.signed then (patternOf d a).sshiftRight n else patternOf d a >>> n) := by
  rw [← floorShift_valueOf, valueOf_of_valid hw hv]

/-- OSHRU's answer: the pattern is a number without a sign, so zeros enter (R227). -/
theorem patVal_floorShift_pat {d : Desc} (hw : 1 ≤ d.width) (a : Int) (n : Nat) :
    patVal d (floorShift (pat d a) n) = valueOf d (patternOf d a >>> n) := by
  rw [pat_eq, floorShift_toNat, valueOf_eq hw]

end Sys2Proof.Machine.Laws

namespace Sys2Proof.Proofs

open Sys2Proof.Machine Sys2Proof.Machine.Laws Sys2Proof.Safety Sys2Proof.Laws

/-- Settles O51: each operator acts on the numbers of the patterns as it acts on the patterns. -/
theorem bitwiseOperators : Obligations.BitwiseOperators := by
  intro s d hd
  obtain ⟨hw, -, -⟩ := width_of_wf hd
  exact ⟨toNat_ofD hd 0x64#8, toNat_ofD hd 0x65#8, toNat_ofD hd 0x66#8, toNat_ofD hd 0x67#8,
    ends_patternOp hw BitVec.toNat_and, ends_patternOp hw BitVec.toNat_or, ends_patternOp hw BitVec.toNat_xor,
    ends_valid (congrArg Answer.value (patVal_complement hw s.A))⟩

/-- Settles O52: OSHL wraps a product, OSHR shifts the value of a valid operand, OSHRU the number of its pattern. -/
theorem shiftOperators : Obligations.ShiftOperators := by
  intro s d hd
  obtain ⟨hw, -, -⟩ := width_of_wf hd
  exact ⟨toNat_ofD hd 0x68#8, toNat_ofD hd 0x69#8, toNat_ofD hd 0x6A#8,
    ends_shift fun _ => congrArg Answer.value (wrap_timesPow2_eq_valueOf hw s.A s.B.toNat),
    ends_shift fun hv => congrArg Answer.value (floorShift_of_valid hw hv s.B.toNat),
    ends_shift fun _ => congrArg Answer.value (patVal_floorShift_pat hw s.A s.B.toNat)⟩

end Sys2Proof.Proofs

/-! # The pattern engine (R230 to R241, R243, R244) -/

namespace Sys2Proof.Machine.Laws

open Sys2Proof.Safety

/-! ## A builder that is built (R230) -/

theorem ne_building_of_built {s : State} (h : s.phase = .built) : s.phase ≠ .building := by
  rw [h]
  exact Phase.noConfusion

/-- Every write to the parts or to the phase but PBNEW's asks for a builder that is building. -/
theorem writes_keeps_built {s u : State} {i : Instr} (h : Writes s i u) (hbuilt : s.phase = .built)
    (hnew : i ≠ .pbnew) : u.phase = .built ∧ u.parts = s.parts := by
  have hbusy := ne_building_of_built hbuilt
  cases h with
  | nothing => exact ⟨hbuilt, rfl⟩
  | control => exact ⟨hbuilt, rfl⟩
  | group => exact ⟨hbuilt, rfl⟩
  | fresh => exact absurd rfl hnew
  | fixed _ hphase => exact absurd hphase hbusy
  | var hphase => exact absurd hphase hbusy
  | pattern _ hphase => exact absurd hphase hbusy

/-! ## Appending a part (R234, R235) -/

/-- The shape that PBFIX and PBVAR share: STATE, ARGUMENT for a `bad` operand, STATE for a full builder, or one part
more. -/
def appendOutcome (s : State) (bad : Prop) [Decidable bad] (p : BitPart) : Result :=
  if s.phase ≠ .building then answer s (.raise .state)
  else if bad then answer s (.raise .argument)
  else if s.parts.length = s.params.pbMax then answer s (.raise .state)
  else appendAnswer s p

theorem exec_pbfix (s : State) :
    exec .pbfix s = appendOutcome s (s.ports.a ≠ 0 ∧ s.ports.a ≠ 1) (.fixed (decide (s.ports.a = 1))) := rfl

theorem exec_pbvar (s : State) :
    exec .pbvar s = appendOutcome s (s.ports.a < 1) (.var s.ports.a.toNat s.ports.sIn) := rfl

section Append

variable {s : State} {bad : Prop} [Decidable bad] {p : BitPart}

theorem ends_append_of_built (hphase : s.phase = .built) : Ends s (appendOutcome s bad p) (.raise .state) := by
  rw [appendOutcome, if_pos (ne_building_of_built hphase)]
  exact ends_answer s _

theorem ends_append_of_bad (hphase : s.phase = .building) (hbad : bad) :
    Ends s (appendOutcome s bad p) (.raise .argument) := by
  rw [appendOutcome, if_neg (not_not.mpr hphase), if_pos hbad]
  exact ends_answer s _

theorem ends_append_of_full (hphase : s.phase = .building) (hgood : ¬ bad)
    (hfull : s.parts.length = s.params.pbMax) : Ends s (appendOutcome s bad p) (.raise .state) := by
  rw [appendOutcome, if_neg (not_not.mpr hphase), if_neg hgood, if_pos hfull]
  exact ends_answer s _

/-- With room for it the part goes behind all the others, and their new number is answered. -/
theorem ends_append_of_room (hphase : s.phase = .building) (hgood : ¬ bad)
    (hroom : ¬ s.parts.length = s.params.pbMax) :
    Ends (s.appendPart p) (appendOutcome s bad p) (.ok { r0 := s.parts.length + 1 }) := by
  rw [appendOutcome, if_neg (not_not.mpr hphase), if_neg hgood, if_neg hroom]
  refine ends_of_eq (congrArg Answer.value ?_)
  rw [State.appendPart_parts, List.length_append, List.length_singleton]
  exact Nat.cast_succ _

end Append

/-! ## Compiling the parts into a slot (R236) -/

/-- The number on a port is outside the space of slots. -/
theorem slotAt_eq_none {α : Type} {n : Nat} {table : Table α} {x : Int} :
    slotAt n table x = none ↔ slotOf n x = none := by
  rw [slotAt_eq, Option.map_eq_none_iff]

/-- The number on a port names a slot, and that slot holds `o`. -/
theorem slotAt_eq_some {α : Type} {n : Nat} {table : Table α} {x : Int} {o : Option α} :
    slotAt n table x = some o ↔ slotOf n x = some x.toNat ∧ slotGet table x.toNat = o := by
  rw [slotAt_eq, Option.map_eq_some_iff]
  constructor
  · rintro ⟨k, hk, ho⟩
    obtain ⟨-, -, rfl, -⟩ := slotOf_some hk
    exact ⟨hk, ho⟩
  · rintro ⟨hk, ho⟩
    exact ⟨_, hk, ho⟩

/-- The slot that a port names holds the record written to it. -/
theorem slotAt_slotPut {α : Type} {n : Nat} {x : Int} (h : slotOf n x = some x.toNat) (table : Table α) (r : α) :
    slotAt n (slotPut table x.toNat r) x = some (some r) :=
  slotAt_eq_some.mpr ⟨h, by rw [slotGet_slotPut, if_pos rfl]⟩

theorem A_eq (s : State) : s.A = s.ports.a := rfl

theorem exec_pbbuild (s : State) : exec .pbbuild s = execPbbuild s := rfl

section Build

variable {s : State}

theorem ends_pbbuild_of_built (hphase : s.phase = .built) : Ends s (exec .pbbuild s) (.raise .state) := by
  rw [exec_pbbuild, execPbbuild, if_pos (ne_building_of_built hphase)]
  exact ends_answer s _

theorem ends_pbbuild_of_outside (hphase : s.phase = .building) (hslot : slotAt s.params.nPat s.pt s.ports.a = none) :
    Ends s (exec .pbbuild s) (.raise .range) := by
  have hexec : exec .pbbuild s = answer s (.raise .range) := by
    rw [exec_pbbuild, execPbbuild, if_neg (not_not.mpr hphase), A_eq, slotAt_eq_none.mp hslot]
  rw [hexec]
  exact ends_answer s _

/-- The checks of a builder that is building, once port A is known to name a slot. -/
theorem exec_pbbuild_of_slot (hphase : s.phase = .building) {old : Option Pattern}
    (hslot : slotAt s.params.nPat s.pt s.ports.a = some old) :
    exec .pbbuild s =
      if 32 < (bitsOf s.parts).length then answer s (.raise .state)
      else if old.isSome then answer s (.raise .state)
      else answer (s.storePattern s.ports.a.toNat (compile s.parts s.ports.sIn))
        (builtAnswer (compile s.parts s.ports.sIn)) := by
  obtain ⟨hsome, rfl⟩ := slotAt_eq_some.mp hslot
  rw [exec_pbbuild, execPbbuild, if_neg (not_not.mpr hphase), A_eq, hsome, ← totalWidth_eq]
  rfl

/-- Inside the space of slots, parts that are too wide and a slot that is valid are both STATE, in whatever order they
are tested. -/
theorem ends_pbbuild_of_wide_or_valid (hphase : s.phase = .building) {old : Option Pattern}
    (hslot : slotAt s.params.nPat s.pt s.ports.a = some old) (h : 32 < (bitsOf s.parts).length ∨ old.isSome) :
    Ends s (exec .pbbuild s) (.raise .state) := by
  rw [exec_pbbuild_of_slot hphase hslot, ← ite_or, if_pos h]
  exact ends_answer s _

theorem ends_pbbuild_of_free (hphase : s.phase = .building)
    (hslot : slotAt s.params.nPat s.pt s.ports.a = some none) (hwidth : (bitsOf s.parts).length ≤ 32) :
    Ends (s.storePattern s.ports.a.toNat (compile s.parts s.ports.sIn)) (exec .pbbuild s)
      (builtAnswer (compile s.parts s.ports.sIn)) := by
  rw [exec_pbbuild_of_slot hphase hslot, if_neg hwidth.not_gt, Option.isSome_none, if_neg Bool.false_ne_true]
  exact ends_answer _ _

/-- PBBUILD answers OK in no other way than by writing the compiled pattern to the slot that port A names (R236). -/
theorem next_of_pbbuild_ok {t : State} {r : Results} (hexec : exec .pbbuild s = .next t)
    (hok : t.response = some ⟨.ok, r⟩) :
    totalWidth s.parts ≤ 32 ∧ slotOf s.params.nPat s.ports.a = some s.ports.a.toNat ∧
      SameUnit (s.storePattern s.ports.a.toNat (compile s.parts s.ports.sIn)) t := by
  rcases execPbbuild_cases s with ⟨k, hk⟩ | ⟨-, hwidth, m, hm, -, hbuild⟩
  · obtain rfl : s.answered (.raise k) = t := Host.Outcome.next.inj (hk.symm.trans hexec)
    cases hok
  · obtain rfl : _ = t := Host.Outcome.next.inj (hbuild.symm.trans hexec)
    obtain ⟨-, -, rfl, -⟩ := slotOf_some hm
    exact ⟨hwidth, hm, (answered_frame _ _).1⟩

end Build

/-! ## Reading a slot (R62) -/

section Slot

variable {α : Type} {n : Nat} {table : Table α} {x : Int} {f : α → Answer}

theorem slotOutcome_of_outside (h : slotAt n table x = none) : slotOutcome n table x f = .raise .range := by
  rw [slotOutcome, h]

theorem slotOutcome_of_invalid (h : slotAt n table x = some none) : slotOutcome n table x f = .raise .state := by
  rw [slotOutcome, h]

theorem slotOutcome_of_valid {r : α} (h : slotAt n table x = some (some r)) : slotOutcome n table x f = f r := by
  rw [slotOutcome, h]

end Slot

/-! ## Reading a pattern slot (R237 to R240) -/

/-- A command that reads the pattern slot of port A ends as its rule says when it makes of every record in the table what
the rule makes of it. -/
theorem ends_onPattern {s : State} {f g : Pattern → Answer} (h : ∀ m p, recordAt s.pt m = some p → f p = g p) :
    Ends s (answer s (onPattern s s.A f)) (slotOutcome s.params.nPat s.pt s.ports.a g) := by
  refine ends_of_eq ?_
  rw [onPattern_eq, A_eq]
  rcases hslot : slotAt s.params.nPat s.pt s.ports.a with _ | _ | p
  · rw [slotOutcome_of_outside hslot, slotOutcome_of_outside hslot]
  · rw [slotOutcome_of_invalid hslot, slotOutcome_of_invalid hslot]
  · obtain ⟨-, hp⟩ := slotAt_eq_some.mp hslot
    rw [slotOutcome_of_valid hslot, slotOutcome_of_valid hslot]
    exact h _ p (by rw [← slotGet_eq, hp])

theorem ends_ptmatch (s : State) :
    Ends s (exec .ptmatch s)
      (slotOutcome s.params.nPat s.pt s.ports.a fun p => .ok { r0 := flag (p.matches s.candidate) }) :=
  ends_onPattern fun _ _ _ => truth_eq_flag Bool.decide_eq_true.symm

/-- A chunk of a word's number is a field of the word (R12). -/
theorem chunk_toNat {w : Nat} (x : BitVec w) (left size : Nat) :
    chunk (x.toNat : Int) left size = ((x.extractLsb' (left + 1 - size) size).toNat : Int) := by
  rw [chunk, BitVec.extractLsb'_toNat, Nat.shiftRight_eq_div_pow]
  push_cast
  rfl

theorem ends_ptcapt (s : State) :
    Ends s (exec .ptcapt s)
      (slotOutcome s.params.nPat s.pt s.ports.a fun p =>
        .ok { r0 := p.caps.length,
              rv := some (p.caps.map fun c =>
                ((s.candidate.extractLsb' (c.left + 1 - c.size) c.size).toNat : Int)) }) := by
  refine ends_onPattern fun _ p _ => ?_
  have hfield : (fun c : Capture => c.extract s.candidate) =
      fun c => ((s.candidate.extractLsb' (c.left + 1 - c.size) c.size).toNat : Int) :=
    funext fun c => chunk_toNat s.candidate c.left c.size
  simp only [List.length_map, hfield]

/-! ## The masks of the captures (R231) -/

theorem bit_capture_mask (c : Capture) (h : c.size ≤ c.left + 1) (i : Nat) :
    bit c.mask i = if c.left + 1 - c.size ≤ i ∧ i ≤ c.left then 1 else 0 := by
  rw [Capture.mask]
  by_cases hlow : i < c.left + 1 - c.size
  · rw [bit_mul_pow_of_lt _ hlow, if_neg (by omega)]
  · obtain ⟨j, rfl⟩ := Nat.exists_eq_add_of_le (not_lt.mp hlow)
    rw [bit_mul_pow, bit_allOnes]
    exact if_congr (by omega) rfl rfl

theorem capture_mask_bounds (c : Capture) (h : c.size ≤ c.left + 1) (hleft : c.left < 32) :
    0 ≤ c.mask ∧ c.mask < 2 ^ 32 := by
  have hones : (0 : Int) < 2 ^ c.size := two_pow_pos _
  have hshift : (0 : Int) < 2 ^ (c.left + 1 - c.size) := two_pow_pos _
  refine ⟨mul_nonneg (by omega) hshift.le, ?_⟩
  calc c.mask < 2 ^ c.size * 2 ^ (c.left + 1 - c.size) := mul_lt_mul_of_pos_right (by omega) hshift
    _ = 2 ^ (c.left + 1) := by rw [← pow_add, Nat.add_sub_cancel' h]
    _ ≤ 2 ^ 32 := pow_le_pow_right₀ (by norm_num) (by omega)

/-- The mask of a capture inside 32 bits, as a number and as a word. -/
theorem capture_mask_eq_toNat {c : Capture} (h : c.size ≤ c.left + 1) (hleft : c.left < 32) :
    c.mask = ((captureMask c).toNat : Int) := by
  obtain ⟨hnonneg, hlt⟩ := capture_mask_bounds c h hleft
  have hword : captureMask c = BitVec.ofInt 32 c.mask := by
    refine BitVec.eq_of_getLsbD_eq fun i hi => ?_
    rw [captureMask, wordOf_bit, ofInt_bit, bit_capture_mask c h]
    simp [hi]
  rw [hword, toNat_ofInt, low_eq_self hnonneg hlt]

/-- In a valid slot every capture lies inside 32 bits (R44 b, c). -/
theorem capture_mask_eq_toNat_of_mem {n : Nat} {p : Pattern} (hp : PatternOk n p) {c : Capture} (hc : c ∈ p.caps) :
    c.mask = ((captureMask c).toNat : Int) := by
  obtain ⟨-, hsize, hleft, -, -⟩ := hp.captures c hc
  exact capture_mask_eq_toNat hsize (lt_of_lt_of_le hleft hp.width.1)

/-! ## Showing the records (R239 to R241) -/

theorem ends_ptinfo {s : State} (hs : UnitInv s) :
    Ends s (exec .ptinfo s)
      (slotOutcome s.params.nPat s.pt s.ports.a fun p =>
        .ok { r0 := p.mask.toNat, r1 := p.cmp.toNat, r2 := specificity p, r3 := p.tw, rs := p.name,
              rv := some (p.caps.map fun c => ((captureMask c).toNat : Int)) }) := by
  refine ends_onPattern fun m p hp => ?_
  have hmasks : p.caps.map Capture.mask = p.caps.map fun c => ((captureMask c).toNat : Int) :=
    List.map_congr_left fun c hc => capture_mask_eq_toNat_of_mem (hs.patterns m p hp) hc
  rw [hmasks, spec_eq]

/-- PTCSPEC finds a capture exactly where its index is a position of the list. -/
theorem ends_ptcspec {s : State} (hs : UnitInv s) :
    Ends s (exec .ptcspec s)
      (slotOutcome s.params.nPat s.pt s.ports.a fun p =>
        match if 0 ≤ s.ports.b then p.caps[s.ports.b.toNat]? else none with
        | none => .raise .range
        | some c => .ok { r0 := c.left, r1 := c.size, r2 := (captureMask c).toNat, rs := c.name }) := by
  refine ends_onPattern fun m p hp => ?_
  rw [B_eq]
  by_cases hindex : IsPosition p.caps.length s.ports.b
  · obtain ⟨hnonneg, hlt⟩ := hindex
    have hlt : s.ports.b.toNat < p.caps.length := by omega
    rw [if_neg (not_not.mpr ⟨hnonneg, by omega⟩), if_pos hnonneg, List.getElem?_eq_getElem hlt]
    simp only [capture_mask_eq_toNat_of_mem (hs.patterns m p hp) (List.getElem_mem hlt)]
  · have hnone : (if 0 ≤ s.ports.b then p.caps[s.ports.b.toNat]? else none) = none := by
      by_cases hnonneg : 0 ≤ s.ports.b
      · rw [if_pos hnonneg, List.getElem?_eq_none (by omega)]
      · rw [if_neg hnonneg]
    rw [if_pos hindex, hnone]

/-- PTCMP's order of two records is the order of their numbers of fixed bits. -/
theorem compare_spec (p q : Pattern) :
    (if q.spec < p.spec then -1 else if p.spec = q.spec then 0 else 1 : Int) =
      if specificity q < specificity p then -1 else if specificity p = specificity q then 0 else 1 := by
  simp only [spec_eq, Nat.cast_lt, Nat.cast_inj]

theorem ends_ptcmp (s : State) :
    Ends s (exec .ptcmp s)
      (match slotAt s.params.nPat s.pt s.ports.a, slotAt s.params.nPat s.pt s.ports.b with
        | some (some p), some (some q) =>
          .ok { r0 := if specificity q < specificity p then -1 else if specificity p = specificity q then 0 else 1 }
        | none, _ => .raise .range
        | _, none => .raise .range
        | _, _ => .raise .state) := by
  refine ends_of_eq ?_
  rw [State.readPattern, State.readPattern, readSlot_eq, readSlot_eq, A_eq, B_eq]
  rcases slotAt s.params.nPat s.pt s.ports.a with _ | _ | p
  · rfl
  · rcases slotAt s.params.nPat s.pt s.ports.b with _ | _ | q <;> rfl
  · rcases slotAt s.params.nPat s.pt s.ports.b with _ | _ | q
    · rfl
    · rfl
    · exact congrArg Answer.value (compare_spec p q)

/-! ## Groups (R243, R244) -/

/-- What PGMATCH answers of the first member that matches, if there is one (R243). -/
def hitAnswer : Option (Nat × Nat) → Answer
  | none => .novalue
  | some (m, j) => .pair m j

/-- A group is read from its slot as a pattern is (R62). -/
theorem readGroup_eq (s : State) (f : GroupRecord → Answer) :
    (match s.readGroup s.A with
      | .error k => .raise k
      | .ok r => f r) = slotOutcome s.params.nGrp s.gt s.ports.a f := by
  rw [State.readGroup, readSlot_eq, A_eq]
  rcases hslot : slotAt s.params.nGrp s.gt s.ports.a with _ | _ | r
  · exact (slotOutcome_of_outside hslot).symm
  · exact (slotOutcome_of_invalid hslot).symm
  · exact (slotOutcome_of_valid hslot).symm

theorem exec_pgmatch (s : State) :
    exec .pgmatch s = answer s (slotOutcome s.params.nGrp s.gt s.ports.a fun r =>
      hitAnswer (s.firstMatch s.candidate r.members 0)) := by
  rw [← readGroup_eq]
  rfl

theorem exec_pginfo (s : State) :
    exec .pginfo s = answer s (slotOutcome s.params.nGrp s.gt s.ports.a fun r => membersAnswer r.members) := by
  rw [← readGroup_eq]
  rfl

/-- The member names a pattern that matches the candidate on port B (R243). -/
def Hits (s : State) (m : Nat) : Prop := ∃ p, recordAt s.pt m = some p ∧ Matches p (word s s.ports.b)

theorem firstMatch_cons_of_hit {s : State} {m : Nat} (h : Hits s m) (ms : List Nat) (j : Nat) :
    s.firstMatch s.candidate (m :: ms) j = some (m, j) := by
  obtain ⟨p, hp, hmatch⟩ := h
  simp only [State.firstMatch, slotGet_eq, hp, (matches_iff s p).mpr hmatch, if_true]

theorem firstMatch_cons_of_miss {s : State} {m : Nat} (h : ¬ Hits s m) (ms : List Nat) (j : Nat) :
    s.firstMatch s.candidate (m :: ms) j = s.firstMatch s.candidate ms (j + 1) := by
  rw [State.firstMatch, slotGet_eq]
  cases hp : recordAt s.pt m with
  | none => rfl
  | some p => exact if_neg fun hmatch => h ⟨p, hp, (matches_iff s p).mp hmatch⟩

/-- Members that do not match are passed over, each moving the position on by one. -/
theorem firstMatch_append_of_miss {s : State} {ms : List Nat} (h : ∀ k ∈ ms, ¬ Hits s k) (ns : List Nat) (j : Nat) :
    s.firstMatch s.candidate (ms ++ ns) j = s.firstMatch s.candidate ns (j + ms.length) := by
  induction ms generalizing j with
  | nil => rfl
  | cons k ms ih =>
    obtain ⟨hk, hms⟩ := List.forall_mem_cons.mp h
    rw [List.cons_append, firstMatch_cons_of_miss hk, ih hms, List.length_cons, Nat.add_right_comm, Nat.add_assoc]

theorem firstMatch_eq_none {s : State} {ms : List Nat} (h : ∀ k ∈ ms, ¬ Hits s k) (j : Nat) :
    s.firstMatch s.candidate ms j = none := by
  have hend := firstMatch_append_of_miss h [] j
  rwa [List.append_nil] at hend

theorem firstMatch_of_first_hit {s : State} {ms : List Nat} {m : Nat} (hms : ∀ k ∈ ms, ¬ Hits s k) (hm : Hits s m)
    (ns : List Nat) : s.firstMatch s.candidate (ms ++ m :: ns) 0 = some (m, ms.length) := by
  rw [firstMatch_append_of_miss hms, firstMatch_cons_of_hit hm, Nat.zero_add]

end Sys2Proof.Machine.Laws

namespace Sys2Proof.Proofs

open Sys2Proof.Machine Sys2Proof.Machine.Laws Sys2Proof.Safety

/-- Settles O17: what `Writes` allows a command in a state whose builder is built, and the first test of each of the
three commands. -/
theorem builtBuilderKept : Obligations.BuiltBuilderKept := by
  refine ⟨fun i s t hbuilt hnew hexec => ?_, fun s hbuilt =>
    ⟨ends_append_of_built hbuilt, ends_append_of_built hbuilt, ends_pbbuild_of_built hbuilt⟩⟩
  obtain ⟨u, hwrites, ⟨-, -, hphase, hparts, -, -⟩, -⟩ := exec_next_writes hexec
  rw [hphase, hparts]
  exact writes_keeps_built hwrites hbuilt hnew

/-- Settles O54: PBFIX and PBVAR differ in the operand they accept and in the part they append. -/
theorem builderCommands : Obligations.BuilderCommands := by
  refine ⟨rfl, rfl, rfl, fun s => ⟨ends_answer s.newBuilder (.ok {}),
    fun hbuilt => ⟨ends_append_of_built hbuilt, ends_append_of_built hbuilt⟩, fun hphase => ?_⟩⟩
  rw [exec_pbfix, exec_pbvar]
  refine ⟨?_, ?_, ?_, ?_⟩
  · exact fun ha => ends_append_of_bad hphase ha
  · exact fun ha => ends_append_of_bad hphase ha
  · exact fun hfull => ⟨fun ha => ends_append_of_full hphase (by omega) hfull,
      fun ha => ends_append_of_full hphase (by omega) hfull⟩
  · refine fun hroom => ⟨fun b hb => ?_, fun ha => ends_append_of_room hphase (by omega) hroom⟩
    have hbit : decide (s.ports.a = 1) = b ∧ ¬ (s.ports.a ≠ 0 ∧ s.ports.a ≠ 1) := by
      rw [hb]
      cases b <;> decide
    obtain ⟨rfl, hgood⟩ := hbit
    exact ends_append_of_room hphase hgood hroom

/-- Settles O55: the checks by the slot that port A names; the record is the compiled one. -/
theorem buildPattern : Obligations.BuildPattern := by
  refine ⟨rfl, fun s => ⟨ends_pbbuild_of_built, ends_pbbuild_of_outside, ?_, ?_, ?_⟩⟩
  · intro hphase hslot hwide
    obtain ⟨old, hold⟩ := Option.ne_none_iff_exists'.mp hslot
    exact ends_pbbuild_of_wide_or_valid hphase hold (.inl hwide)
  · rintro hphase ⟨p, hp⟩
    exact ends_pbbuild_of_wide_or_valid hphase hp (.inr rfl)
  · intro hphase hslot hwidth
    obtain ⟨hbits, htw, hcaps, hname⟩ := compile_spec s.parts s.ports.sIn
    refine ⟨compile s.parts s.ports.sIn, slotPut s.pt s.ports.a.toNat (compile s.parts s.ports.sIn), hbits, htw, hcaps,
      hname, writtenAt_slotPut s.pt _ _, ?_⟩
    rw [← spec_eq]
    exact ends_pbbuild_of_free hphase hslot hwidth

/-- Settles O56: the slot of port A holds the compiled pattern, which matches the words that agree with its literals. -/
theorem builtPatternMatchesItsParts : Obligations.BuiltPatternMatchesItsParts := by
  intro s t r ports hexec hok hport
  obtain ⟨hwidth, hslot, hparams, -, -, -, hpt, -⟩ := next_of_pbbuild_ok hexec hok
  have hcand : (t.withPorts ports).candidate = (s.withPorts ports).candidate :=
    congrArg (fun p : Params => BitVec.ofInt Config.patW (uword p.rawBits ports.b)) hparams
  refine ⟨(compile s.parts s.ports.sIn).matches (t.withPorts ports).candidate, ?_, ?_⟩
  · rw [hcand, matches_iff]
    exact compile_matches hwidth s.ports.sIn (word s ports.b)
  · have hread : slotAt (t.withPorts ports).params.nPat (t.withPorts ports).pt (t.withPorts ports).ports.a =
        some (some (compile s.parts s.ports.sIn)) := by
      show slotAt t.params.nPat t.pt ports.a = _
      rw [hparams, hpt, hport]
      exact slotAt_slotPut hslot _ _
    have hmatch := ends_ptmatch (t.withPorts ports)
    rwa [slotOutcome_of_valid hread] at hmatch

/-- Settles O57: the candidate is the low word of port B, and matching and capturing go bit by bit and field by field. -/
theorem matchAndCapture : Obligations.MatchAndCapture := by
  classical
  refine ⟨rfl, rfl, fun s => ⟨?_, ?_⟩⟩
  · have hflag (p : Pattern) : p.matches s.candidate = decide (Matches p (word s s.ports.b)) :=
      Bool.eq_iff_iff.mpr ((matches_iff s p).trans decide_eq_true_iff.symm)
    simpa only [hflag] using ends_ptmatch s
  · rw [← candidate_eq]
    exact ends_ptcapt s

/-- Settles O58: the records as the invariant allows them, shown with their masks as words. -/
theorem patternInfo : Obligations.PatternInfo :=
  ⟨rfl, rfl, rfl, fun s hs => ⟨ends_ptinfo hs, ends_ptcspec hs, ends_ptcmp s⟩⟩

/-- Settles O60: the scan of PGMATCH passes over the members that do not match and stops at the first that does. -/
theorem matchGroup : Obligations.MatchGroup := by
  refine ⟨rfl, rfl, fun s _ => ?_⟩
  rw [exec_pgmatch, exec_pginfo]
  refine ⟨fun hslot => ?_, fun hslot => ?_, fun r hslot => ?_⟩
  · rw [slotOutcome_of_outside hslot, slotOutcome_of_outside hslot]
    exact ⟨ends_answer s _, ends_answer s _⟩
  · rw [slotOutcome_of_invalid hslot, slotOutcome_of_invalid hslot]
    exact ⟨ends_answer s _, ends_answer s _⟩
  · rw [slotOutcome_of_valid hslot, slotOutcome_of_valid hslot]
    refine ⟨fun ms m ns hmembers hmiss hhit => ends_of_eq ?_, fun hmiss => ends_of_eq ?_, ends_answer s _⟩
    · rw [hmembers, firstMatch_of_first_hit hmiss hhit]
      rfl
    · rw [firstMatch_eq_none hmiss]
      rfl

end Sys2Proof.Proofs

/-! # Commands that do not stop the unit, and commands that raise no fault (R66, R90, R260, R261, R271, R276, R290) -/

namespace Sys2Proof.Laws

/-- A format C word as the sum of its fields (R81). -/
theorem toNat_ofC (opc : BitVec 8) (imm : BitVec 12) :
    (Fields.ofC opc imm).toWord.toNat = opc.toNat * 2 ^ 24 + imm.toNat := by
  have hpol : (0#3).toNat = 0 := rfl
  have hbit : false.toNat = 0 := rfl
  have hw : (0#7).toNat = 0 := rfl
  rw [toWord_toNat]
  simp only [Fields.ofC, hpol, hbit, hw]
  omega

/-- The CSR numbers that a legal CSRR can have (R90). -/
theorem eq_of_csrReadable {imm : BitVec 12} (h : csrReadable imm = true) : imm = 0x000#12 ∨ imm = 0x001#12 := by
  simpa only [csrReadable, Bool.or_eq_true, beq_iff_eq] using h

/-- The CSR number that a legal CSRW has (R90). -/
theorem eq_of_csrWritable {imm : BitVec 12} (h : csrWritable imm = true) : imm = 0x000#12 := by
  simpa only [csrWritable, beq_iff_eq] using h

end Sys2Proof.Laws

namespace Sys2Proof.Machine.Laws

open Sys2Proof.Safety Sys2Proof.Laws

/-! ## Every answer is a response -/

theorem exists_response_of_answered (s : State) (a : Answer) : ∃ r, (s.answered a).response = some r := by
  cases a <;> exact ⟨_, rfl⟩

/-! ## The control registers (R35, R36, R260, R261) -/

theorem dbgctl_eq_flag (s : State) : s.dbgctl = flag s.assertEn := rfl

theorem pbstat_eq_flag (s : State) :
    s.pbstat = flag (decide (s.phase = .built)) + 2 ^ 8 * (s.parts.length : Int) := by
  simp only [State.pbstat, flag, decide_eq_true_eq]

theorem exec_csrr_of_illegal {imm : BitVec 12} (h₀ : imm ≠ 0x000#12) (h₁ : imm ≠ 0x001#12) (s : State) :
    exec (.csrr imm) s = answer s (.raise .illegal) :=
  congrArg (answer s) ((if_neg h₀).trans (if_neg h₁))

theorem ends_csrr (imm : BitVec 12) (s : State) :
    Ends s (exec (.csrr imm) s)
      (if imm = 0 then .ok { r0 := flag s.assertEn }
      else if imm = 1 then .ok { r0 := flag (decide (s.phase = .built)) + 2 ^ 8 * s.parts.length }
      else .raise .illegal) := by
  by_cases h₀ : imm = 0
  · rw [if_pos h₀, show imm = 0x000#12 from h₀, exec_csrr_dbgctl, dbgctl_eq_flag]
    exact ends_answer s _
  · rw [if_neg h₀]
    by_cases h₁ : imm = 1
    · rw [if_pos h₁, show imm = 0x001#12 from h₁, exec_csrr_pbstat, pbstat_eq_flag]
      exact ends_answer s _
    · rw [if_neg h₁, exec_csrr_of_illegal h₀ h₁]
      exact ends_answer s _

theorem exec_csrw_dbgctl (s : State) : exec (.csrw 0x000#12) s = answer (s.setDbgctl s.uA) (.ok {}) := rfl

theorem exec_csrw_of_illegal {imm : BitVec 12} (h : imm ≠ 0x000#12) (s : State) :
    exec (.csrw imm) s = answer s (.raise .illegal) := if_pos h

/-- Writing DBGCTL takes bit 0 of the word on port A (R261). -/
theorem setDbgctl_uA (s : State) : s.setDbgctl s.uA = s.withAssertEn ((word s s.ports.a).getLsbD 0) := by
  have hbit : decide (bit s.uA 0 = 1) = (word s s.ports.a).getLsbD 0 := by
    rw [bit_uA]
    cases (word s s.ports.a).getLsbD 0 <;> rfl
  rw [State.setDbgctl, hbit, State.withAssertEn]

/-! ## Answers that are no fault (R271) -/

/-- The answer raises nothing. -/
def NoFault (a : Answer) : Prop := ∀ k, a ≠ .raise k

theorem noFault_ok (r : Results) : NoFault (.ok r) := fun _ => Answer.noConfusion

theorem noFault_value (x : Int) : NoFault (.value x) := noFault_ok _

theorem noFault_novalue : NoFault .novalue := fun _ => Answer.noConfusion

theorem noFault_unspecified : NoFault .unspecified := fun _ => Answer.noConfusion

theorem noFault_ite {c : Prop} [Decidable c] {a b : Answer} (ha : NoFault a) (hb : NoFault b) :
    NoFault (if c then a else b) := by
  split
  · exact ha
  · exact hb

theorem noFault_truth {c : Prop} [Decidable c] : NoFault (.truth c) := noFault_value _

theorem noFault_validAnswer {d : Desc} {a : Int} {x : Answer} (h : NoFault x) : NoFault (validAnswer d a x) :=
  noFault_ite noFault_unspecified h

theorem noFault_patternOp {op : Nat → Nat → Nat} {d : Desc} {a b : Int} : NoFault (patternOp op d a b) :=
  noFault_ite noFault_unspecified (noFault_value _)

theorem noFault_compareAnswer {d : Desc} {a b : Int} {c : Prop} [Decidable c] : NoFault (compareAnswer d a b c) :=
  noFault_ite noFault_unspecified noFault_truth

/-- Of the policies only the checked one raises a fault (R150). -/
theorem noFault_applyPolicy {pol : Policy} (h : pol ≠ .checked) {en : Bool} {d : Desc} {e : Int} :
    NoFault (applyPolicy en pol d e) := by
  refine noFault_ite (noFault_value e) ?_
  cases pol with
  | checked => exact absurd rfl h
  | unchecked => exact noFault_unspecified
  | attempt => exact noFault_novalue
  | wrapped => exact noFault_value _
  | clamped => exact noFault_value _

/-- The status of a determined answer that is no fault. -/
theorem status_of_noFault {s : State} {a : Answer} (h : NoFault a) {r : Response}
    (hr : (s.answered a).response = some r) (hdet : Determined s (s.answered a)) :
    r.status = .ok ∨ r.status = .novalue := by
  rcases answered_response s a with ⟨r', -, hres, -⟩ | ⟨-, hres, -⟩ | ⟨k, ha, -, -⟩ | ⟨-, -, hfree⟩
  · cases hres.symm.trans hr
    exact .inl rfl
  · cases hres.symm.trans hr
    exact .inr rfl
  · exact absurd ha (h k)
  · exact absurd hdet hfree

/-! ## Commands that raise nothing once decoded (R271) -/

/-- The commands that R271 lists: no operand of theirs is tested for a fault. -/
def RaisesNothing : Instr → Prop
  | .csrr _ | .csrw _ | .pbnew | .bits _ | .cnt1 _ | .cnt0 _ | .clo _ | .clz _ | .cto _ | .ctz _ | .hilo _ | .midpt _
  | .cmplt _ | .cmple _ | .cmpgt _ | .cmpge _ | .and _ | .or _ | .xor _ | .not _ => True
  | .fit pol _ | .add pol _ | .sub pol _ | .mul pol _ | .neg pol _ | .npow2 pol _ | .nmult pol _ => pol ≠ .checked
  | _ => False

/-- Such a command, in a legal word, answers no fault: a CSR number is one that R90 allows, a policy is another than the
checked one. -/
theorem exec_noFault {i : Instr} {wMax : Nat} (hwf : i.wf wMax = true) (hi : RaisesNothing i) (s : State) :
    ∃ u a, exec i s = answer u a ∧ u.freeCount = s.freeCount ∧ NoFault a := by
  have plain {a : Answer} (h : NoFault a) : ∃ u b, answer s a = answer u b ∧ u.freeCount = s.freeCount ∧ NoFault b :=
    ⟨s, a, rfl, rfl, h⟩
  cases i with
  | csrr imm =>
    rcases eq_of_csrReadable hwf with rfl | rfl
    · exact plain (noFault_value s.dbgctl)
    · exact plain (noFault_value s.pbstat)
  | csrw imm =>
    obtain rfl := eq_of_csrWritable hwf
    exact ⟨_, _, exec_csrw_dbgctl s, rfl, noFault_ok _⟩
  | pbnew => exact ⟨s.newBuilder, .ok {}, rfl, rfl, noFault_ok _⟩
  | bits | cnt1 | cnt0 | clo | clz | cto | ctz | hilo | not => exact plain (noFault_validAnswer (noFault_ok _))
  | midpt => exact plain (noFault_ite noFault_unspecified (noFault_value _))
  | cmplt | cmple | cmpgt | cmpge => exact plain noFault_compareAnswer
  | and | or | xor => exact plain noFault_patternOp
  | fit pol => exact plain (noFault_ite (noFault_value _) (noFault_applyPolicy hi))
  | add pol | sub pol | mul pol | neg pol => exact plain (noFault_ite noFault_unspecified (noFault_applyPolicy hi))
  | npow2 pol | nmult pol =>
    exact plain (noFault_ite noFault_unspecified (noFault_ite noFault_unspecified (noFault_applyPolicy hi)))
  | _ => exact absurd hi id

end Sys2Proof.Machine.Laws

namespace Sys2Proof.Proofs

open Sys2Proof.Machine Sys2Proof.Machine.Laws Sys2Proof.Safety Sys2Proof.Laws

/-- Settles O8: the two inputs of a step that are no command. -/
theorem stepWithoutCommand : Obligations.StepWithoutCommand := by
  refine ⟨fun s rest hpending => ?_, fun s hpending => ?_⟩
  · simp only [step, takeInput, hpending, State.applyReset]
  · simp only [step, takeInput, hpending]

/-- Settles O10: every instruction answers, and every answer is a next state with a response. -/
theorem noCommandStopsTheUnit : Obligations.NoCommandStopsTheUnit := by
  intro i s
  obtain ⟨u, a, hexec, -, -⟩ := exec_writes i s
  exact ⟨u.answered a, hexec, exists_response_of_answered u a⟩

/-- Settles O13: a command that answers no fault and draws no free response has a status of the other two. -/
theorem onlyIllegalCommands : Obligations.OnlyIllegalCommands := by
  intro i s t r hwf hi hexec hr hdet
  have hlisted : RaisesNothing i := hi
  obtain ⟨u, a, hanswer, hcount, ha⟩ := exec_noFault hwf hlisted s
  obtain rfl : u.answered a = t := Host.Outcome.next.inj (hanswer.symm.trans hexec)
  exact status_of_noFault ha hr (hdet.trans hcount.symm)

/-- Settles O53: CSRR by its number; CSRW writes bit 0 of port A's word to ASSERT_EN before it answers. -/
theorem controlRegisters : Obligations.ControlRegisters := by
  refine ⟨fun imm => ⟨toNat_ofC 0x01#8 imm, toNat_ofC 0x02#8 imm⟩, fun s imm => ⟨ends_csrr imm s, ?_, fun h => ?_⟩⟩
  · rintro rfl
    have hexec := exec_csrw_dbgctl s
    rw [setDbgctl_uA] at hexec
    exact hexec ▸ ends_answer _ _
  · rw [exec_csrw_of_illegal h]
    exact ends_answer s _

end Sys2Proof.Proofs

/-! # Rotations of a window, ROTRSH, and binary strings (R122, R123, R127 to R129) -/

namespace Sys2Proof.Safety

open Sys2Proof.Machine

/-- The word with its low `w` bits rotated `n` places to the left (R122). -/
def rotatedLeft {m : Nat} (x : BitVec m) (n w : Nat) : BitVec m :=
  wordOf fun i => if i < w then x.getLsbD ((i + (w - n % w)) % w) else x.getLsbD i

/-- The word with its low `w` bits rotated `n` places to the right (R123). -/
def rotatedRight {m : Nat} (x : BitVec m) (n w : Nat) : BitVec m :=
  wordOf fun i => if i < w then x.getLsbD ((i + n) % w) else x.getLsbD i

/-- The operands of a command on a window: a width, and a count that is not negative (R109 c, d). -/
abbrev WindowOperands (s : State) : Prop :=
  (1 ≤ s.ports.c ∧ s.ports.c ≤ s.params.rawBits) ∧ 0 ≤ s.ports.b

/-- PARSEB reads the string as a number that fits a raw value (R128). -/
def Parses (p : Params) (cs : Str) : Prop := cs ≠ [] ∧ Binary cs ∧ binaryValue cs < 2 ^ (p.rawBits - 1)

end Sys2Proof.Safety

namespace Sys2Proof.Machine.Laws

open Sys2Proof.Safety

/-! ## Rotations (R122, R123) -/

/-- A place of the window, moved around the window's edge by the count one way and then the other. -/
theorem mod_add_sub_mod_eq_self {i n w : Nat} (hi : i < w) : ((i + n) % w + (w - n % w)) % w = i := by
  have hn : n % w < w := Nat.mod_lt n (by omega)
  rw [← Nat.add_mod_mod i n w, Nat.mod_add_mod, Nat.add_assoc, Nat.add_sub_cancel' hn.le, Nat.add_mod_right,
    Nat.mod_eq_of_lt hi]

/-- Rotating to the right undoes rotating to the left. -/
theorem rotatedRight_rotatedLeft {m n w : Nat} (hwm : w ≤ m) (x : BitVec m) :
    rotatedRight (rotatedLeft x n w) n w = x := by
  refine BitVec.eq_of_getLsbD_eq fun i hi => ?_
  rw [rotatedRight, wordOf_bit, decide_eq_true hi, Bool.true_and, rotatedLeft]
  by_cases hin : i < w
  · have hlt : (i + n) % w < w := Nat.mod_lt _ (by omega)
    rw [if_pos hin, wordOf_bit, decide_eq_true (hlt.trans_le hwm), Bool.true_and, if_pos hlt,
      mod_add_sub_mod_eq_self hin]
  · rw [if_neg hin, wordOf_bit, decide_eq_true hi, Bool.true_and, if_neg hin]

theorem ends_exec_rotl (s : State) :
    Ends s (exec .rotl s)
      (if WindowOperands s then
        .ok { r0 := (rotatedLeft (word s s.ports.a) s.ports.b.toNat s.ports.c.toNat).toInt }
      else .raise .range) :=
  ends_guarded windowIllegal_iff fun ⟨⟨hwidth, _⟩, _⟩ => ends_rotl s _ (Int.toNat_le_toNat hwidth)

/-- What ROTR answers to the operands of a state, which is also the default of ROTRSH_FN (R123, R127). -/
theorem ends_rotrAnswer (s : State) :
    Ends s (answer s (rotrAnswer s.params s.ports.a s.ports.b s.ports.c))
      (if WindowOperands s then
        .ok { r0 := (rotatedRight (word s s.ports.a) s.ports.b.toNat s.ports.c.toNat).toInt }
      else .raise .range) :=
  ends_guarded windowIllegal_iff fun ⟨⟨hwidth, _⟩, _⟩ => ends_rotr s _ (Int.toNat_le_toNat hwidth)

theorem onPort_toInt {p : Params} (x : BitVec p.rawBits) : onPort p x.toInt = x.toInt := by
  rw [onPort, BitVec.ofInt_toInt]

/-- ROTL answers OK in no other way than by the rotated word, which port R0 carries whole. -/
theorem next_of_rotl_ok {s t : State} {r : Results} (hexec : exec .rotl s = .next t)
    (hok : t.response = some ⟨.ok, r⟩) :
    WindowOperands s ∧ r.r0 = (rotatedLeft (word s s.ports.a) s.ports.b.toNat s.ports.c.toNat).toInt := by
  obtain ⟨hlegal, hillegal⟩ := ends_cases (ends_exec_rotl s)
  by_cases h : WindowOperands s
  · cases Host.Outcome.next.inj (hexec.symm.trans (hlegal h))
    cases hok
    exact ⟨h, onPort_toInt _⟩
  · cases Host.Outcome.next.inj (hexec.symm.trans (hillegal h))
    cases hok

/-! ## The parameter ROTRSH_FN (R127, U10) -/

section RotrshFn

variable {p : Params} {rows : List ((Int × Int × Int) × Answer)} {a b c : Int}

theorem rotrsh_default (h : p.rotrshFn = .rotr) : p.rotrsh a b c = rotrAnswer p a b c := by
  rw [Params.rotrsh, h]

/-- The first row for the operands is the one that counts. -/
theorem rotrsh_of_first_row {before after : List ((Int × Int × Int) × Answer)} {r : Answer}
    (h : p.rotrshFn = .listed (before ++ ((a, b, c), r) :: after)) (hbefore : ∀ row ∈ before, row.1 ≠ (a, b, c)) :
    p.rotrsh a b c = r := by
  have hlookup : (before ++ ((a, b, c), r) :: after).lookup (a, b, c) = some r :=
    List.lookup_eq_some_iff.mpr ⟨before, after, rfl, fun row hrow => by simpa using (hbefore row hrow).symm⟩
  rw [Params.rotrsh, h]
  simp only [hlookup]

theorem rotrsh_of_no_row (h : p.rotrshFn = .listed rows) (hrows : ∀ row ∈ rows, row.1 ≠ (a, b, c)) :
    p.rotrsh a b c = rotrAnswer p a b c := by
  have hlookup : rows.lookup (a, b, c) = none :=
    List.lookup_eq_none_iff.mpr fun row hrow => by simpa using (hrows row hrow).symm
  rw [Params.rotrsh, h]
  simp only [hlookup]

end RotrshFn

theorem exec_rotrsh (s : State) :
    exec .rotrsh s = answer s (s.params.rotrsh s.ports.a s.ports.b s.ports.c) := rfl

/-! ## PARSEB and RENDERB (R128, R129) -/

theorem not_lt_natCast_iff (k v : Nat) : ¬ (2 : Int) ^ k - 1 < (v : Int) ↔ v < 2 ^ k := by
  have hpow : ((2 ^ k : Nat) : Int) = 2 ^ k := by push_cast; rfl
  omega

section Strings

variable {s : State}

theorem ends_parseb_of_absent (h : s.ports.sIn = none) : Ends s (exec .parseb s) (.raise .argument) := by
  refine ends_of_eq ?_
  rw [h]

/-- PARSEB on a string that is there: the empty one, one with another character, and one whose value is too large are
all FORMAT. -/
theorem exec_parseb_of_present {cs : Str} (h : s.ports.sIn = some cs) [Decidable (Parses s.params cs)] :
    exec .parseb s =
      answer s (if Parses s.params cs then .ok { r0 := binaryValue cs } else .raise .format) := by
  refine congrArg (answer s) ?_
  rw [h]
  cases cs with
  | nil => exact (if_neg fun ⟨hne, _⟩ => hne rfl).symm
  | cons c cs =>
    by_cases hbinary : Binary (c :: cs)
    · simp only [parseFrom_binary 0 _ hbinary, zero_mul, zero_add]
      have hfits : ¬ (2 : Int) ^ (s.params.rawBits - 1) - 1 < binaryValue (c :: cs) ↔ Parses s.params (c :: cs) :=
        (not_lt_natCast_iff _ _).trans
          ⟨fun hlt => ⟨List.cons_ne_nil c cs, hbinary, hlt⟩, fun ⟨_, _, hlt⟩ => hlt⟩
      exact (ite_not ..).symm.trans (if_congr hfits rfl rfl)
    · simp only [parseFrom_not_binary 0 _ hbinary]
      rw [if_neg fun ⟨_, hp, _⟩ => hbinary hp]

theorem ends_parseb_of_parses {cs : Str} (h : s.ports.sIn = some cs) (hp : Parses s.params cs) :
    Ends s (exec .parseb s) (.ok { r0 := binaryValue cs }) := by
  classical
  rw [exec_parseb_of_present h, if_pos hp]
  exact ends_answer s _

/-- What `render_spec` says of a natural number, said of a number that is not negative. -/
theorem padZeros_render_spec {a : Int} (h : 0 ≤ a) (pad : Nat) :
    Binary (padZeros pad (render a)) ∧ (binaryValue (padZeros pad (render a)) : Int) = a ∧
      (padZeros pad (render a)).length = max pad (max 1 (Nat.size a.toNat)) := by
  obtain ⟨n, rfl⟩ := Int.eq_ofNat_of_zero_le h
  obtain ⟨hbinary, hvalue, hlength⟩ := render_spec n pad
  exact ⟨hbinary, congrArg Nat.cast hvalue, hlength⟩

theorem ends_renderb_of_negative (ha : s.ports.a < 0) : Ends s (exec .renderb s) (.raise .argument) :=
  ends_of_eq (if_pos ha)

theorem ends_renderb_of_bad_pad (ha : ¬ s.ports.a < 0) (hpad : s.ports.b < 0 ∨ (s.params.sMax : Int) < s.ports.b) :
    Ends s (exec .renderb s) (.raise .range) :=
  ends_of_eq ((if_neg ha).trans (if_pos hpad))

theorem ends_renderb {cs : Str} (ha : ¬ s.ports.a < 0)
    (hpad : ¬ (s.ports.b < 0 ∨ (s.params.sMax : Int) < s.ports.b))
    (hcs : cs = padZeros s.ports.b.toNat (render s.ports.a)) :
    Ends s (exec .renderb s) (.ok { r0 := cs.length, rs := some cs }) := by
  subst hcs
  exact ends_of_eq ((if_neg ha).trans (if_neg hpad))

end Strings

end Sys2Proof.Machine.Laws

namespace Sys2Proof.Proofs

open Sys2Proof.Machine Sys2Proof.Machine.Laws Sys2Proof.Safety

/-- Settles O27: ROTRSH_FN is ROTR, or a table whose first row for the operands counts and which is ROTR elsewhere. -/
theorem rotateRightShift : Obligations.RotateRightShift := by
  refine ⟨rfl, fun s => ⟨fun hfn => ?_, fun rows hfn => ⟨?_, fun hrows => ?_⟩⟩⟩
  · rw [exec_rotrsh, rotrsh_default hfn]
    exact ends_rotrAnswer s
  · rintro before after r rfl hbefore
    rw [exec_rotrsh, rotrsh_of_first_row hfn hbefore]
    exact ends_answer s r
  · rw [exec_rotrsh, rotrsh_of_no_row hfn hrows]
    exact ends_rotrAnswer s

/-- Settles O28: ROTL answers the rotated word, and rotating that to the right gives the word on port A. -/
theorem rotationsInverse : Obligations.RotationsInverse := by
  intro s t r hexec hok
  obtain ⟨hwindow, hr⟩ := next_of_rotl_ok hexec hok
  have hends := (ends_cases (ends_rotrAnswer (s.withPorts { s.ports with a := r.r0 }))).1 hwindow
  have hword : rotatedRight (word s r.r0) s.ports.b.toNat s.ports.c.toNat = word s s.ports.a := by
    rw [hr, word, BitVec.ofInt_toInt]
    exact rotatedRight_rotatedLeft (by omega) _
  refine ends_value ?_ hends
  show onPort s.params (rotatedRight (word s r.r0) s.ports.b.toNat s.ports.c.toNat).toInt = onPort s.params s.ports.a
  rw [hword, onPort_toInt]
  rfl

/-- Settles O31: the loop reads binary digits as their value and stops at any other character. -/
theorem parseBinary : Obligations.ParseBinary := by
  refine ⟨rfl, fun s => ?_⟩
  cases hin : s.ports.sIn with
  | none => exact ends_parseb_of_absent hin
  | some cs =>
    classical
    rw [exec_parseb_of_present hin]
    exact ends_of_eq (if_congr Iff.rfl rfl rfl)

/-- Settles O32: the padded digits have the value of port A, and PARSEB reads a value that fits. -/
theorem renderBinary : Obligations.RenderBinary := by
  refine ⟨rfl, fun s => ?_⟩
  by_cases ha : s.ports.a < 0
  · exact (if_pos ha).mpr (ends_renderb_of_negative ha)
  · by_cases hpad : s.ports.b < 0 ∨ (s.params.sMax : Int) < s.ports.b
    · exact (if_neg ha).mpr ((if_pos hpad).mpr (ends_renderb_of_bad_pad ha hpad))
    · refine (if_neg ha).mpr ((if_neg hpad).mpr ?_)
      obtain ⟨hbinary, hvalue, hlength⟩ := padZeros_render_spec (not_lt.mp ha) s.ports.b.toNat
      refine ⟨_, hbinary, hvalue, hlength, ends_renderb ha hpad rfl, fun hraw => ?_⟩
      have hparses : Parses s.params (padZeros s.ports.b.toNat (render s.ports.a)) := by
        refine ⟨List.ne_nil_of_length_pos (by omega), hbinary, ?_⟩
        zify
        rw [hvalue]
        exact hraw.2
      have hends := ends_parseb_of_parses
        (s := s.withPorts { s.ports with sIn := some (padZeros s.ports.b.toNat (render s.ports.a)) }) rfl hparses
      rwa [hvalue] at hends

end Sys2Proof.Proofs

/-! # Powers, shifts, next power and multiple, halves, midpoint and clamp (R150, R156, R158 to R160, R186, R187, R204,
R205) -/

namespace Sys2Proof.Machine.Laws

open Sys2Proof.Safety

/-! ## Powers and shifts (R156, R160) -/

/-- POW is the policy of the exact power (R156). -/
theorem ends_pow {s : State} {d : Desc} (hd : 1 ≤ d.width) (pol : Policy) :
    Ends s (exec (.pow pol d) s)
      (if s.ports.b < 0 then .raise .range
      else if Valid d s.ports.a then policyOutcome s.assertEn pol d (s.ports.a ^ s.ports.b.toNat)
      else .unspecified) :=
  ends_shift fun _ => (applyPolicy_powFold hd ..).trans (policyOutcome_eq hd ..)

/-- SHL is the policy of the exact product with a power of two (R160). -/
theorem ends_shl {s : State} {d : Desc} (hd : 1 ≤ d.width) (pol : Policy) :
    Ends s (exec (.shl pol d) s)
      (if s.ports.b < 0 then .raise .range
      else if Valid d s.ports.a then policyOutcome s.assertEn pol d (s.ports.a * 2 ^ s.ports.b.toNat)
      else .unspecified) :=
  ends_shift fun _ => (applyPolicy_timesPow2 hd ..).trans (policyOutcome_eq hd ..)

/-! ## Next power of two, next multiple (R158, R159) -/

/-- The least power of two at or above a number is the only one with its property. -/
theorem nextPowerOf2_eq {w k : Nat} {a : Int} (hw : a ≤ 2 ^ w) (hle : a ≤ 2 ^ k) (hleast : ∀ j < k, (2 : Int) ^ j < a) :
    nextPowerOf2 w a = 2 ^ k := by
  obtain ⟨j, hj, hjle, hjleast⟩ := nextPowerOf2_spec hw
  have hjk : ¬ j < k := fun h => (hleast j h).not_ge hjle
  have hkj : ¬ k < j := fun h => (hjleast k h).not_ge hle
  rw [hj, le_antisymm (not_lt.mp hkj) (not_lt.mp hjk)]

/-- The least multiple at or above a number is the only one with its property. -/
theorem nextMultipleOf_eq {a m q : Int} (hm : 0 < m) (hle : a ≤ q * m) (hlt : (q - 1) * m < a) :
    nextMultipleOf a m = q * m := by
  have hquot : (a + m - 1) / m = q := by
    rw [sub_mul, one_mul] at hlt
    rw [Int.ediv_eq_iff_of_pos hm]
    omega
  rw [nextMultipleOf, hquot]

/-- A policy command with two tests before its policy, each of which leaves the response free (R158, R159). -/
theorem ends_positive_policy {s : State} {d : Desc} (hd : 1 ≤ d.width) {invalid bad good : Prop} [Decidable invalid]
    [Decidable bad] [Decidable good] (hiff : invalid ∨ bad ↔ ¬ good) (pol : Policy) {x e : Int} (h : good → x = e) :
    Ends s
      (answer s (if invalid then .unspecified else if bad then .unspecified else applyPolicy s.assertEn pol d x))
      (if good then policyOutcome s.assertEn pol d e else .unspecified) := by
  rw [← ite_or]
  by_cases hg : good
  · rw [← h hg]
    exact ends_policy hd hiff pol x
  · rw [if_pos (hiff.mpr hg), if_neg hg]
    exact ends_answer s _

theorem ends_npow2 {s : State} {d : Desc} (hd : 1 ≤ d.width) (pol : Policy) {k : Nat} (hle : s.ports.a ≤ 2 ^ k)
    (hleast : ∀ j < k, (2 : Int) ^ j < s.ports.a) :
    Ends s (exec (.npow2 pol d) s)
      (if Valid d s.ports.a ∧ 0 < s.ports.a then policyOutcome s.assertEn pol d (2 ^ k) else .unspecified) :=
  ends_positive_policy hd ((or_congr_right not_lt.symm).trans not_and_or.symm) pol fun ⟨hv, _⟩ =>
    nextPowerOf2_eq (lt_two_pow_width_of_valid hd hv).le hle hleast

theorem ends_nmult {s : State} {d : Desc} (hd : 1 ≤ d.width) (pol : Policy) {e : Int}
    (h : 0 < s.ports.b → nextMultipleOf s.ports.a s.ports.b = e) :
    Ends s (exec (.nmult pol d) s)
      (if Valid d s.ports.a ∧ Valid d s.ports.b ∧ 0 < s.ports.a ∧ 0 < s.ports.b then policyOutcome s.assertEn pol d e
      else .unspecified) :=
  have htests : (¬ Valid d s.ports.a ∨ ¬ Valid d s.ports.b) ∨ s.ports.a ≤ 0 ∨ s.ports.b ≤ 0 ↔
      ¬ (Valid d s.ports.a ∧ Valid d s.ports.b ∧ 0 < s.ports.a ∧ 0 < s.ports.b) := by
    simp only [← and_assoc, not_and_or, not_lt, or_assoc]
  ends_positive_policy hd htests pol fun ⟨_, _, _, hb⟩ => h hb

/-! ## What a policy command answers (R150) -/

/-- A result of the answer on R0 is a valid value of the descriptor. -/
def OkValid (d : Desc) (a : Answer) : Prop := ∀ r, a = .ok r → Valid d r.r0

theorem okValid_value {d : Desc} {x : Int} (h : Valid d x) : OkValid d (.value x) := by
  rintro r hr
  cases hr
  exact h

theorem okValid_unspecified (d : Desc) : OkValid d .unspecified := fun _ => Answer.noConfusion

theorem okValid_novalue (d : Desc) : OkValid d .novalue := fun _ => Answer.noConfusion

theorem okValid_raise (d : Desc) (k : Kind) : OkValid d (.raise k) := fun _ => Answer.noConfusion

theorem okValid_ite {d : Desc} {c : Prop} [Decidable c] {a b : Answer} (ha : OkValid d a) (hb : OkValid d b) :
    OkValid d (if c then a else b) := by
  split
  · exact ha
  · exact hb

/-- Every policy answers a number in range, the wrapped or the clamped one if not the exact one. -/
theorem okValid_applyPolicy {d : Desc} (hd : 1 ≤ d.width) (en : Bool) (pol : Policy) (e : Int) :
    OkValid d (applyPolicy en pol d e) := by
  have hwrap := okValid_value (wrap_inRange hd e)
  unfold applyPolicy
  split
  · next hr => exact okValid_value hr
  · cases pol with
    | checked => exact okValid_ite (okValid_raise d _) hwrap
    | unchecked => exact okValid_unspecified d
    | attempt => exact okValid_novalue d
    | wrapped => exact hwrap
    | clamped => exact okValid_value (clampv_inRange hd e)

/-- The policy commands for a descriptor, but FIT under the unchecked policy, which applies none (R152). -/
def AppliesPolicy (pol : Policy) (d : Desc) (i : Instr) : Prop :=
  (i = .fit pol d ∧ pol ≠ .unchecked) ∨ i = .add pol d ∨ i = .sub pol d ∨ i = .mul pol d ∨ i = .pow pol d ∨
    (i = .neg pol d.width ∧ d.signed = true) ∨ i = .npow2 pol d ∨ i = .nmult pol d ∨ i = .shl pol d

/-- A policy command ends in a fault, unspecified, or with its policy. -/
theorem exec_okValid {pol : Policy} {d : Desc} (hd : 1 ≤ d.width) {i : Instr} (hi : AppliesPolicy pol d i) (s : State) :
    ∃ a, exec i s = answer s a ∧ OkValid d a := by
  have hpolicy (e : Int) := okValid_applyPolicy hd s.assertEn pol e
  have hfree := okValid_unspecified d
  have hrange := okValid_raise d .range
  rcases hi with ⟨rfl, hpol⟩ | rfl | rfl | rfl | rfl | ⟨rfl, hs⟩ | rfl | rfl | rfl
  · exact ⟨_, congrArg (answer s) (if_neg hpol), hpolicy _⟩
  · exact ⟨_, rfl, okValid_ite hfree (hpolicy _)⟩
  · exact ⟨_, rfl, okValid_ite hfree (hpolicy _)⟩
  · exact ⟨_, rfl, okValid_ite hfree (hpolicy _)⟩
  · exact ⟨_, rfl, okValid_ite hrange (okValid_ite hfree (hpolicy _))⟩
  · obtain ⟨w, signed⟩ := d
    obtain rfl : signed = true := hs
    exact ⟨_, rfl, okValid_ite hfree (hpolicy _)⟩
  · exact ⟨_, rfl, okValid_ite hfree (okValid_ite hfree (hpolicy _))⟩
  · exact ⟨_, rfl, okValid_ite hfree (okValid_ite hfree (hpolicy _))⟩
  · exact ⟨_, rfl, okValid_ite hrange (okValid_ite hfree (hpolicy _))⟩

/-- A port carries a valid value whole: widths are below RAWBITS (R5). -/
theorem raw_of_valid {p : Params} (hs : SizesOk p) {d : Desc} (hd : d.wf p.wMax = true) {x : Int} (hx : Valid d x) :
    raw p.rawBits x = x := by
  obtain ⟨hw, hmax, -⟩ := width_of_wf hd
  exact raw_of_isRaw (one_le_rawBits hs) (isRaw_of_inRange hw (hmax.trans hs.wMax.2) hx)

/-- What port R0 shows of a determined answer whose status is OK. -/
theorem valid_of_okValid {s : State} (hs : SizesOk s.params) {d : Desc} (hd : d.wf s.params.wMax = true) {a : Answer}
    (ha : OkValid d a) {r : Response} (hr : (s.answered a).response = some r) (hdet : Determined s (s.answered a))
    (hok : r.status = .ok) : Valid d r.results.r0 := by
  rcases answered_response s a with ⟨x, hx, hres, -⟩ | ⟨-, hres, -⟩ | ⟨k, -, hres, -⟩ | ⟨-, -, hfree⟩
  · cases hres.symm.trans hr
    show Valid d (raw s.params.rawBits x.r0)
    rw [raw_of_valid hs hd (ha x hx)]
    exact ha x hx
  · cases hres.symm.trans hr
    cases hok
  · cases hres.symm.trans hr
    cases hok
  · exact absurd hdet hfree

/-! ## Halves (R186, R187) -/

/-- Bits of a number inside the width are those of its pattern. -/
theorem bit_eq_patternOf (d : Desc) (a : Int) {i : Nat} (hi : i < d.width) :
    bit a i = if (patternOf d a).getLsbD i then 1 else 0 := by
  rw [← bit_pat, pat, bit_low hi]

section Halves

variable {d : Desc} {a b : Int}

theorem two_pow_width_of_even (heven : d.width % 2 = 0) :
    (2 : Int) ^ d.width = 2 ^ (d.width / 2) * 2 ^ (d.width / 2) := by
  rw [← pow_add]
  congr 1
  omega

theorem pat_div_half_nonneg (d : Desc) (a : Int) : 0 ≤ pat d a / 2 ^ (d.width / 2) :=
  Int.ediv_nonneg (pat_bounds d a).1 (two_pow_pos _).le

theorem pat_div_half_lt (heven : d.width % 2 = 0) (a : Int) : pat d a / 2 ^ (d.width / 2) < 2 ^ (d.width / 2) :=
  Int.ediv_lt_of_lt_mul (two_pow_pos _) (two_pow_width_of_even heven ▸ (pat_bounds d a).2)

/-- The high half of a pattern of even width (R186). -/
theorem pat_div_half (heven : d.width % 2 = 0) (a : Int) :
    pat d a / 2 ^ (d.width / 2) = (((patternOf d a).extractLsb' (d.width / 2) (d.width / 2)).toNat : Int) := by
  rw [BitVec.extractLsb'_toNat, Nat.shiftRight_eq_div_pow]
  push_cast
  rw [← pat_eq]
  exact (Int.emod_eq_of_lt (pat_div_half_nonneg d a) (pat_div_half_lt heven a)).symm

/-- The low half of a pattern (R186). -/
theorem pat_mod_half (d : Desc) (a : Int) :
    pat d a % 2 ^ (d.width / 2) = (((patternOf d a).extractLsb' 0 (d.width / 2)).toNat : Int) := by
  rw [pat_eq, BitVec.extractLsb'_toNat, Nat.shiftRight_zero]
  push_cast
  rfl

/-- FROMHILO's answer: the low half does not reach the bits of the high half (R187). -/
theorem patVal_join (hw : 1 ≤ d.width) (h₀ : 0 ≤ b) (h₁ : b < 2 ^ (d.width / 2)) :
    patVal d (a * 2 ^ (d.width / 2) + b) = valueOf d (patternOf d a <<< (d.width / 2) ||| patternOf d b) :=
  patVal_of_bits hw fun i hi => by
    rw [add_comm, bit_add_high h₀ h₁, BitVec.getLsbD_or, BitVec.getLsbD_shiftLeft]
    by_cases hlow : i < d.width / 2
    · simp [hlow, bit_eq_patternOf d b hi]
    · have hb : (patternOf d b).getLsbD i = false := by
        rw [patternOf, ofInt_bit, bit_eq_zero h₀ h₁ (not_lt.mp hlow)]
        simp
      have hhigh : i - d.width / 2 < d.width := by omega
      rw [if_neg hlow, bit_eq_patternOf d a hhigh, hb, Bool.or_false]
      simp [hlow, hi]

/-- The halves of a valid value's pattern joined again give the value (R186, R187). -/
theorem patVal_join_halves (hw : 1 ≤ d.width) (hv : Valid d a) :
    patVal d (pat d a / 2 ^ (d.width / 2) * 2 ^ (d.width / 2) + pat d a % 2 ^ (d.width / 2)) = a := by
  rw [Int.ediv_mul_add_emod, patVal_pat hw hv]

end Halves

/-- Two halves on the ports A and B (R187). -/
abbrev HalfOperands (s : State) (d : Desc) : Prop :=
  (0 ≤ s.ports.a ∧ s.ports.a < 2 ^ (d.width / 2)) ∧ 0 ≤ s.ports.b ∧ s.ports.b < 2 ^ (d.width / 2)

theorem ends_fromhilo (s : State) (d : Desc) :
    Ends s (exec (.fromhilo d) s)
      (if HalfOperands s d then .ok { r0 := patVal d (s.ports.a * 2 ^ (d.width / 2) + s.ports.b) }
      else .raise .range) :=
  ends_guarded not_and_or.symm fun _ => ends_answer s _

/-- A number of a legal descriptor's half width is carried by a port whole. -/
theorem raw_of_half {p : Params} (hs : SizesOk p) {d : Desc} (hd : d.wf p.wMax = true) {x : Int} (h₀ : 0 ≤ x)
    (h₁ : x < 2 ^ (d.width / 2)) : raw p.rawBits x = x := by
  obtain ⟨-, hmax, -⟩ := width_of_wf hd
  have hle : d.width / 2 ≤ p.rawBits - 1 := by
    have := hs.wMax
    omega
  have hpow : (2 : Int) ^ (d.width / 2) ≤ 2 ^ (p.rawBits - 1) := pow_le_pow_right₀ (by norm_num) hle
  have := two_pow_pos (p.rawBits - 1)
  exact raw_of_isRaw (one_le_rawBits hs) ⟨by omega, by omega⟩

/-- HILO of a valid value shows the two halves of its pattern, whole. -/
theorem next_of_hilo_ok {s t : State} {d : Desc} {r : Results} (hs : SizesOk s.params)
    (hd : d.wf s.params.wMax = true) (heven : d.width % 2 = 0) (hv : Valid d s.ports.a)
    (hexec : exec (.hilo d) s = .next t) (hok : t.response = some ⟨.ok, r⟩) :
    r.r0 = pat d s.ports.a / 2 ^ (d.width / 2) ∧ r.r1 = pat d s.ports.a % 2 ^ (d.width / 2) := by
  have hanswer : exec (.hilo d) s =
      answer s (.pair (pat d s.ports.a / 2 ^ (d.width / 2)) (pat d s.ports.a % 2 ^ (d.width / 2))) :=
    congrArg (answer s) (if_neg (not_not.mpr hv))
  cases Host.Outcome.next.inj (hexec.symm.trans hanswer)
  cases hok
  exact ⟨raw_of_half hs hd (pat_div_half_nonneg d _) (pat_div_half_lt heven _),
    raw_of_half hs hd (low_nonneg _ _) (low_lt _ _)⟩

/-! ## Midpoint and clamp (R204, R205) -/

/-- Halving toward zero: down for a number that is not negative, up for a negative one. -/
theorem tdiv_two_eq (x : Int) : x.tdiv 2 = if x < 0 then (x + 1) / 2 else x / 2 := by
  have hsign : Int.sign 2 = 1 := rfl
  rw [Int.tdiv_eq_ediv, hsign]
  split <;> omega

/-- The average of an even sum is exact under every rounding. -/
theorem midpointBy_of_even (round : MidptRound) {a b m : Int} (h : 2 * m = a + b) : midpointBy round a b = m := by
  cases round with
  | floor => simp only [midpointBy]; omega
  | trunc => simp only [midpointBy, tdiv_two_eq]; omega
  | towardFirst => simp only [midpointBy, tdiv_two_eq]; omega

/-- Of an odd sum each rounding names the number below its half or the one above. -/
theorem midpointBy_of_odd (round : MidptRound) {a b m : Int} (h : 2 * m + 1 = a + b) :
    midpointBy round a b =
      match round with
      | .floor => m
      | .trunc => if a + b < 0 then m + 1 else m
      | .towardFirst => if a < b then m else m + 1 := by
  cases round with
  | floor => simp only [midpointBy]; omega
  | trunc => simp only [midpointBy, tdiv_two_eq]; omega
  | towardFirst => simp only [midpointBy, tdiv_two_eq]; omega

/-- The tests of three value operands are one. -/
theorem ite_not_or_not_or_not {α : Type} {p q r : Prop} [Decidable p] [Decidable q] [Decidable r] {x y : α} :
    (if ¬ p ∨ ¬ q ∨ ¬ r then x else y) = if p ∧ q ∧ r then y else x := by
  rw [← ite_not]
  exact if_congr (by simp only [not_or, not_not]) rfl rfl

theorem clamp_eq {a lo hi : Int} (h : ¬ hi < lo) :
    min (max a lo) hi = if a < lo then lo else if hi < a then hi else a := by
  omega

end Sys2Proof.Machine.Laws

namespace Sys2Proof.Proofs

open Sys2Proof.Machine Sys2Proof.Machine.Laws Sys2Proof.Safety Sys2Proof.Laws

/-- Settles O37: the representatives of the exact power and product are under every policy what these are. -/
theorem powersAndShifts : Obligations.PowersAndShifts := by
  intro s pol d hd
  obtain ⟨hw, -, -⟩ := width_of_wf hd
  exact ⟨toNat_ofP hd 0x34#8 pol, toNat_ofP hd 0x38#8 pol, ends_pow hw pol, ends_shl hw pol⟩

/-- Settles O38: the searches find a least power of two and a least multiple, and there is only one of each. -/
theorem nextPowerAndMultiple : Obligations.NextPowerAndMultiple := by
  intro s pol d hd
  obtain ⟨hw, -, -⟩ := width_of_wf hd
  refine ⟨toNat_ofP hd 0x36#8 pol, toNat_ofP hd 0x37#8 pol, fun k => ends_npow2 hw pol,
    fun q hle hlt => ends_nmult hw pol fun hb => nextMultipleOf_eq hb hle hlt, fun hbad => ?_⟩
  exact (ends_cases (ends_nmult hw pol fun _ => rfl)).2 fun ⟨_, hv, _, hb⟩ => hbad ⟨hv, hb⟩

/-- Settles O39: a policy answers a valid value, and a port carries it whole. -/
theorem policyResultsValid : Obligations.PolicyResultsValid := by
  intro s t r i pol d hs hd hi hexec hr hdet hok
  obtain ⟨hw, -, -⟩ := width_of_wf hd
  have hpolicy : AppliesPolicy pol d i := hi
  obtain ⟨a, hanswer, ha⟩ := exec_okValid hw hpolicy s
  obtain rfl : s.answered a = t := Host.Outcome.next.inj (hanswer.symm.trans hexec)
  exact valid_of_okValid hs hd ha hr hdet hok

/-- Settles O44: quotient and remainder by the power of two at half the width are the halves of the pattern. -/
theorem halves : Obligations.Halves := by
  intro s d hd heven
  obtain ⟨hw, -, -⟩ := width_of_wf hd
  refine ⟨toNat_ofD hd 0x50#8, toNat_ofD hd 0x51#8, ends_valid ?_,
    ends_guarded not_and_or.symm fun ⟨_, h₀, h₁⟩ => ends_of_eq (congrArg Answer.value (patVal_join hw h₀ h₁)), ?_⟩
  · rw [A_eq, pat_div_half heven, pat_mod_half]
    rfl
  · intro t r hs hv hexec hok
    obtain ⟨hhi, hlo⟩ := next_of_hilo_ok hs hd heven hv hexec hok
    have hhalves : HalfOperands (s.withPorts { s.ports with a := r.r0, b := r.r1 }) d := by
      refine ⟨?_, ?_⟩
      · show 0 ≤ r.r0 ∧ r.r0 < 2 ^ (d.width / 2)
        rw [hhi]
        exact ⟨pat_div_half_nonneg d _, pat_div_half_lt heven _⟩
      · show 0 ≤ r.r1 ∧ r.r1 < 2 ^ (d.width / 2)
        rw [hlo]
        exact ⟨low_nonneg _ _, low_lt _ _⟩
    have hends := (ends_cases (ends_fromhilo (s.withPorts { s.ports with a := r.r0, b := r.r1 }) d)).1 hhalves
    have hjoin : patVal d (r.r0 * 2 ^ (d.width / 2) + r.r1) = s.ports.a := by
      rw [hhi, hlo, patVal_join_halves hw hv]
    exact ends_value (congrArg _ hjoin) hends

/-- Settles O47: the parity of the sum decides whether the rounding matters. -/
theorem midpoint : Obligations.Midpoint := by
  intro s d hd
  have hends {m : Int} (h : midpointBy s.params.midptRound s.A s.B = m) :
      Ends s (exec (.midpt d) s)
        (if Valid d s.ports.a ∧ Valid d s.ports.b then .ok { r0 := m } else .unspecified) :=
    ends_of_eq (validPair_eq fun _ _ => congrArg Answer.value h)
  refine ⟨toNat_ofD hd 0x56#8, (ends_cases (hends rfl)).2, fun ha hb => ⟨fun m hm => ?_, fun m hm => ?_⟩⟩
  · exact (ends_cases (hends (midpointBy_of_even _ hm))).1 ⟨ha, hb⟩
  · exact (ends_cases (hends (midpointBy_of_odd _ hm))).1 ⟨ha, hb⟩

/-- Settles O48: an interval that is not empty is tested before the operands are. -/
theorem clampToInterval : Obligations.ClampToInterval := by
  intro s d hd
  refine ⟨toNat_ofD hd 0x57#8, ?_⟩
  by_cases hempty : s.ports.c < s.ports.b
  · rw [if_pos hempty]
    exact ends_of_eq (if_pos hempty)
  · rw [if_neg hempty, ← clamp_eq hempty]
    exact ends_of_eq ((if_neg hempty).trans ite_not_or_not_or_not)

end Sys2Proof.Proofs

/-! # Making a group (R242) -/

namespace Sys2Proof.Machine.Laws

open Sys2Proof.Safety

/-! ## Testing the members -/

/-- The number names a valid pattern slot (R43, R46). -/
def ValidMember (s : State) (x : Int) : Prop := ∃ p, slotAt s.params.nPat s.pt x = some (some p)

section Members

variable {s : State} {x : Int} {xs : List Int}

theorem readPattern_of_outside (h : slotAt s.params.nPat s.pt x = none) : s.readPattern x = .error .range := by
  rw [State.readPattern, readSlot_eq, h]

theorem readPattern_of_invalid (h : slotAt s.params.nPat s.pt x = some none) : s.readPattern x = .error .state := by
  rw [State.readPattern, readSlot_eq, h]

theorem readPattern_of_valid {p : Pattern} (h : slotAt s.params.nPat s.pt x = some (some p)) :
    s.readPattern x = .ok p := by
  rw [State.readPattern, readSlot_eq, h]

/-- What a valid member is: a slot number that is not negative, with a record. -/
theorem record_of_validMember (h : ValidMember s x) : 0 ≤ x ∧ ∃ p, recordAt s.pt x.toNat = some p := by
  obtain ⟨p, hp⟩ := h
  obtain ⟨hslot, hget⟩ := slotAt_eq_some.mp hp
  obtain ⟨hnonneg, -, -, -⟩ := slotOf_some hslot
  exact ⟨hnonneg, p, by rw [← slotGet_eq, hget]⟩

theorem checkMembers_cons_of_error {k : Kind} (h : s.readPattern x = .error k) :
    s.checkMembers (x :: xs) = .error k := by
  rw [State.checkMembers, h]

theorem checkMembers_cons_of_ok {p : Pattern} (h : s.readPattern x = .ok p) {ms : List Nat}
    (hxs : s.checkMembers xs = .ok ms) : s.checkMembers (x :: xs) = .ok (x.toNat :: ms) := by
  rw [State.checkMembers, h, hxs]

theorem checkMembers_cons_of_rest {p : Pattern} (h : s.readPattern x = .ok p) {k : Kind}
    (hxs : s.checkMembers xs = .error k) : s.checkMembers (x :: xs) = .error k := by
  rw [State.checkMembers, h, hxs]

/-- Valid members pass the test. -/
theorem checkMembers_of_valid (h : ∀ y ∈ xs, ValidMember s y) : s.checkMembers xs = .ok (xs.map Int.toNat) := by
  induction xs with
  | nil => rfl
  | cons y ys ih =>
    obtain ⟨⟨p, hp⟩, hys⟩ := List.forall_mem_cons.mp h
    exact checkMembers_cons_of_ok (readPattern_of_valid hp) (ih hys)

/-- The first member that does not pass decides the fault. -/
theorem checkMembers_of_first_error {ys zs : List Int} {k : Kind} (hys : ∀ y ∈ ys, ValidMember s y)
    (hx : s.readPattern x = .error k) : s.checkMembers (ys ++ x :: zs) = .error k := by
  induction ys with
  | nil => exact checkMembers_cons_of_error hx
  | cons y ys ih =>
    obtain ⟨⟨p, hp⟩, hys⟩ := List.forall_mem_cons.mp hys
    exact checkMembers_cons_of_rest (readPattern_of_valid hp) (ih hys)

end Members

/-! ## The checks of PGMAKE -/

section Checks

variable {s : State} {old : Option GroupRecord} {xs : List Int}

theorem exec_pgmake (s : State) : exec .pgmake s = execPgmake s := rfl

theorem ends_pgmake_of_outside (hslot : slotAt s.params.nGrp s.gt s.ports.a = none) :
    Ends s (exec .pgmake s) (.raise .range) := by
  have hexec : exec .pgmake s = answer s (.raise .range) := by
    rw [exec_pgmake, execPgmake, A_eq, slotAt_eq_none.mp hslot]
  rw [hexec]
  exact ends_answer s _

theorem ends_pgmake_of_no_list (hslot : slotAt s.params.nGrp s.gt s.ports.a = some old)
    (hv : s.ports.v = none ∨ s.ports.v = some []) : Ends s (exec .pgmake s) (.raise .argument) := by
  obtain ⟨hsome, -⟩ := slotAt_eq_some.mp hslot
  have hexec : exec .pgmake s = answer s (.raise .argument) := by
    rcases hv with hv | hv <;> rw [exec_pgmake, execPgmake, A_eq, hsome, hv]
  rw [hexec]
  exact ends_answer s _

theorem ends_pgmake_of_long_list (hslot : slotAt s.params.nGrp s.gt s.ports.a = some old) (hv : s.ports.v = some xs)
    (hne : xs ≠ []) (hlong : s.params.gMax < xs.length) : Ends s (exec .pgmake s) (.raise .argument) := by
  obtain ⟨hsome, -⟩ := slotAt_eq_some.mp hslot
  obtain ⟨x, xs, rfl⟩ := List.exists_cons_of_ne_nil hne
  have hexec : exec .pgmake s = answer s (.raise .argument) := by
    rw [exec_pgmake, execPgmake, A_eq, hsome, hv]
    exact if_pos hlong
  rw [hexec]
  exact ends_answer s _

theorem ends_pgmake_of_bad_member (hslot : slotAt s.params.nGrp s.gt s.ports.a = some old) (hv : s.ports.v = some xs)
    (hne : xs ≠ []) (hlen : xs.length ≤ s.params.gMax) {k : Kind} (hcheck : s.checkMembers xs = .error k) :
    Ends s (exec .pgmake s) (.raise k) := by
  obtain ⟨hsome, -⟩ := slotAt_eq_some.mp hslot
  obtain ⟨x, xs, rfl⟩ := List.exists_cons_of_ne_nil hne
  have hexec : exec .pgmake s = answer s (.raise k) := by
    rw [exec_pgmake, execPgmake, A_eq, hsome, hv]
    simp only [hcheck, if_neg hlen.not_gt]
  rw [hexec]
  exact ends_answer s _

/-- PGMAKE once the list and its members have passed: only the group's slot is left to test. -/
theorem exec_pgmake_of_members (hslot : slotAt s.params.nGrp s.gt s.ports.a = some old) (hv : s.ports.v = some xs)
    (hne : xs ≠ []) (hlen : xs.length ≤ s.params.gMax) {ms : List Nat} (hcheck : s.checkMembers xs = .ok ms) :
    exec .pgmake s =
      if old.isSome then answer s (.raise .state)
      else answer (s.storeGroup s.ports.a.toNat ⟨s.groupOf ms⟩) (membersAnswer (s.groupOf ms)) := by
  obtain ⟨hsome, rfl⟩ := slotAt_eq_some.mp hslot
  obtain ⟨x, xs, rfl⟩ := List.exists_cons_of_ne_nil hne
  rw [exec_pgmake, execPgmake, A_eq, hsome, hv]
  simp only [hcheck, if_neg hlen.not_gt]

theorem ends_pgmake_of_valid_slot {r : GroupRecord} (hslot : slotAt s.params.nGrp s.gt s.ports.a = some (some r))
    (hv : s.ports.v = some xs) (hne : xs ≠ []) (hlen : xs.length ≤ s.params.gMax) {ms : List Nat}
    (hcheck : s.checkMembers xs = .ok ms) : Ends s (exec .pgmake s) (.raise .state) := by
  rw [exec_pgmake_of_members hslot hv hne hlen hcheck]
  exact ends_answer s _

theorem ends_pgmake_of_free (hslot : slotAt s.params.nGrp s.gt s.ports.a = some none) (hv : s.ports.v = some xs)
    (hne : xs ≠ []) (hlen : xs.length ≤ s.params.gMax) {ms : List Nat} (hcheck : s.checkMembers xs = .ok ms) :
    Ends (s.storeGroup s.ports.a.toNat ⟨s.groupOf ms⟩) (exec .pgmake s) (membersAnswer (s.groupOf ms)) := by
  rw [exec_pgmake_of_members hslot hv hne hlen hcheck]
  exact ends_answer _ _

end Checks

/-! ## The members of the new group -/

/-- TIE_ORDER as a table: what stands in it for the list, or the list (U9). -/
theorem arrange_listed (rows : List (List Nat × List Nat)) (given : List Nat) :
    (TieOrder.listed rows).arrange given = (rows.lookup given).getD given := by
  rw [TieOrder.arrange]
  cases rows.lookup given <;> rfl

section Group

variable {s : State} {xs : List Int}

theorem map_ofNat_toNat (h : ∀ x ∈ xs, ValidMember s x) : (xs.map Int.toNat).map Int.ofNat = xs := by
  calc (xs.map Int.toNat).map Int.ofNat
      = xs.map (Int.ofNat ∘ Int.toNat) := List.map_map
    _ = xs.map id := List.map_congr_left fun x hx => Int.toNat_of_nonneg (record_of_validMember (h x hx)).1
    _ = xs := List.map_id xs

/-- Members made of valid ones have records. -/
theorem record_of_mem_perm (h : ∀ x ∈ xs, ValidMember s x) {ms : List Nat} (hperm : ms.Perm (xs.map Int.toNat))
    {m : Nat} (hm : m ∈ ms) : ∃ p, recordAt s.pt m = some p := by
  obtain ⟨x, hx, rfl⟩ := List.mem_map.mp (hperm.mem_iff.mp hm)
  exact (record_of_validMember (h x hx)).2

/-- A member's specificity, for a slot that holds a record (R43). -/
def rankOf (s : State) (m : Nat) : Option Nat := (recordAt s.pt m).map specificity

/-- The rank of a member with a record is its specificity in the sort. -/
theorem rankOf_eq_some_iff {m : Nat} (h : ∃ p, recordAt s.pt m = some p) {k : Nat} :
    rankOf s m = some k ↔ s.specOf m = k := by
  obtain ⟨p, hp⟩ := h
  rw [rankOf, hp, specOf_eq hp, Option.map_some, Option.some_inj, Nat.cast_inj]

theorem filter_rankOf {ms : List Nat} (h : ∀ m ∈ ms, ∃ p, recordAt s.pt m = some p) (k : Nat) :
    ms.filter (fun m => rankOf s m = some k) = ms.filter fun m => s.specOf m = k :=
  List.filter_congr fun m hm => decide_eq_decide.mpr (rankOf_eq_some_iff (h m hm))

/-- Descending specificity, on the records. -/
theorem sortMembers_rankOf {given : List Nat} (h : ∀ m ∈ given, ∃ p, recordAt s.pt m = some p) :
    (s.sortMembers given).Pairwise fun m n => ∀ j k, rankOf s m = some j → rankOf s n = some k → k ≤ j := by
  have hrec {m : Nat} (hm : m ∈ s.sortMembers given) := h m ((sortMembers_perm s given).mem_iff.mp hm)
  refine (sortMembers_sorted s given).imp_of_mem fun {m n} hm hn hle j k hj hk => ?_
  rw [rankOf_eq_some_iff (hrec hm)] at hj
  rw [rankOf_eq_some_iff (hrec hn)] at hk
  omega

/-- Equal specificity keeps the order, on the records. -/
theorem sortMembers_filter_rankOf {given : List Nat} (h : ∀ m ∈ given, ∃ p, recordAt s.pt m = some p) (k : Nat) :
    (s.sortMembers given).filter (fun m => rankOf s m = some k) = given.filter fun m => rankOf s m = some k := by
  have hsorted (m : Nat) (hm : m ∈ s.sortMembers given) := h m ((sortMembers_perm s given).mem_iff.mp hm)
  rw [filter_rankOf hsorted, filter_rankOf h, sortMembers_stable]

end Group

end Sys2Proof.Machine.Laws

namespace Sys2Proof.Proofs

open Sys2Proof.Machine Sys2Proof.Machine.Laws Sys2Proof.Safety

/-- Settles O59: the checks one after the other; the group is the arranged list, stably sorted. -/
theorem makeGroup : Obligations.MakeGroup := by
  refine ⟨rfl, fun s => ⟨ends_pgmake_of_outside, fun hgroup => ?_⟩⟩
  obtain ⟨old, hslot⟩ := Option.ne_none_iff_exists'.mp hgroup
  refine ⟨ends_pgmake_of_no_list hslot, fun xs hv hne => ⟨ends_pgmake_of_long_list hslot hv hne, fun hlen => ⟨?_, ?_⟩⟩⟩
  · rintro ys x zs rfl hys
    exact ⟨fun hx => ends_pgmake_of_bad_member hslot hv hne hlen
        (checkMembers_of_first_error hys (readPattern_of_outside hx)),
      fun hx => ends_pgmake_of_bad_member hslot hv hne hlen
        (checkMembers_of_first_error hys (readPattern_of_invalid hx))⟩
  · intro hvalid
    have hmembers : s.checkMembers xs = .ok (xs.map Int.toNat) := checkMembers_of_valid hvalid
    refine ⟨?_, fun hfree hparams => ?_⟩
    · rintro ⟨r, hr⟩
      exact ends_pgmake_of_valid_slot hr hv hne hlen hmembers
    · have htied := arrange_perm hparams (xs.map Int.toNat)
      have hrecords (m : Nat) (hm : m ∈ s.params.tieOrder.arrange (xs.map Int.toNat)) :=
        record_of_mem_perm hvalid htied hm
      have hperm : ((s.groupOf (xs.map Int.toNat)).map Int.ofNat).Perm xs := by
        simpa only [map_ofNat_toNat hvalid] using (groupOf_perm hparams (xs.map Int.toNat)).map Int.ofNat
      refine ⟨s.groupOf (xs.map Int.toNat), s.params.tieOrder.arrange (xs.map Int.toNat), _, hperm,
        sortMembers_rankOf hrecords, sortMembers_filter_rankOf hrecords, ?_, writtenAt_slotPut s.gt _ _, ?_⟩
      · cases s.params.tieOrder with
        | stable => exact map_ofNat_toNat hvalid
        | listed rows => exact arrange_listed rows _
      · have hends := ends_pgmake_of_free hfree hv hne hlen hmembers
        rw [membersAnswer, groupOf_length hparams hmembers] at hends
        exact hends

end Sys2Proof.Proofs
